-- ==== Sys2Proof/Word.lean ====
section
/-! DEFINITION. The widths of the spec: bytes, 32-bit words, the 64-bit LEN counter and 16-bit offsets
(00_scope.md R6, 10_state.md R22, 20_memory.md R51). All quantities are unsigned (R6). -/

namespace Sys2Proof

/-- A byte of a buffer, and the OP and ARG fields of a command word. -/
abbrev Byte := BitVec 8

/-- A "word" is 32 bits (R6). -/
abbrev Word := BitVec 32

/-- The LEN counter (R22). -/
abbrev Word64 := BitVec 64

/-- A byte offset in the register window (R51). -/
abbrev Offset := BitVec 16

end Sys2Proof
end

