-- ==== Sys2Proof/Config.lean ====
section
/-! DEFINITION. What the spec leaves to an instance, and the free value (93_implementation_defined.md
U1, U4). -/

namespace Sys2Proof

/-- The value of `R_MAX` in `State.reset` and in `decodeTableWord`. `R_MAX` is an OPEN parameter, 1 to 255
(00_scope.md R5); each State carries its own value in the field `rMax`, and this one is the value of the
spec's own vectors. DESIGN CHOICE, log 1: unsafe only for a claim about `State.reset` itself. -/
def Config.rMaxReset : Byte := 8

/-- `draw32()` (00_scope.md R10, 20_memory.md R60): the k-th draw. It has no body, so nothing can be proved
of its value; each data read while BUSY = 1 takes the next index. DESIGN CHOICE for its form, log 6. -/
opaque Config.draw32 : Nat → Word

end Sys2Proof
end

