-- ==== Sys2Proof/Syntax.lean ====
section
/-! DEFINITION. The command set of 30_encoding.md R84, one constructor per row of the table. A format Z
command has no operand; a format A command carries ARG as the unsigned byte it is (R82). The data
operands are fixed buffers, never named in the word (R82). -/

namespace Sys2Proof

inductive Instr where
  /-- NOP (44_system.md R181) -/
  | nop
  /-- SHA_INIT (40_sha256.md R110) -/
  | shaInit
  /-- SHA_UPDATE (40_sha256.md R112) -/
  | shaUpdate
  /-- SHA_FINAL n (40_sha256.md R114) -/
  | shaFinal (n : Byte)
  /-- HMAC_KEY n (41_hmac.md R133) -/
  | hmacKey (n : Byte)
  /-- HMAC_KEYD (41_hmac.md R135) -/
  | hmacKeyd
  /-- HMAC_INIT (41_hmac.md R137) -/
  | hmacInit
  /-- HMAC_FINAL n (41_hmac.md R139) -/
  | hmacFinal (n : Byte)
  /-- SALSA (42_salsa20_8.md R156) -/
  | salsa
  /-- BLOCKMIX r (43_blockmix.md R168) -/
  | blockmix (r : Byte)
  /-- ZEROIZE (44_system.md R183) -/
  | zeroize
  deriving DecidableEq, Repr

end Sys2Proof
end

