-- ==== Sys2Proof/WellFormed.lean ====
section
/-! DEFINITION. Which terms of `Instr` are commands of the block: the ARG ranges of 30_encoding.md R84.
The range of BLOCKMIX depends on the instance's `R_MAX`. -/

namespace Sys2Proof

/-- The ARG of the command lies in the range R84 gives for its opcode. -/
def Instr.wellFormed (rMax : Byte) : Instr → Bool
  | .nop => true
  | .shaInit => true
  | .shaUpdate => true
  | .shaFinal n => decide (n.toNat ≤ 63)
  | .hmacKey n => decide (n.toNat ≤ 64)
  | .hmacKeyd => true
  | .hmacInit => true
  | .hmacFinal n => decide (n.toNat ≤ 63)
  | .salsa => true
  | .blockmix r => decide (1 ≤ r.toNat ∧ r.toNat ≤ rMax.toNat)
  | .zeroize => true

end Sys2Proof
end

