-- ==== Sys2Proof/Decode.lean ====
section
/-! DEFINITION. The command word (30_encoding.md R80 to R86): fields, decoder, encoder. The decoder is
total on 32-bit words and rejects by the error code of 60_exceptions.md R216, in the order of R219. -/

namespace Sys2Proof

/-- The error codes 1 to 4 of 60_exceptions.md R216 (code 0, NONE, is the absence of an error). -/
inductive ErrorCode where
  /-- 1: the reserved field is not zero -/
  | illRsvd
  /-- 2: not one of the eleven opcodes -/
  | illOp
  /-- 3: the argument is outside the opcode's range -/
  | illArg
  /-- 4: a write to CMD, MSG, X or BM with BUSY = 1 -/
  | busyWr
  deriving DecidableEq, Repr

/-- `OP = v[7:0]` (R82). -/
def opField (v : Word) : Byte := v.extractLsb' 0 8

/-- `ARG = v[15:8]` (R82). -/
def argField (v : Word) : Byte := v.extractLsb' 8 8

/-- `RSVD = v[31:16]` (R82). -/
def rsvdField (v : Word) : BitVec 16 := v.extractLsb' 16 16

/-- The range of a SHA_FINAL or HMAC_FINAL argument: 0..63 (R84). -/
def finalArgOk (n : Byte) : Bool := decide (n.toNat ≤ 63)

/-- The range of an HMAC_KEY argument: 0..64 (R84). -/
def keyArgOk (n : Byte) : Bool := decide (n.toNat ≤ 64)

/-- The range of a BLOCKMIX argument: 1..R_MAX (R84). -/
def blockArgOk (rMax r : Byte) : Bool := decide (1 ≤ r.toNat ∧ r.toNat ≤ rMax.toNat)

/-- A command whose opcode is known: accepted when its argument is in range, else ILL_ARG (R86). -/
def withArg (ok : Bool) (i : Instr) : Except ErrorCode Instr :=
  if ok then .ok i else .error .illArg

/-- The opcode table of R84 on the two byte fields of a word whose reserved field is zero. -/
def decodeFields (rMax op arg : Byte) : Except ErrorCode Instr :=
  match op with
  | 0x00#8 => withArg (decide (arg = 0)) .nop
  | 0x01#8 => withArg (decide (arg = 0)) .shaInit
  | 0x02#8 => withArg (decide (arg = 0)) .shaUpdate
  | 0x03#8 => withArg (finalArgOk arg) (.shaFinal arg)
  | 0x08#8 => withArg (keyArgOk arg) (.hmacKey arg)
  | 0x09#8 => withArg (decide (arg = 0)) .hmacKeyd
  | 0x0A#8 => withArg (decide (arg = 0)) .hmacInit
  | 0x0B#8 => withArg (finalArgOk arg) (.hmacFinal arg)
  | 0x10#8 => withArg (decide (arg = 0)) .salsa
  | 0x18#8 => withArg (blockArgOk rMax arg) (.blockmix arg)
  | 0x7F#8 => withArg (decide (arg = 0)) .zeroize
  | _ => .error .illOp

/-- Decoding a command word (R83, R219): RSVD first, then OP, then ARG. -/
def decode (rMax : Byte) (v : Word) : Except ErrorCode Instr :=
  if rsvdField v ≠ 0 then .error .illRsvd
  else decodeFields rMax (opField v) (argField v)

/-- The opcode of a command (R84). -/
def opcodeOf : Instr → Byte
  | .nop => 0x00
  | .shaInit => 0x01
  | .shaUpdate => 0x02
  | .shaFinal _ => 0x03
  | .hmacKey _ => 0x08
  | .hmacKeyd => 0x09
  | .hmacInit => 0x0A
  | .hmacFinal _ => 0x0B
  | .salsa => 0x10
  | .blockmix _ => 0x18
  | .zeroize => 0x7F

/-- The argument field of a command: 0 for format Z, the operand for format A (R81). -/
def argOf : Instr → Byte
  | .nop => 0
  | .shaInit => 0
  | .shaUpdate => 0
  | .shaFinal n => n
  | .hmacKey n => n
  | .hmacKeyd => 0
  | .hmacInit => 0
  | .hmacFinal n => n
  | .salsa => 0
  | .blockmix r => r
  | .zeroize => 0

/-- `OP | (arg << 8)` (R85). -/
def commandWord (op arg : Byte) : Word := op.setWidth 32 ||| (arg.setWidth 32 <<< 8)

/-- The encoding function of R85. -/
def encode (i : Instr) : Word := commandWord (opcodeOf i) (argOf i)

/-- The 32-bit command word whose bits are `w` as spec/opcode_table.json numbers them, the bits from
`nbits` up being zero. A command is a register value, so no byte order enters (20_memory.md R53). -/
def tableWord (nbits w : Nat) : Word := BitVec.ofNat 32 (w % 2 ^ nbits)

/-- What the decoder reads from a table word, for an instance with `R_MAX = Config.rMaxReset`. -/
def decodeTableWord (nbits w : Nat) : Option Instr :=
  match decode Config.rMaxReset (tableWord nbits w) with
  | .ok i => some i
  | .error _ => none

end Sys2Proof
end

