-- ==== Sys2Proof/Machine/State.lean ====
section
/-! DEFINITION. The state of one block (10_state.md R20) as plain data, its reset value (R36), and the
reasons a step can stop. -/

namespace Sys2Proof.Machine

/-- `H[0..7]`, eight words (10_state.md R21). The working variables `a..h` of the compression function
(40_sha256.md R105) have the same shape. -/
structure HashState where
  h0 : Word
  h1 : Word
  h2 : Word
  h3 : Word
  h4 : Word
  h5 : Word
  h6 : Word
  h7 : Word
  deriving DecidableEq, Repr

/-- The hidden register PEND: the accepted command's opcode and argument (10_state.md R20, R32). -/
structure Pending where
  op : Byte
  arg : Byte
  deriving DecidableEq, Repr

/-- The events on a block, each atomic (20_memory.md R63). -/
inductive Event where
  /-- `BusRead(off)` by the host (R57) -/
  | read (off : Offset)
  /-- `BusWrite(off, v)` by the host (R61) -/
  | write (off : Offset) (v : Word)
  /-- the engine's completion step (R58) -/
  | completion
  /-- the reset event (70_reset_and_hazards.md R245) -/
  | reset
  deriving DecidableEq, Repr

/-- The byte storage of the window, keyed by offset: MSG, X and BM (20_memory.md R52). An unlisted byte
reads 0, the reset contents of 10_state.md R36. Log 13. -/
abbrev Memory := List Host.Cell

/-- One block: the state of 10_state.md R20, the instance parameter `R_MAX`, and the model's own record of
what the outside does and sees (`events`, `reads`, `draws`; logs 4, 6, 7). -/
structure State where
  /-- `H[0..7]` (R21) -/
  h : HashState
  /-- `LEN`, message bits absorbed (R22) -/
  len : Word64
  /-- `K0[0..63]`, the hidden HMAC key block (R24) -/
  k0 : Vector Byte 64
  /-- MSG, X and BM (R23, R25, R26) at their offsets in the window -/
  mem : Memory
  /-- STATUS.BUSY (R27) -/
  busy : Bool
  /-- STATUS.DONE (R27) -/
  done : Bool
  /-- STATUS.ERR (R27) -/
  err : Bool
  /-- STATUS.ECODE, `none` being code 0 (R27, 60_exceptions.md R216) -/
  ecode : Option ErrorCode
  /-- IRQ_EN.IE_DONE (R28) -/
  ieDone : Bool
  /-- IRQ_EN.IE_ERR (R28) -/
  ieErr : Bool
  /-- PEND (R32) -/
  pend : Option Pending
  /-- the parameter `R_MAX` of this instance (00_scope.md R5); no step writes it (log 1) -/
  rMax : Byte
  /-- the total order of events still to come (20_memory.md R63; log 4) -/
  events : List Event
  /-- the words the port has returned to the host, newest first (log 7) -/
  reads : List Word
  /-- how many draws have been taken (log 6) -/
  draws : Nat
  deriving DecidableEq, Repr

/-- The hash state of eight zero words. -/
def HashState.zero : HashState := ⟨0, 0, 0, 0, 0, 0, 0, 0⟩

/-- The block right after reset (10_state.md R36, 70_reset_and_hazards.md R245), for the instance of log 1,
with no event listed and nothing yet read or drawn (logs 4, 6, 7). -/
def State.reset : State where
  h := HashState.zero
  len := 0
  k0 := Vector.replicate 64 0
  mem := []
  busy := false
  done := false
  err := false
  ecode := none
  ieDone := false
  ieErr := false
  pend := none
  rMax := Config.rMaxReset
  events := []
  reads := []
  draws := 0

/-- Why a step stops with a fault. No command of the block faults (60_exceptions.md R215). -/
inductive Fault where
  /-- Raised by the completion step when BUSY = 1 and PEND is empty or holds no legal command. The spec gives
  such a state no meaning and no run from reset reaches it (`Inv`). Safe. Log 11. -/
  | illegalPending
  deriving DecidableEq, Repr

/-- Why a step is refused. -/
inductive Refusal where
  /-- An instruction without a meaning yet, by its mnemonic; raised by `exec` only. Safe. -/
  | notModelled (mnemonic : String)
  /-- A transaction at an offset that is no multiple of 4, which cannot be presented to the block and which
  20_memory.md R55 tells a model to refuse; raised by the port. Safe. Log 12. -/
  | misalignedOffset
  deriving DecidableEq, Repr

end Sys2Proof.Machine
end

