-- ==== Sys2Proof/Machine/Bytes.lean ====
section
/-! DEFINITION. Byte strings, byte order and word arithmetic (00_scope.md R7, R8, R9). A byte string is a
list of bytes, first byte first. -/

namespace Sys2Proof.Machine

/-- `from_be32` on four bytes, most significant first (R8). -/
def joinBytes (b3 b2 b1 b0 : Byte) : Word := b3 ++ b2 ++ b1 ++ b0

/-- `be32(v)` (R8). -/
def be32 (v : Word) : List Byte :=
  [v.extractLsb' 24 8, v.extractLsb' 16 8, v.extractLsb' 8 8, v.extractLsb' 0 8]

/-- `be64(v)` (R8). -/
def be64 (v : Word64) : List Byte := be32 (v.extractLsb' 32 32) ++ be32 (v.extractLsb' 0 32)

/-- `le32(v)` (R8). -/
def le32 (v : Word) : List Byte :=
  [v.extractLsb' 0 8, v.extractLsb' 8 8, v.extractLsb' 16 8, v.extractLsb' 24 8]

/-- `s[k]`; the rules only ever read inside a string, and a byte outside one is taken as 0 (log 22). -/
def byteAt (s : List Byte) (k : Nat) : Byte := s.getD k 0

/-- `from_be32(s[k..k+3])` (R8). -/
def fromBe32At (s : List Byte) (k : Nat) : Word :=
  joinBytes (byteAt s k) (byteAt s (k + 1)) (byteAt s (k + 2)) (byteAt s (k + 3))

/-- `from_le32(s[k..k+3])` (R8). -/
def fromLe32At (s : List Byte) (k : Nat) : Word :=
  joinBytes (byteAt s (k + 3)) (byteAt s (k + 2)) (byteAt s (k + 1)) (byteAt s k)

/-- `from_le(s)`: the sum of `s[k] * 256^k` (R8). -/
def fromLe : List Byte → Nat
  | [] => 0
  | b :: s => b.toNat + 256 * fromLe s

/-- `c^k`: k copies of a byte (R7). -/
def rep (c : Byte) (k : Nat) : List Byte := List.replicate k c

/-- `a xor b` on byte strings of equal length (R7). -/
def xorBytes (a b : List Byte) : List Byte := List.zipWith (· ^^^ ·) a b

/-- `rotl(a, n)` for `0 < n < 32` (R9). -/
def rotl (a : Word) (n : Nat) : Word := (a <<< n) ||| (a >>> (32 - n))

/-- `rotr(a, n) = rotl(a, 32 - n)` (R9). -/
def rotr (a : Word) (n : Nat) : Word := rotl a (32 - n)

/-- `shr(a, n)`, zeros entering at the top (R9). -/
def shr (a : Word) (n : Nat) : Word := a >>> n

end Sys2Proof.Machine
end

