-- ==== Sys2Proof/Machine/Ops.lean ====
section
/-! DEFINITION. The shared operations: reading and writing the byte storage, the named buffers, raising an
error (the block's exception) and its return, acceptance and completion of a command, a draw, and the
reset event. -/

namespace Sys2Proof.Machine

/-! ### Byte storage -/

/-- The byte at an offset; an unlisted byte is 0 (10_state.md R36). -/
def Memory.read (m : Memory) (a : Nat) : Byte :=
  match m with
  | [] => 0
  | (k, b) :: t => if k = a then b else Memory.read t a

/-- Write one byte, keeping the list sorted and free of zero entries. -/
def Memory.write (m : Memory) (a : Nat) (v : Byte) : Memory :=
  match m with
  | [] => if v = 0 then [] else [(a, v)]
  | (k, b) :: t =>
    if a < k then (if v = 0 then (k, b) :: t else (a, v) :: (k, b) :: t)
    else if a = k then (if v = 0 then t else (a, v) :: t)
    else (k, b) :: Memory.write t a v

/-- All keys are at least `lo`, strictly rising, and no entry is 0. -/
def Memory.wfFrom (lo : Nat) : Memory → Bool
  | [] => true
  | (k, b) :: t => decide (lo ≤ k) && decide (b ≠ 0) && Memory.wfFrom (k + 1) t

/-- The one canonical form of the byte storage: addresses strictly rising, no entry equal to 0. -/
def Memory.wf (m : Memory) : Bool := Memory.wfFrom 0 m

/-- The `n` bytes from an offset on. -/
def Memory.loadBytes (m : Memory) (a n : Nat) : List Byte := (List.range n).map fun k => m.read (a + k)

/-- Store a byte string from an offset on. -/
def Memory.storeBytes (m : Memory) (a : Nat) (s : List Byte) : Memory :=
  match s with
  | [] => m
  | b :: s => Memory.storeBytes (m.write a b) (a + 1) s

/-! ### The buffers of 20_memory.md R52 -/

/-- Offset of `MSG[0]` (R52). -/
def msgBase : Nat := 0x0040

/-- Offset of `X[0]` (R52). -/
def xBase : Nat := 0x00C0

/-- Offset of `BM[0]` (R52). -/
def bmBase : Nat := 0x8000

/-- The size of BM, `128*R_MAX` bytes (10_state.md R26). -/
def bmSize (rMax : Byte) : Nat := 128 * rMax.toNat

/-- `MSG[0..63]` (10_state.md R23). -/
def State.msg (s : State) : List Byte := s.mem.loadBytes msgBase 64

/-- `X[0..63]` (10_state.md R25). -/
def State.x (s : State) : List Byte := s.mem.loadBytes xBase 64

/-- `BM[0..128*R_MAX-1]` (10_state.md R26). -/
def State.bm (s : State) : List Byte := s.mem.loadBytes bmBase (bmSize s.rMax)

/-- `X <- v` for a 64-byte string. -/
def setX (s : State) (v : List Byte) : State := { s with mem := s.mem.storeBytes xBase v }

/-- `BM[0..len-1] <- v`. -/
def setBm (s : State) (v : List Byte) : State := { s with mem := s.mem.storeBytes bmBase v }

/-- `(H, LEN) <- (h, len)`. -/
def setHash (s : State) (h : HashState) (len : Word64) : State := { s with h := h, len := len }

/-- A byte string as the 64 bytes of K0, cut or filled up with zeros to that length (log 22). -/
def toK0 (v : List Byte) : Vector Byte 64 :=
  ⟨((v ++ rep 0 64).take 64).toArray, by simp [rep]⟩

/-- `K0 <- v` for a 64-byte string (10_state.md R24). -/
def setK0 (s : State) (v : List Byte) : State := { s with k0 := toK0 v }

/-! ### Errors, their return, acceptance and completion -/

/-- `raise E(code)` (60_exceptions.md R218): the first error is kept (R217), nothing else changes. This is
the block's whole exception entry (R225). -/
def raiseError (s : State) (code : ErrorCode) : State :=
  if s.err then s else { s with err := true, ecode := some code }

/-- The return (60_exceptions.md R226): a write of `v` to STATUS clears DONE by bit 1, and ERR with ECODE
by bit 2 (10_state.md R27). -/
def writeStatus (s : State) (v : Word) : State :=
  let s := if v.getLsbD 1 then { s with done := false } else s
  if v.getLsbD 2 then { s with err := false, ecode := none } else s

/-- A write of `v` to IRQ_EN (10_state.md R28). -/
def writeIrqEn (s : State) (v : Word) : State :=
  { s with ieDone := v.getLsbD 1, ieErr := v.getLsbD 2 }

/-- Acceptance (20_memory.md R59): PEND is latched, BUSY set, DONE cleared. -/
def accept (s : State) (op arg : Byte) : State :=
  { s with pend := some ⟨op, arg⟩, busy := true, done := false }

/-- The end of the completion step (20_memory.md R58): `BUSY <- 0`, `DONE <- 1`. -/
def complete (s : State) : State := { s with busy := false, done := true }

/-! ### Draws and reset -/

/-- `draw32()` (20_memory.md R60): a fresh free value, and the state with the draw counted. -/
def draw (s : State) : Word × State := (Config.draw32 s.draws, { s with draws := s.draws + 1 })

/-- All data state takes its reset value (10_state.md R36; 44_system.md R183). -/
def clearData (s : State) : State :=
  { s with h := HashState.zero, len := 0, k0 := Vector.replicate 64 0, mem := [] }

/-- The reset event (70_reset_and_hazards.md R245). The parameter and the model's own fields stay (log 8). -/
def resetBlock (s : State) : State :=
  { clearData s with
    busy := false, done := false, err := false, ecode := none
    ieDone := false, ieErr := false, pend := none }

end Sys2Proof.Machine
end

