-- ==== Sys2Proof/Machine/Flags.lean ====
section
/-! DEFINITION. The flags of the block as the port and the interrupt line show them: STATUS (10_state.md
R27), IRQ_EN (R28), `irq` (60_exceptions.md R224). No command computes an arithmetic flag (R9, R27). -/

namespace Sys2Proof.Machine

/-- The number of an error code (60_exceptions.md R216). -/
def errorNumber : ErrorCode → BitVec 4
  | .illRsvd => 1
  | .illOp => 2
  | .illArg => 3
  | .busyWr => 4

/-- The field ECODE as four bits; 0 is NONE (R216). -/
def ecodeBits : Option ErrorCode → BitVec 4
  | none => 0
  | some c => errorNumber c

/-- One flag as a word of value 0 or 1. -/
def bit (b : Bool) : Word := if b then 1 else 0

/-- What a read of STATUS returns: `BUSY | DONE<<1 | ERR<<2 | ECODE<<4` (R27). -/
def statusWord (s : State) : Word :=
  bit s.busy ||| (bit s.done <<< 1) ||| (bit s.err <<< 2) ||| ((ecodeBits s.ecode).setWidth 32 <<< 4)

/-- What a read of IRQ_EN returns: `IE_DONE<<1 | IE_ERR<<2` (R28). -/
def irqEnWord (s : State) : Word := (bit s.ieDone <<< 1) ||| (bit s.ieErr <<< 2)

/-- The interrupt output, a level (60_exceptions.md R224, 10_state.md R34). -/
def State.irq (s : State) : Bool := (s.done && s.ieDone) || (s.err && s.ieErr)

end Sys2Proof.Machine
end

