-- ==== Sys2Proof/Machine/Operands.lean ====
section
/-! DEFINITION. The operand forms (30_encoding.md R82, 10_state.md R37): every data operand is a fixed
buffer, cut by the command's argument. -/

namespace Sys2Proof.Machine

/-- `digest(H)`: the 32 bytes of the eight words, big-endian (10_state.md R21). -/
def digest (h : HashState) : List Byte :=
  be32 h.h0 ++ be32 h.h1 ++ be32 h.h2 ++ be32 h.h3 ++ be32 h.h4 ++ be32 h.h5 ++ be32 h.h6 ++ be32 h.h7

/-- `MSG[0..n-1]`, the operand of a byte-count command (R82, R37). -/
def msgOperand (s : State) (n : Byte) : List Byte := s.msg.take n.toNat

/-- `BM[0..128*r-1]`, the operand of BLOCKMIX r (R82, R37). -/
def bmOperand (s : State) (r : Byte) : List Byte := s.mem.loadBytes bmBase (128 * r.toNat)

/-- A key of at most 64 bytes padded with zeros to 64 (41_hmac.md R130, R133). -/
def padKey (k : List Byte) : List Byte := k ++ rep 0 (64 - k.length)

end Sys2Proof.Machine
end

