-- ==== Sys2Proof/Machine/Salsa.lean ====
section
/-! DEFINITION. The Salsa20/8 core (42_salsa20_8.md R150 to R154) and the meaning of SALSA (R156). -/

namespace Sys2Proof.Machine

/-- The sixteen words of a 64-byte block (R150); word `4*row + col` of the 4x4 matrix. -/
abbrev Matrix := Vector Word 16

/-- `x[i] = from_le32(s[4i..4i+3])` (R150). -/
def toMatrix (s : List Byte) : Matrix := Vector.ofFn fun i => fromLe32At s (4 * i.val)

/-- `le32(x[0]) || ... || le32(x[15])` (R154). -/
def fromMatrix (x : Matrix) : List Byte := x.toList.flatMap le32

/-- One line of the quarter-round: `x[t] <- x[t] xor rotl(x[p] + x[q], n)` (R152). -/
def qrLine (x : Matrix) (t p q : Fin 16) (n : Nat) : Matrix := x.set t (x[t] ^^^ rotl (x[p] + x[q]) n)

/-- The quarter-round `QR(a, b, c, d)` on four word indices (R152). -/
def quarterRound (x : Matrix) (a b c d : Fin 16) : Matrix :=
  let x := qrLine x b a d 7
  let x := qrLine x c b a 9
  let x := qrLine x d c b 13
  qrLine x a d c 18

/-- The column round (R153). -/
def columnRound (x : Matrix) : Matrix :=
  quarterRound (quarterRound (quarterRound (quarterRound x 0 4 8 12) 5 9 13 1) 10 14 2 6) 15 3 7 11

/-- The row round (R153). -/
def rowRound (x : Matrix) : Matrix :=
  quarterRound (quarterRound (quarterRound (quarterRound x 0 1 2 3) 5 6 7 4) 10 11 8 9) 15 12 13 14

/-- The double-round: columns, then rows (R153). -/
def doubleRound (x : Matrix) : Matrix := rowRound (columnRound x)

/-- The eight rounds before the final addition (R154). -/
def eightRounds (x : Matrix) : Matrix := doubleRound (doubleRound (doubleRound (doubleRound x)))

/-- `salsa20_8(s)`: eight rounds, then the addition of the input words (R154). Irreducible, so that
comparing two states never runs the rounds. -/
@[irreducible] def salsa208 (s : List Byte) : List Byte :=
  let x := toMatrix s
  fromMatrix (Vector.zipWith (· + ·) (eightRounds x) x)

/-- SALSA (R156). -/
def execSalsa (s : State) : Host.Outcome State Fault Refusal :=
  .next (complete (setX s (salsa208 s.x)))

end Sys2Proof.Machine
end

