-- ==== Sys2Proof/Machine/BlockMix.lean ====
section
/-! DEFINITION. BlockMix (43_blockmix.md R165 to R167) and the meaning of BLOCKMIX (R168). -/

namespace Sys2Proof.Machine

/-- Sub-block `B_i = B[64i .. 64i+63]` (R165). -/
def subBlock (b : List Byte) (i : Nat) : List Byte := (b.drop (64 * i)).take 64

/-- The outputs `Y_0, Y_1, ...` in the order computed: the accumulator is XORed with each input sub-block
and mixed (R166, R167). -/
def mixOutputs (acc : List Byte) : List (List Byte) → List (List Byte)
  | [] => []
  | b :: bs =>
    let y := salsa208 (xorBytes acc b)
    y :: mixOutputs y bs

/-- `Y_i`. -/
def outputAt (ys : List (List Byte)) (i : Nat) : List Byte := ys.getD i []

/-- `Y_0 || Y_2 || ... || Y_{2r-2} || Y_1 || Y_3 || ... || Y_{2r-1}` (R167). -/
def deinterleave (ys : List (List Byte)) (r : Nat) : List Byte :=
  (List.range r).flatMap (fun i => outputAt ys (2 * i)) ++
  (List.range r).flatMap (fun i => outputAt ys (2 * i + 1))

/-- The outputs `Y_0 .. Y_{2r-1}` of `blockmix(B, r)`; the accumulator starts as the last sub-block (R167). -/
def blockmixOutputs (b : List Byte) (r : Nat) : List (List Byte) :=
  mixOutputs (subBlock b (2 * r - 1)) ((List.range (2 * r)).map (subBlock b))

/-- `blockmix(B, r)`: the output string and the final accumulator (R167). -/
def blockmix (b : List Byte) (r : Nat) : List Byte × List Byte :=
  let ys := blockmixOutputs b r
  (deinterleave ys r, outputAt ys (2 * r - 1))

/-- BLOCKMIX r (R168). An argument out of range is ILL_ARG and computes nothing; the port never accepts one
(log 10). -/
def execBlockmix (r : Byte) (s : State) : Host.Outcome State Fault Refusal :=
  if blockArgOk s.rMax r then
    let out := blockmix (bmOperand s r) r.toNat
    .next (complete (setX (setBm s out.1) out.2))
  else .next (raiseError s .illArg)

end Sys2Proof.Machine
end

