-- ==== Sys2Proof/Machine/Sha256.lean ====
section
/-! DEFINITION. The SHA-256 function (40_sha256.md R100 to R107) and the meanings of SHA_INIT, SHA_UPDATE
and SHA_FINAL (R110, R112, R114). -/

namespace Sys2Proof.Machine

/-- `IV[0..7]` (R101). -/
def iv : HashState where
  h0 := 0x6a09e667
  h1 := 0xbb67ae85
  h2 := 0x3c6ef372
  h3 := 0xa54ff53a
  h4 := 0x510e527f
  h5 := 0x9b05688c
  h6 := 0x1f83d9ab
  h7 := 0x5be0cd19

/-- The round constants `K[0..63]` in order (R102). -/
def roundConstants : List Word :=
  [0x428a2f98, 0x71374491, 0xb5c0fbcf, 0xe9b5dba5, 0x3956c25b, 0x59f111f1, 0x923f82a4, 0xab1c5ed5] ++
  [0xd807aa98, 0x12835b01, 0x243185be, 0x550c7dc3, 0x72be5d74, 0x80deb1fe, 0x9bdc06a7, 0xc19bf174] ++
  [0xe49b69c1, 0xefbe4786, 0x0fc19dc6, 0x240ca1cc, 0x2de92c6f, 0x4a7484aa, 0x5cb0a9dc, 0x76f988da] ++
  [0x983e5152, 0xa831c66d, 0xb00327c8, 0xbf597fc7, 0xc6e00bf3, 0xd5a79147, 0x06ca6351, 0x14292967] ++
  [0x27b70a85, 0x2e1b2138, 0x4d2c6dfc, 0x53380d13, 0x650a7354, 0x766a0abb, 0x81c2c92e, 0x92722c85] ++
  [0xa2bfe8a1, 0xa81a664b, 0xc24b8b70, 0xc76c51a3, 0xd192e819, 0xd6990624, 0xf40e3585, 0x106aa070] ++
  [0x19a4c116, 0x1e376c08, 0x2748774c, 0x34b0bcb5, 0x391c0cb3, 0x4ed8aa4a, 0x5b9cca4f, 0x682e6ff3] ++
  [0x748f82ee, 0x78a5636f, 0x84c87814, 0x8cc70208, 0x90befffa, 0xa4506ceb, 0xbef9a3f7, 0xc67178f2]

/-- `Ch` (R103). -/
def ch (x y z : Word) : Word := (x &&& y) ^^^ (~~~x &&& z)

/-- `Maj` (R103). -/
def maj (x y z : Word) : Word := (x &&& y) ^^^ (x &&& z) ^^^ (y &&& z)

/-- `BSIG0` (R103). -/
def bsig0 (x : Word) : Word := rotr x 2 ^^^ rotr x 13 ^^^ rotr x 22

/-- `BSIG1` (R103). -/
def bsig1 (x : Word) : Word := rotr x 6 ^^^ rotr x 11 ^^^ rotr x 25

/-- `SSIG0`; its last term is a shift (R103). -/
def ssig0 (x : Word) : Word := rotr x 7 ^^^ rotr x 18 ^^^ shr x 3

/-- `SSIG1`; its last term is a shift (R103). -/
def ssig1 (x : Word) : Word := rotr x 17 ^^^ rotr x 19 ^^^ shr x 10

/-- `W[t]` of a schedule known so far. -/
def scheduleAt (w : List Word) (t : Nat) : Word := w.getD t 0

/-- The next schedule word: with `t` words known, `W[t]` from `W[t-2]`, `W[t-7]`, `W[t-15]`, `W[t-16]`
(R104). -/
def nextScheduleWord (w : List Word) : Word :=
  let t := w.length
  ssig1 (scheduleAt w (t - 2)) + scheduleAt w (t - 7) + ssig0 (scheduleAt w (t - 15)) + scheduleAt w (t - 16)

/-- Extend a schedule by `n` words (R104). -/
def extendSchedule : Nat → List Word → List Word
  | 0, w => w
  | n + 1, w => extendSchedule n (w ++ [nextScheduleWord w])

/-- The message schedule `W[0..63]` of a 64-byte block, words taken big-endian (R104). -/
def schedule (blk : List Byte) : List Word :=
  extendSchedule 48 ((List.range 16).map fun t => fromBe32At blk (4 * t))

/-- One round on `(a..h)` with the constant and schedule word of that round (R105). -/
def round (v : HashState) (kt wt : Word) : HashState :=
  let t1 := v.h7 + bsig1 v.h4 + ch v.h4 v.h5 v.h6 + kt + wt
  let t2 := bsig0 v.h0 + maj v.h0 v.h1 v.h2
  ⟨t1 + t2, v.h0, v.h1, v.h2, v.h3 + t1, v.h4, v.h5, v.h6⟩

/-- The rounds in order, one per pair of a constant and a schedule word (R105). -/
def rounds (v : HashState) : List Word → List Word → HashState
  | kt :: ks, wt :: ws => rounds (round v kt wt) ks ws
  | _, _ => v

/-- Word-by-word addition of two hash states (R105, last line). -/
def HashState.add (a b : HashState) : HashState :=
  ⟨a.h0 + b.h0, a.h1 + b.h1, a.h2 + b.h2, a.h3 + b.h3, a.h4 + b.h4, a.h5 + b.h5, a.h6 + b.h6, a.h7 + b.h7⟩

/-- `compress(Hin, blk)` (R105). Irreducible, so that comparing two states never runs the 64 rounds. -/
@[irreducible] def compress (hin : HashState) (blk : List Byte) : HashState :=
  hin.add (rounds hin roundConstants (schedule blk))

/-- The new length of `finalize`: `(len + 8*n) mod 2^64` (R106). -/
def finalLen (len : Word64) (n : Nat) : Word64 := len + BitVec.ofNat 64 (8 * n)

/-- `finalize(Hin, len, s, n)`: padding and the last one or two compressions (R106). -/
def finalize (hin : HashState) (len : Word64) (s : List Byte) (n : Nat) : HashState × Word64 :=
  let l := finalLen len n
  let tail := s.take n ++ [0x80]
  if n ≤ 55 then
    (compress hin (tail ++ rep 0 (55 - n) ++ be64 l), l)
  else
    (compress (compress hin (tail ++ rep 0 (63 - n))) (rep 0 56 ++ be64 l), l)

/-- Compress the first `q` 64-byte blocks of a message (R107). -/
def absorb : Nat → HashState → List Byte → HashState
  | 0, hs, _ => hs
  | q + 1, hs, m => absorb q (compress hs (m.take 64)) (m.drop 64)

/-- The reference function `sha256(m)` (R107). -/
def sha256 (m : List Byte) : List Byte :=
  let q := m.length / 64
  digest (finalize (absorb q iv m) (BitVec.ofNat 64 (512 * q)) (m.drop (64 * q)) (m.length % 64)).1

/-- SHA_INIT (R110). -/
def execShaInit (s : State) : Host.Outcome State Fault Refusal :=
  .next (complete (setHash s iv 0))

/-- SHA_UPDATE (R112). -/
def execShaUpdate (s : State) : Host.Outcome State Fault Refusal :=
  .next (complete (setHash s (compress s.h s.msg) (s.len + 512)))

/-- SHA_FINAL n (R114). An argument out of range is ILL_ARG and computes nothing; the port never accepts
one (log 10). -/
def execShaFinal (n : Byte) (s : State) : Host.Outcome State Fault Refusal :=
  if finalArgOk n then
    let r := finalize s.h s.len (msgOperand s n) n.toNat
    .next (complete (setHash s r.1 r.2))
  else .next (raiseError s .illArg)

end Sys2Proof.Machine
end

