-- ==== Sys2Proof/Machine/Hmac.lean ====
section
/-! DEFINITION. HMAC-SHA256 (41_hmac.md R130 to R132) and the meanings of HMAC_KEY, HMAC_KEYD, HMAC_INIT
and HMAC_FINAL (R133, R135, R137, R139). -/

namespace Sys2Proof.Machine

/-- `ipad`, 64 bytes `0x36` (R131). -/
def ipad : List Byte := rep 0x36 64

/-- `opad`, 64 bytes `0x5c` (R131). -/
def opad : List Byte := rep 0x5c 64

/-- The key block `k0(k)` of a key of any length (R130). -/
def keyBlock (k : List Byte) : List Byte :=
  if k.length ≤ 64 then padKey k else sha256 k ++ rep 0 32

/-- The reference function `hmac(k, m)` (R132). -/
def hmac (k m : List Byte) : List Byte :=
  sha256 (xorBytes (keyBlock k) opad ++ sha256 (xorBytes (keyBlock k) ipad ++ m))

/-- `compress(IV, K0 xor pad)`: the hash state after one pad block (R137, R139). -/
def padState (k0 : Vector Byte 64) (pad : List Byte) : HashState := compress iv (xorBytes k0.toList pad)

/-- The data part of HMAC_FINAL (R139): the inner hash is finished, the outer one run on its digest. -/
def hmacFinalize (h : HashState) (len : Word64) (k0 : Vector Byte 64) (m : List Byte) (n : Nat) :
    HashState × Word64 :=
  let inner := digest (finalize h len m n).1
  finalize (padState k0 opad) 512 inner 32

/-- HMAC_KEY n (R133). An argument out of range is ILL_ARG and loads nothing; the port never accepts one
(log 10). -/
def execHmacKey (n : Byte) (s : State) : Host.Outcome State Fault Refusal :=
  if keyArgOk n then .next (complete (setK0 s (padKey (msgOperand s n))))
  else .next (raiseError s .illArg)

/-- HMAC_KEYD (R135). -/
def execHmacKeyd (s : State) : Host.Outcome State Fault Refusal :=
  .next (complete (setK0 s (digest s.h ++ rep 0 32)))

/-- HMAC_INIT (R137). -/
def execHmacInit (s : State) : Host.Outcome State Fault Refusal :=
  .next (complete (setHash s (padState s.k0 ipad) 512))

/-- HMAC_FINAL n (R139). An argument out of range is ILL_ARG and computes nothing; the port never accepts
one (log 10). -/
def execHmacFinal (n : Byte) (s : State) : Host.Outcome State Fault Refusal :=
  if finalArgOk n then
    let r := hmacFinalize s.h s.len s.k0 (msgOperand s n) n.toNat
    .next (complete (setHash s r.1 r.2))
  else .next (raiseError s .illArg)

end Sys2Proof.Machine
end

