-- ==== Sys2Proof/Machine/System.lean ====
section
/-! DEFINITION. The system commands NOP and ZEROIZE (44_system.md R181, R183). -/

namespace Sys2Proof.Machine

/-- NOP: no data state changes; it completes like every command (R181). -/
def execNop (s : State) : Host.Outcome State Fault Refusal := .next (complete s)

/-- ZEROIZE: all data state takes its reset value; ERR, ECODE and IRQ_EN stay (R183). -/
def execZeroize (s : State) : Host.Outcome State Fault Refusal := .next (complete (clearData s))

end Sys2Proof.Machine
end

