-- ==== Sys2Proof/Machine/Dispatch.lean ====
section
/-! DEFINITION. `exec i s`: the engine's completion step of the command `i` on the state as it stands
(20_memory.md R58), one arm per row of 30_encoding.md R84. Log 3. -/

namespace Sys2Proof.Machine

def exec (i : Instr) (s : State) : Host.Outcome State Fault Refusal :=
  match i with
  | .nop => Sys2Proof.Machine.execNop s
  | .shaInit => Sys2Proof.Machine.execShaInit s
  | .shaUpdate => Sys2Proof.Machine.execShaUpdate s
  | .shaFinal n => Sys2Proof.Machine.execShaFinal n s
  | .hmacKey n => Sys2Proof.Machine.execHmacKey n s
  | .hmacKeyd => Sys2Proof.Machine.execHmacKeyd s
  | .hmacInit => Sys2Proof.Machine.execHmacInit s
  | .hmacFinal n => Sys2Proof.Machine.execHmacFinal n s
  | .salsa => Sys2Proof.Machine.execSalsa s
  | .blockmix r => Sys2Proof.Machine.execBlockmix r s
  | .zeroize => Sys2Proof.Machine.execZeroize s

end Sys2Proof.Machine
end

