-- ==== Sys2Proof/Machine/Port.lean ====
section
/-! DEFINITION. The register port: address map (20_memory.md R52), `BusRead` (R57), `BusWrite` (R61),
presentation of a command (R59), reserved offsets (R62), alignment (R55). -/

namespace Sys2Proof.Machine

/-- What stands at an aligned offset of the window (R52); a buffer carries the index of its first byte. -/
inductive Target where
  | id
  | param
  | status
  | irqEn
  | cmd
  | lenLo
  | lenHi
  | digest (k : Nat)
  | msg (k : Nat)
  | x (k : Nat)
  | bm (k : Nat)
  | reserved
  deriving DecidableEq, Repr

/-- The byte buffers and the reserved offsets of the address map (R52, R57). -/
def bufferAt (rMax : Byte) (off : Nat) : Target :=
  if 0x0020 ≤ off ∧ off ≤ 0x003C then .digest (off - 0x0020)
  else if 0x0040 ≤ off ∧ off ≤ 0x007C then .msg (off - 0x0040)
  else if 0x00C0 ≤ off ∧ off ≤ 0x00FC then .x (off - 0x00C0)
  else if 0x8000 ≤ off ∧ off + 4 ≤ 0x8000 + bmSize rMax then .bm (off - 0x8000)
  else .reserved

/-- The address map (R52, R57). -/
def targetAt (rMax : Byte) (off : Nat) : Target :=
  match off with
  | 0x0000 => .id
  | 0x0004 => .param
  | 0x0008 => .status
  | 0x000C => .irqEn
  | 0x0010 => .cmd
  | 0x0014 => .lenLo
  | 0x0018 => .lenHi
  | _ => bufferAt rMax off

/-- The value of ID (10_state.md R30). -/
def idValue : Word := 0x55420100

/-- The data offsets, whose reads while BUSY = 1 are draws: LEN_LO, LEN_HI, DIGEST, MSG, X, BM (R57). -/
def Target.isData : Target → Bool
  | .id => false
  | .param => false
  | .status => false
  | .irqEn => false
  | .cmd => false
  | .lenLo => true
  | .lenHi => true
  | .digest _ => true
  | .msg _ => true
  | .x _ => true
  | .bm _ => true
  | .reserved => false

/-- The offsets whose writes are dropped while BUSY = 1: CMD, MSG, X, BM (R61). -/
def Target.isGuarded : Target → Bool
  | .id => false
  | .param => false
  | .status => false
  | .irqEn => false
  | .cmd => true
  | .lenLo => false
  | .lenHi => false
  | .digest _ => false
  | .msg _ => true
  | .x _ => true
  | .bm _ => true
  | .reserved => false

/-- The word a target holds (R57, the read of an idle block). -/
def targetWord (s : State) : Target → Word
  | .id => idValue
  | .param => s.rMax.setWidth 32
  | .status => statusWord s
  | .irqEn => irqEnWord s
  | .cmd => 0
  | .lenLo => s.len.extractLsb' 0 32
  | .lenHi => s.len.extractLsb' 32 32
  | .digest k => fromLe32At (digest s.h) k
  | .msg k => fromLe32At (s.mem.loadBytes (msgBase + k) 4) 0
  | .x k => fromLe32At (s.mem.loadBytes (xBase + k) 4) 0
  | .bm k => fromLe32At (s.mem.loadBytes (bmBase + k) 4) 0
  | .reserved => 0

/-- `BusRead(off)` (R57): the word returned, and the state, in which at most the count of draws differs. -/
def busRead (s : State) (off : Offset) : Word × State :=
  let t := targetAt s.rMax off.toNat
  if s.busy && t.isData then draw s else (targetWord s t, s)

/-- Present a command word while BUSY = 0 (R59): an illegal word raises its error and does nothing else,
a legal one is accepted. -/
def presentCommand (s : State) (v : Word) : State :=
  match decode s.rMax v with
  | .error code => raiseError s code
  | .ok _ => accept s (opField v) (argField v)

/-- Store a word in a byte buffer at an offset of the window (20_memory.md R53). -/
def storeWord (s : State) (a : Nat) (v : Word) : State := { s with mem := s.mem.storeBytes a (le32 v) }

/-- A write to a target, whatever BUSY is, once the BUSY check of R61 is past. -/
def writeTarget (s : State) (v : Word) : Target → State
  | .id => s
  | .param => s
  | .status => writeStatus s v
  | .irqEn => writeIrqEn s v
  | .cmd => presentCommand s v
  | .lenLo => s
  | .lenHi => s
  | .digest _ => s
  | .msg k => storeWord s (msgBase + k) v
  | .x k => storeWord s (xBase + k) v
  | .bm k => storeWord s (bmBase + k) v
  | .reserved => s

/-- `BusWrite(off, v)` (R61): a guarded write while BUSY = 1 is dropped with BUSY_WR. -/
def busWrite (s : State) (off : Offset) (v : Word) : State :=
  let t := targetAt s.rMax off.toNat
  if s.busy && t.isGuarded then raiseError s .busyWr else writeTarget s v t

/-- The port carries a word index: only multiples of 4 can be presented (R55). -/
def aligned (off : Offset) : Bool := decide (off.toNat % 4 = 0)

/-- A host read: the word is handed to the host (log 7); a misaligned offset is refused (R55, log 12). -/
def hostRead (s : State) (off : Offset) : Host.Outcome State Fault Refusal :=
  if aligned off then
    let r := busRead s off
    .next { r.2 with reads := r.1 :: s.reads }
  else .refused .misalignedOffset

/-- A host write; a misaligned offset is refused (R55, log 12). -/
def hostWrite (s : State) (off : Offset) (v : Word) : Host.Outcome State Fault Refusal :=
  if aligned off then .next (busWrite s off v) else .refused .misalignedOffset

end Sys2Proof.Machine
end

