-- ==== Sys2Proof/Machine/Engine.lean ====
section
/-! DEFINITION. The engine (20_memory.md R58): it takes the pending command from PEND and completes it.
And where a command word has to stand for the very next step to run it. -/

namespace Sys2Proof.Machine

/-- The command PEND names, if it is one (10_state.md R32). -/
def pendingCommand (s : State) : Option Instr :=
  match s.pend with
  | none => none
  | some p =>
    match decodeFields s.rMax p.op p.arg with
    | .ok i => some i
    | .error _ => none

/-- The engine's turn (R58): enabled exactly when BUSY = 1; an idle engine does nothing (log 5). -/
def engineTurn (s : State) : Host.Outcome State Fault Refusal :=
  if s.busy then
    match pendingCommand s with
    | some i => exec i s
    | none => .fault .illegalPending
  else .next s

/-- One event of the total order (R63). -/
def takeEvent (s : State) : Event → Host.Outcome State Fault Refusal
  | .read off => hostRead s off
  | .write off v => hostWrite s off v
  | .completion => engineTurn s
  | .reset => .next (resetBlock s)

/-- The offset of CMD (R52). -/
def cmdOffset : Offset := 0x0010

/-- `s` with the command word `v` about to run: a legal word stands in PEND, accepted, and the next event is
its completion; an illegal word is about to be written to CMD on an idle block. Log 14. -/
def placeCommand (s : State) (v : Word) : State :=
  match decode s.rMax v with
  | .ok _ => { accept s (opField v) (argField v) with events := .completion :: s.events }
  | .error _ => { s with busy := false, events := .write cmdOffset v :: s.events }

end Sys2Proof.Machine
end

