-- ==== Sys2Proof/Machine/Step.lean ====
section
/-! DEFINITION. One step of the block: the next event of the total order (20_memory.md R63), or, when none is
listed, the completion that weak fairness promises (R58), or nothing at all when the block is idle
(60_exceptions.md R238). Logs 4, 5. -/

namespace Sys2Proof.Machine

def step (s : State) : Host.Outcome State Fault Refusal :=
  match s.events with
  | [] => engineTurn s
  | e :: rest => takeEvent { s with events := rest } e

/-- `s` with a command word stored so that the very next step runs it (log 14). -/
def State.withFetchWord (s : State) (nbits w : Nat) : State := placeCommand s (tableWord nbits w)

end Sys2Proof.Machine
end

