-- ==== Sys2Proof/Machine/HostProcedures.lean ====
section
/-! DEFINITION. The functions the surrounding software computes (45_host_procedures.md): PBKDF2, ROMix,
scrypt and its parameter validation. They are no state or behaviour of the block (00_scope.md R4; log 16). -/

namespace Sys2Proof.Machine

/-- `U_j` and the accumulated `T_i` carried through `n` further iterations (R195). -/
def pbkdf2Iterate (p : List Byte) : Nat → List Byte → List Byte → List Byte
  | 0, _, t => t
  | n + 1, u, t =>
    let u' := hmac p u
    pbkdf2Iterate p n u' (xorBytes t u')

/-- `T_i` of PBKDF2 (R195). -/
def pbkdf2Block (p salt : List Byte) (c i : Nat) : List Byte :=
  let u := hmac p (salt ++ be32 (BitVec.ofNat 32 i))
  pbkdf2Iterate p (c - 1) u u

/-- `pbkdf2(P, S, c, dkLen)` on a valid `dkLen` (R195). -/
def pbkdf2 (p salt : List Byte) (c dkLen : Nat) : List Byte :=
  ((List.range ((dkLen + 31) / 32)).flatMap fun i => pbkdf2Block p salt c (i + 1)).take dkLen

/-- The error taxonomy of the host software (R205). -/
inductive HostError where
  | invalidParameter
  | allocationFailure
  | internalError
  deriving DecidableEq, Repr

/-- The failure of PBKDF2 (R196): `dkLen` not positive, or so large that the block index would not fit `be32`. -/
def validateDkLen (dkLen : Int) : Except HostError Unit :=
  if dkLen ≤ 0 ∨ (2 ^ 32 - 1) * 32 < dkLen then .error .invalidParameter else .ok ()

/-- `pbkdf2(P, S, c, dkLen)` with its failure (R195, R196); it is the only one, whatever `c` is (log 16). -/
def pbkdf2Checked (p salt : List Byte) (c : Nat) (dkLen : Int) : Except HostError (List Byte) :=
  match validateDkLen dkLen with
  | .error e => .error e
  | .ok () => .ok (pbkdf2 p salt c dkLen.toNat)

/-- `integerify(Xs)`: the last 64-byte sub-block as a little-endian integer (R200). -/
def integerify (xs : List Byte) (r : Nat) : Nat := fromLe (subBlock xs (2 * r - 1))

/-- The fill pass (R199): the table `V[0..n-1]` and the state after it. -/
def romixFill (r : Nat) : Nat → List Byte → List (List Byte) × List Byte
  | 0, xs => ([], xs)
  | n + 1, xs =>
    let rest := romixFill r n (blockmix xs r).1
    (xs :: rest.1, rest.2)

/-- The mix pass (R199): `k` iterations over a table for cost `n`. -/
def romixMix (r n : Nat) (v : List (List Byte)) : Nat → List Byte → List Byte
  | 0, xs => xs
  | k + 1, xs => romixMix r n v k (blockmix (xorBytes xs (v.getD (integerify xs r % n) [])) r).1

/-- `romix(B, N, r)` (R199). -/
def romix (b : List Byte) (n r : Nat) : List Byte :=
  let filled := romixFill r n b
  romixMix r n filled.1 n filled.2

/-- `scrypt(passphrase, salt, N, r, p, dkLen)` on valid parameters (R203). -/
def scrypt (pass salt : List Byte) (n r p dkLen : Nat) : List Byte :=
  let b := pbkdf2 pass salt 1 (p * 128 * r)
  let b' := (List.range p).flatMap fun i => romix ((b.drop (i * 128 * r)).take (128 * r)) n r
  pbkdf2 pass b' 1 dkLen

/-- A positive integer that is a power of two. -/
def isPowerOfTwo (n : Nat) : Bool := decide (n ≠ 0) && decide (n &&& (n - 1) = 0)

/-- Parameter validation (R204, R196), before any command and before the table is allocated; `available` is
the memory in bytes the table may take. DESIGN CHOICE (log 25): a set whose table does not fit in addressable memory,
or whose size would overflow, must be rejected, and R204 does not say with which error; here the one bound `available`
stands for both limits and the error is AllocationFailure. -/
def validate (n r p dkLen : Int) (available : Nat) : Except HostError Unit :=
  if n ≤ 1 ∨ r ≤ 0 ∨ p ≤ 0 then .error .invalidParameter
  else if !isPowerOfTwo n.toNat then .error .invalidParameter
  else if 2 ^ 30 ≤ r * p then .error .invalidParameter
  else
    match validateDkLen dkLen with
    | .error e => .error e
    | .ok () => if (available : Int) < 128 * n * r then .error .allocationFailure else .ok ()

/-- The scrypt driver with its validation (R203, R204): no partial output on a failure (R205). -/
def scryptChecked (pass salt : List Byte) (n r p dkLen : Int) (available : Nat) :
    Except HostError (List Byte) :=
  match validate n r p dkLen available with
  | .error e => .error e
  | .ok () => .ok (scrypt pass salt n.toNat r.toNat p.toNat dkLen.toNat)

end Sys2Proof.Machine
end

