-- ==== Sys2Proof/Machine/Script.lean ====
section
/-! DEFINITION. The host script notation (30_encoding.md R88, R89): each statement is the list of events it
puts on the block, and the host sequences of 40_sha256.md R116, 41_hmac.md R141 and
70_reset_and_hazards.md R248 written in it. Each WAIT is given the number of polls that still see BUSY = 1, no
two WAITs of a sequence the same one; the completion falls after them (log 20). -/

namespace Sys2Proof.Machine

/-- The offset `NAME+k` of a byte position in the window. DESIGN CHOICE (log 24): a position past 0xFFFF, which the
spec gives no statement a meaning for, is taken modulo 65536. -/
def offsetAt (a : Nat) : Offset := BitVec.ofNat 16 a

/-- The offset of STATUS (20_memory.md R52). -/
def statusOffset : Offset := 0x0008

/-- The offset of PARAM (20_memory.md R52). -/
def paramBase : Nat := 0x0004

/-- The offset of IRQ_EN (20_memory.md R52). -/
def irqEnOffset : Offset := 0x000C

/-- The offset of `DIGEST[0]` (20_memory.md R52). -/
def digestBase : Nat := 0x0020

/-- `WR off, value` (R88). -/
def wr (off : Offset) (v : Word) : List Event := [.write off v]

/-- `RD off` (R88). -/
def rd (off : Offset) : List Event := [.read off]

/-- `CMD mnemonic [arg]` (R88). -/
def cmd (i : Instr) : List Event := [.write cmdOffset (encode i)]

/-- `WAIT` (R89): `polls` reads of STATUS that see BUSY = 1, the completion, and the read that sees BUSY = 0. -/
def wait (polls : Nat) : List Event :=
  List.replicate polls (.read statusOffset) ++ [.completion, .read statusOffset]

/-- `RUN mnemonic [arg]` (R89). -/
def run (i : Instr) (polls : Nat) : List Event := cmd i ++ wait polls

/-- A byte string padded with zero bytes to a multiple of 4 (R89). -/
def padToWord (s : List Byte) : List Byte := s ++ rep 0 ((4 - s.length % 4) % 4)

/-- `LOAD buf, bytes` (R89): `ceil(L/4)` writes at increasing offsets; past the window's end see log 24. -/
def load (base : Nat) (s : List Byte) : List Event :=
  (List.range ((padToWord s).length / 4)).map fun i =>
    .write (offsetAt (base + 4 * i)) (fromLe32At (padToWord s) (4 * i))

/-- `DUMP buf, L` (R89): the reads; past the window's end see log 24. -/
def dump (base len : Nat) : List Event :=
  (List.range ((len + 3) / 4)).map fun i => .read (offsetAt (base + 4 * i))

/-- `DUMP buf, L` (R89): the byte string the host makes of the last words returned. -/
def dumped (reads : List Word) (len : Nat) : List Byte :=
  ((reads.take ((len + 3) / 4)).reverse.flatMap le32).take len

/-- `CLRERR` (R89). -/
def clrErr : List Event := wr statusOffset 0x00000004

/-- `ACK` (R89). -/
def ack : List Event := wr statusOffset 0x00000002

/-- The message part common to 40_sha256.md R116 and 41_hmac.md R141: full blocks by SHA_UPDATE, the rest by
the command `last n`, and the digest read back. The i-th command waits `polls i` polls, a count of its own. -/
def absorbScript (last : Byte → Instr) (polls : Nat → Nat) (m : List Byte) : List Event :=
  let q := m.length / 64
  (List.range q).flatMap (fun i => load msgBase (subBlock m i) ++ run .shaUpdate (polls i)) ++
  load msgBase (m.drop (64 * q)) ++ run (last (BitVec.ofNat 8 (m.length % 64))) (polls q) ++
  dump digestBase 32

/-- The host sequence of 40_sha256.md R116. -/
def shaScript (polls : Nat → Nat) (m : List Byte) : List Event :=
  run .shaInit (polls 0) ++ absorbScript .shaFinal (fun i => polls (i + 1)) m

/-- The key part of 41_hmac.md R141. The WAIT of HMAC_KEYD has a count of its own, the one after those of
`shaScript` on a key of `q` full blocks, which are `polls 0 .. polls (q + 1)`. -/
def hmacKeyScript (polls : Nat → Nat) (k : List Byte) : List Event :=
  if k.length ≤ 64 then load msgBase k ++ run (.hmacKey (BitVec.ofNat 8 k.length)) (polls 0)
  else shaScript polls k ++ run .hmacKeyd (polls (k.length / 64 + 2))

/-- The message part of 41_hmac.md R141. -/
def hmacScript (polls : Nat → Nat) (m : List Byte) : List Event :=
  run .hmacInit (polls 0) ++ absorbScript .hmacFinal (fun i => polls (i + 1)) m

/-- Taking over a block in an unknown state (70_reset_and_hazards.md R248). `zeroize` is the host's own decision
whether the previous user's data must go, which R248 leaves to it. -/
def takeoverScript (polls : Nat → Nat) (irqEn : Word) (zeroize : Bool) : List Event :=
  wait (polls 0) ++ clrErr ++ ack ++ wr irqEnOffset irqEn ++ (if zeroize then run .zeroize (polls 1) else [])

end Sys2Proof.Machine
end

