-- ==== Sys2Proof/Machine/HostRun.lean ====
section
/-! DEFINITION. A host that plays events on the block and decides by what it reads: the host procedures run
over the block (43_blockmix.md R170; 45_host_procedures.md R197, R202, R203), each of which looks at STATUS.ERR
after its commands (45_host_procedures.md R205, 60_exceptions.md R221, 70_reset_and_hazards.md R257). -/

namespace Sys2Proof.Machine

/-- Play a list of events on a block, one step each. `none`: a fault or a refusal stopped the run. -/
def play (s : State) (es : List Event) : Option State :=
  match Sys2Proof.core.run es.length { s with events := es } with
  | .next t => some t
  | .fault _ => none
  | .refused _ => none

/-- Play a script that ends with `DUMP _, len`, and give the bytes the DUMP returned. -/
def playDump (s : State) (es : List Event) (len : Nat) : Option (List Byte × State) :=
  match play s es with
  | some t => some (dumped t.reads len, t)
  | none => none

/-! ### Procedures: a result or an error of the host software, and the block after it -/

/-- A host procedure run over a block. `none`: a fault or a refusal stopped the run. -/
abbrev HostRun (α : Type) := State → Option (Except HostError α × State)

/-- A result, with no transaction. -/
def succeed {α : Type} (a : α) : HostRun α := fun s => some (.ok a, s)

/-- An error of the host software, with no transaction. -/
def failWith {α : Type} (e : HostError) : HostRun α := fun s => some (.error e, s)

/-- One procedure after another; an error ends the whole, with no output (R205). -/
def HostRun.andThen {α β : Type} (m : HostRun α) (f : α → HostRun β) : HostRun β := fun s =>
  match m s with
  | none => none
  | some (.error e, t) => some (.error e, t)
  | some (.ok a, t) => f a t

/-- Hand on what was read only if STATUS shows ERR = 0; otherwise clear ERR and report InternalError (R205,
60_exceptions.md R221). When the host looks is its own choice (log 23). -/
def handOn {α : Type} (a : α) : HostRun α := fun s =>
  match play s (rd statusOffset) with
  | none => none
  | some t =>
    if (t.reads.headD 0).getLsbD 2 then
      match play t clrErr with
      | none => none
      | some u => some (.error .internalError, u)
    else some (.ok a, t)

/-- The counts a script started on a block takes from those of the whole run: each WAIT of a run makes at least
one read, so no two WAITs of a run share a count (log 20). -/
def pollsFrom (polls : Nat → Nat) (s : State) : Nat → Nat := fun i => polls (s.reads.length + i)

/-- Play a script, then look at STATUS.ERR. -/
def issue (polls : Nat → Nat) (es : (Nat → Nat) → List Event) : HostRun Unit := fun s =>
  match play s (es (pollsFrom polls s)) with
  | none => none
  | some t => handOn () t

/-- Play a script that ends with `DUMP _, len`, look at STATUS.ERR, and hand on the bytes. -/
def ask (polls : Nat → Nat) (es : (Nat → Nat) → List Event) (len : Nat) : HostRun (List Byte) := fun s =>
  match playDump s (es (pollsFrom polls s)) len with
  | none => none
  | some (bs, t) => handOn bs t

/-! ### BlockMix from SALSA commands -/

/-- `LOAD X, b; RUN SALSA; DUMP X, 64` (R170). -/
def hostSalsa (polls : Nat → Nat) (b : List Byte) : HostRun (List Byte) :=
  ask polls (fun w => load xBase b ++ run .salsa (w 0) ++ dump xBase 64) 64

/-- The outputs `Y_i` of BlockMix made from SALSA commands, the XOR being the host's (R170). -/
def hostMixOutputs (polls : Nat → Nat) (acc : List Byte) : List (List Byte) → HostRun (List (List Byte))
  | [] => succeed []
  | b :: bs =>
    (hostSalsa polls (xorBytes acc b)).andThen fun y =>
    (hostMixOutputs polls y bs).andThen fun ys =>
    succeed (y :: ys)

/-- BlockMix for any `r` from SALSA commands and a de-interleave in host memory (R170). -/
def hostBlockmix (polls : Nat → Nat) (b : List Byte) (r : Nat) : HostRun (List Byte) :=
  (hostMixOutputs polls (subBlock b (2 * r - 1)) ((List.range (2 * r)).map (subBlock b))).andThen fun ys =>
  succeed (deinterleave ys r)

/-! ### PBKDF2 -/

/-- `hmac(P, m)` under the loaded key (R197). -/
def hostHmac (polls : Nat → Nat) (m : List Byte) : HostRun (List Byte) :=
  ask polls (fun w => hmacScript w m) 32

/-- The iterations `U_2 .. U_c` (R197). -/
def hostPbkdf2Iterate (polls : Nat → Nat) : Nat → List Byte → List Byte → HostRun (List Byte)
  | 0, _, t => succeed t
  | n + 1, u, t =>
    (hostHmac polls u).andThen fun u' =>
    hostPbkdf2Iterate polls n u' (xorBytes t u')

/-- The blocks `T_i, T_{i+1}, ...`, `k` of them (R197). -/
def hostPbkdf2Blocks (polls : Nat → Nat) (salt : List Byte) (c : Nat) : Nat → Nat → HostRun (List Byte)
  | 0, _ => succeed []
  | k + 1, i =>
    (hostHmac polls (salt ++ be32 (BitVec.ofNat 32 i))).andThen fun u =>
    (hostPbkdf2Iterate polls (c - 1) u u).andThen fun t =>
    (hostPbkdf2Blocks polls salt c k (i + 1)).andThen fun ts =>
    succeed (t ++ ts)

/-- `pbkdf2(P, S, c, dkLen)` over the block (R197): the key is loaded once. An invalid `dkLen` is reported before
any command (R196). -/
def hostPbkdf2 (polls : Nat → Nat) (p salt : List Byte) (c : Nat) (dkLen : Int) : HostRun (List Byte) :=
  match validateDkLen dkLen with
  | .error e => failWith e
  | .ok () =>
    (issue polls fun w => hmacKeyScript w p).andThen fun _ =>
    (hostPbkdf2Blocks polls salt c ((dkLen.toNat + 31) / 32) 1).andThen fun t =>
    succeed (t.take dkLen.toNat)

/-! ### ROMix -/

/-- The fill pass over the block, the state standing in BM (R202). -/
def hostFill (polls : Nat → Nat) (r : Nat) : Nat → HostRun (List (List Byte))
  | 0 => succeed []
  | n + 1 =>
    (ask polls (fun _ => dump bmBase (128 * r)) (128 * r)).andThen fun v =>
    (issue polls fun w => run (.blockmix (BitVec.ofNat 8 r)) (w 0)).andThen fun _ =>
    (hostFill polls r n).andThen fun vs =>
    succeed (v :: vs)

/-- How many bytes of X the host reads for the index: one word suffices for `N <= 2^32` (R200, R202). -/
def indexBytes (n : Nat) : Nat := if n ≤ 2 ^ 32 then 4 else 64

/-- The mix pass over the block: the index is read from X, the XOR is the host's (R202). -/
def hostMix (polls : Nat → Nat) (r n : Nat) (v : List (List Byte)) : Nat → HostRun Unit
  | 0 => succeed ()
  | k + 1 =>
    (ask polls (fun _ => dump xBase (indexBytes n)) (indexBytes n)).andThen fun j =>
    (ask polls (fun _ => dump bmBase (128 * r)) (128 * r)).andThen fun xs =>
    (issue polls fun w => load bmBase (xorBytes xs (v.getD (fromLe j % n) [])) ++
      run (.blockmix (BitVec.ofNat 8 r)) (w 0)).andThen fun _ =>
    hostMix polls r n v k

/-- `romix(B, N, r)` over the block by BLOCKMIX commands, for `r <= R_MAX` (R202). -/
def hostRomixInBm (polls : Nat → Nat) (b : List Byte) (n r : Nat) : HostRun (List Byte) :=
  (issue polls fun _ => load bmBase b).andThen fun _ =>
  (hostFill polls r n).andThen fun v =>
  (hostMix polls r n v n).andThen fun _ =>
  ask polls (fun _ => dump bmBase (128 * r)) (128 * r)

/-- The fill pass by SALSA commands: the table and the state after it, in host memory (R170, R199). -/
def hostFillBySalsa (polls : Nat → Nat) (r : Nat) : Nat → List Byte → HostRun (List (List Byte) × List Byte)
  | 0, xs => succeed ([], xs)
  | n + 1, xs =>
    (hostBlockmix polls xs r).andThen fun ys =>
    (hostFillBySalsa polls r n ys).andThen fun rest =>
    succeed (xs :: rest.1, rest.2)

/-- The mix pass by SALSA commands (R170, R199). -/
def hostMixBySalsa (polls : Nat → Nat) (r n : Nat) (v : List (List Byte)) : Nat → List Byte → HostRun (List Byte)
  | 0, xs => succeed xs
  | k + 1, xs =>
    (hostBlockmix polls (xorBytes xs (v.getD (integerify xs r % n) [])) r).andThen fun ys =>
    hostMixBySalsa polls r n v k ys

/-- `romix(B, N, r)` over the block by SALSA commands, for any `r` (R170, R199). -/
def hostRomixBySalsa (polls : Nat → Nat) (b : List Byte) (n r : Nat) : HostRun (List Byte) :=
  (hostFillBySalsa polls r n b).andThen fun filled =>
  hostMixBySalsa polls r n filled.1 n filled.2

/-- `romix(B, N, r)` over the block: the host reads R_MAX from PARAM (10_state.md R31); with a larger `r` it cannot
use BLOCKMIX and uses SALSA (43_blockmix.md R169). -/
def hostRomix (polls : Nat → Nat) (b : List Byte) (n r : Nat) : HostRun (List Byte) :=
  (ask polls (fun _ => dump paramBase 4) 4).andThen fun param =>
  if r ≤ (byteAt param 0).toNat then hostRomixInBm polls b n r else hostRomixBySalsa polls b n r

/-- The `p` ROMix computations one after the other on one block (R206). -/
def hostRomixAll (polls : Nat → Nat) (b : List Byte) (n r : Nat) : Nat → Nat → HostRun (List Byte)
  | 0, _ => succeed []
  | p + 1, i =>
    (hostRomix polls ((b.drop (i * 128 * r)).take (128 * r)) n r).andThen fun y =>
    (hostRomixAll polls b n r p (i + 1)).andThen fun ys =>
    succeed (y ++ ys)

/-! ### scrypt -/

/-- The driver on valid parameters, ended by ZEROIZE (R203, R207). Its start `WAIT; CLRERR`, as in
70_reset_and_hazards.md R248, keeps a previous user's error from being taken for its own (log 23). -/
def hostScryptValid (polls : Nat → Nat) (pass salt : List Byte) (n r p dkLen : Nat) : HostRun (List Byte) :=
  (issue polls fun w => wait (w 0) ++ clrErr).andThen fun _ =>
  (hostPbkdf2 polls pass salt 1 (p * 128 * r : Nat)).andThen fun b =>
  (hostRomixAll polls b n r p 0).andThen fun b' =>
  (hostPbkdf2 polls pass b' 1 dkLen).andThen fun out =>
  (issue polls fun w => run .zeroize (w 0)).andThen fun _ =>
  succeed out

/-- `scrypt(P, S, N, r, p, dkLen)` over the block: the parameters are checked before any command (R203, R204). -/
def hostScrypt (polls : Nat → Nat) (pass salt : List Byte) (n r p dkLen : Int) (available : Nat) :
    HostRun (List Byte) :=
  match validate n r p dkLen available with
  | .error e => failWith e
  | .ok () => hostScryptValid polls pass salt n.toNat r.toNat p.toNat dkLen.toNat

end Sys2Proof.Machine
end

