-- ==== Sys2Proof/Safety.lean ====
section
/-! DEFINITION. What counts as a good state and a safe run, and the words the statements use: the invariant
of every reachable state, the offsets that are storage, and what a completed command leaves alone. -/

namespace Sys2Proof.Machine

/-- The offsets of the byte storage of an instance: MSG, X and BM (20_memory.md R52). -/
def storageOffset (rMax : Byte) (a : Nat) : Bool :=
  decide (msgBase ≤ a ∧ a < msgBase + 64) || decide (xBase ≤ a ∧ a < xBase + 64) ||
  decide (bmBase ≤ a ∧ a < bmBase + bmSize rMax)

/-- The invariant of every reachable state. -/
structure Inv (s : State) : Prop where
  /-- the storage is in its canonical form -/
  memWf : s.mem.wf = true
  /-- only MSG, X and BM are stored (20_memory.md R52, R62) -/
  memStorage : ∀ c ∈ s.mem, storageOffset s.rMax c.1 = true
  /-- `1 <= R_MAX` (00_scope.md R5) -/
  rMaxPos : s.rMax ≠ 0
  /-- while BUSY = 1, PEND holds a legal command (20_memory.md R59) -/
  busyPending : s.busy = true → (pendingCommand s).isSome = true
  /-- BUSY = 1 and DONE = 1 never hold together (10_state.md R27) -/
  busyNotDone : ¬(s.busy = true ∧ s.done = true)
  /-- ECODE is 0 exactly when ERR = 0 (10_state.md R27) -/
  errCode : s.err = s.ecode.isSome

/-- An event the port can be presented with: its offset, if it has one, is a multiple of 4 (20_memory.md R55). -/
def Event.presentable : Event → Bool
  | .read off => aligned off
  | .write off _ => aligned off
  | .completion => true
  | .reset => true

/-- A transaction of the host at an aligned offset. -/
def Event.isTransaction : Event → Bool
  | .read off => aligned off
  | .write off _ => aligned off
  | .completion => false
  | .reset => false

/-- The event clears ERR: a reset, or a write to STATUS with bit 2 = 1 (60_exceptions.md R217). -/
def Event.clearsError : Event → Bool
  | .read _ => false
  | .write off v => decide (off = statusOffset) && v.getLsbD 2
  | .completion => false
  | .reset => true

/-- Every byte of the storage reads as before. -/
def sameMemory (s t : State) : Prop := ∀ a, t.mem.read a = s.mem.read a

/-- The hash state and the length are as before. -/
def sameHash (s t : State) : Prop := t.h = s.h ∧ t.len = s.len

/-- What no completed command writes: ERR, ECODE, IRQ_EN, PEND, the parameter, and what the outside does
and sees (10_state.md R37). -/
structure SameControl (s t : State) : Prop where
  err : t.err = s.err
  ecode : t.ecode = s.ecode
  ieDone : t.ieDone = s.ieDone
  ieErr : t.ieErr = s.ieErr
  pend : t.pend = s.pend
  rMax : t.rMax = s.rMax
  events : t.events = s.events
  reads : t.reads = s.reads
  draws : t.draws = s.draws

/-- The eleven opcodes of 30_encoding.md R84. -/
def opcodeList : List Byte := [0x00, 0x01, 0x02, 0x03, 0x08, 0x09, 0x0A, 0x0B, 0x10, 0x18, 0x7F]

/-- The argument range of each opcode (30_encoding.md R84): 0 for format Z. -/
def argumentInRange (rMax op arg : Byte) : Bool :=
  if op = 0x03 ∨ op = 0x0B then decide (arg.toNat ≤ 63)
  else if op = 0x08 then decide (arg.toNat ≤ 64)
  else if op = 0x18 then decide (1 ≤ arg.toNat ∧ arg.toNat ≤ rMax.toNat)
  else decide (arg = 0)

/-- A legal command word (30_encoding.md R83). -/
def legalWord (rMax : Byte) (v : Word) : Prop :=
  v.extractLsb' 16 16 = 0 ∧ v.extractLsb' 0 8 ∈ opcodeList ∧
  argumentInRange rMax (v.extractLsb' 0 8) (v.extractLsb' 8 8) = true

/-- The reserved aligned offsets of the window (20_memory.md R52, R62). -/
def reservedOffset (rMax : Byte) (o : Nat) : Prop :=
  o = 0x001C ∨ (0x0080 ≤ o ∧ o ≤ 0x00BC) ∨ (0x0100 ≤ o ∧ o ≤ 0x7FFC) ∨ 0x8000 + 128 * rMax.toNat ≤ o

/-- The aligned offsets of the writable buffers MSG, X and BM (20_memory.md R52). -/
def bufferOffset (rMax : Byte) (o : Nat) : Prop :=
  (0x0040 ≤ o ∧ o ≤ 0x007C) ∨ (0x00C0 ≤ o ∧ o ≤ 0x00FC) ∨ (0x8000 ≤ o ∧ o < 0x8000 + 128 * rMax.toNat)

/-- The aligned data offsets: LEN_LO, LEN_HI, DIGEST, MSG, X and BM (20_memory.md R57). -/
def dataOffset (rMax : Byte) (o : Nat) : Prop :=
  o = 0x0014 ∨ o = 0x0018 ∨ (0x0020 ≤ o ∧ o ≤ 0x003C) ∨ bufferOffset rMax o

/-- Two states that agree on everything but the hidden key block. -/
def agreeExceptK0 (s t : State) : Prop := { s with k0 := t.k0 } = t

/-- The end of a script's run (70_reset_and_hazards.md R249): every event performed, and the block idle. -/
def State.finished (s : State) : Prop := s.events = [] ∧ s.busy = false

/-- A run of `k` steps stops at no fault and no refusal. -/
def safeRun (s : State) (k : Nat) : Prop := ∃ t, Sys2Proof.core.run k s = .next t

end Sys2Proof.Machine
end

