-- ==== Sys2Proof/Certificates/Slice0/Obligations.lean ====
section
/-! DEFINITION. The statements about the block, for the provers. Each docstring names the rule of spec/ it
formalises, or says which choice of the model it rests on. -/

open Sys2Proof Sys2Proof.Machine

/-! ### Encoding -/

/-- Decoding an encoded well-formed command gives it back, for every instance (30_encoding.md R85). -/
def Obligations.DecodeOfEncodeIsIdentity : Prop :=
  ∀ (rMax : Byte) (i : Instr), i.wellFormed rMax = true → decode rMax (encode i) = .ok i

/-- Every word the decoder accepts is the encoding of the one command it gives, which is well-formed
(30_encoding.md R85: every word is exactly one command with one argument, or illegal). -/
def Obligations.EncodeOfDecodeIsIdentity : Prop :=
  ∀ (rMax : Byte) (v : Word) (i : Instr), decode rMax v = .ok i → i.wellFormed rMax = true ∧ encode i = v

/-- 30_encoding.md R83: a word is legal exactly when the reserved field is zero, the opcode is one of the eleven
and the argument is in its range; presented on an idle block a legal word is accepted, any other raises an
error and does nothing else. -/
def Obligations.LegalWordsAreAcceptedOthersOnlyRaise : Prop :=
  (∀ (rMax : Byte) (v : Word), (∃ i, decode rMax v = .ok i) ↔ legalWord rMax v) ∧
  (∀ (s : State) (v : Word), s.busy = false → legalWord s.rMax v →
    busWrite s 0x0010 v =
      { s with pend := some ⟨v.extractLsb' 0 8, v.extractLsb' 8 8⟩, busy := true, done := false }) ∧
  (∀ (s : State) (v : Word), s.busy = false → ¬ legalWord s.rMax v →
    ∃ c : ErrorCode, busWrite s 0x0010 v = if s.err then s else { s with err := true, ecode := some c })

/-- Words written out from 30_encoding.md R84, R85 and 95_test_vectors.md 3.1, decoded (R_MAX = 8). -/
def Obligations.SpecCommandWordsDecode : Prop :=
  decode 8 0x00000000 = .ok .nop ∧ decode 8 0x00000001 = .ok .shaInit ∧
  decode 8 0x00000002 = .ok .shaUpdate ∧ decode 8 0x00000303 = .ok (.shaFinal 3) ∧
  decode 8 0x00003F03 = .ok (.shaFinal 63) ∧ decode 8 0x00004008 = .ok (.hmacKey 64) ∧
  decode 8 0x00000009 = .ok .hmacKeyd ∧ decode 8 0x0000000A = .ok .hmacInit ∧
  decode 8 0x00001C0B = .ok (.hmacFinal 28) ∧ decode 8 0x00000010 = .ok .salsa ∧
  decode 8 0x00000118 = .ok (.blockmix 1) ∧ decode 8 0x00000818 = .ok (.blockmix 8) ∧
  decode 8 0x0000007F = .ok .zeroize

/-- 60_exceptions.md R219: the checks on a write to CMD, in their order; the first that fails gives the code,
and a word that passes all of them is accepted (20_memory.md R59). -/
def Obligations.CommandWriteChecksInOrder : Prop :=
  ∀ (s : State) (v : Word),
    let op := v.extractLsb' 0 8
    let arg := v.extractLsb' 8 8
    busWrite s 0x0010 v =
      if s.busy then raiseError s .busyWr
      else if v.extractLsb' 16 16 ≠ 0 then raiseError s .illRsvd
      else if op ∉ opcodeList then raiseError s .illOp
      else if argumentInRange s.rMax op arg = false then raiseError s .illArg
      else { s with pend := some ⟨op, arg⟩, busy := true, done := false }

/-! ### The commands -/

/-- 44_system.md R181. -/
def Obligations.NopCompletesWithoutEffect : Prop :=
  decode 8 0x00000000 = .ok .nop ∧
  (∀ rMax arg : Byte, arg ≠ 0 → decode rMax (commandWord 0x00 arg) = .error .illArg) ∧
  (∀ rMax : Byte, decode rMax 0x00010000 = .error .illRsvd) ∧
  (∀ s : State, s.busy = false →
    busWrite s 0x0010 0x00000000 = { s with pend := some ⟨0, 0⟩, busy := true, done := false }) ∧
  (∀ s : State, exec .nop s = .next { s with busy := false, done := true }) ∧
  (∀ polls : Nat, ∃ t, play State.reset (cmd .nop ++ wait polls ++ rd 0x0008) = some t ∧
    t.reads.head? = some 0x00000002)

/-- 40_sha256.md R110. -/
def Obligations.ShaInitLoadsTheInitialValue : Prop :=
  (∀ rMax : Byte, decode rMax 0x00000001 = .ok .shaInit) ∧
  (∀ rMax arg : Byte, arg ≠ 0 → decode rMax (commandWord 0x01 arg) = .error .illArg) ∧
  (∀ s : State, exec .shaInit s = .next { s with
    h := ⟨0x6a09e667, 0xbb67ae85, 0x3c6ef372, 0xa54ff53a, 0x510e527f, 0x9b05688c, 0x1f83d9ab, 0x5be0cd19⟩
    len := 0, busy := false, done := true }) ∧
  (∀ (s t : State), exec .shaInit s = .next t →
    (busRead t 0x0020).1 = 0x67e6096a ∧ (busRead t 0x0014).1 = 0)

/-- 40_sha256.md R112. -/
def Obligations.ShaUpdateAbsorbsTheMessageBlock : Prop :=
  (∀ rMax : Byte, decode rMax 0x00000002 = .ok .shaUpdate) ∧
  (∀ rMax arg : Byte, arg ≠ 0 → decode rMax (commandWord 0x02 arg) = .error .illArg) ∧
  (∀ s : State, exec .shaUpdate s = .next { s with
    h := compress s.h (s.mem.loadBytes 0x0040 64), len := s.len + 512, busy := false, done := true }) ∧
  compress HashState.zero (rep 0 64) =
    ⟨0x7ca51614, 0x425c3ba8, 0xce54dd2f, 0xc2020ae7, 0xb6e574d1, 0x98136d0f, 0xae7e26cc, 0xbf0be7a6⟩ ∧
  compress iv (rep 0 64) =
    ⟨0xda5698be, 0x17b9b469, 0x62335799, 0x779fbeca, 0x8ce5d491, 0xc0d26243, 0xbafef9ea, 0x1837a9d8⟩ ∧
  (∀ s t : State, s.len = BitVec.ofNat 64 (2 ^ 64 - 512) → exec .shaUpdate s = .next t → t.len = 0)

/-- 40_sha256.md R114: every argument of its range; an argument of 64 or more is illegal at the CMD write. -/
def Obligations.ShaFinalFinishesTheHash : Prop :=
  (∀ (rMax n : Byte), n.toNat ≤ 63 → decode rMax (commandWord 0x03 n) = .ok (.shaFinal n)) ∧
  (∀ (rMax n : Byte), 64 ≤ n.toNat → decode rMax (commandWord 0x03 n) = .error .illArg) ∧
  (∀ (s : State) (n : Byte), n.toNat ≤ 63 →
    exec (.shaFinal n) s = .next { s with
      h := (finalize s.h s.len (s.mem.loadBytes 0x0040 64) n.toNat).1
      len := s.len + BitVec.ofNat 64 (8 * n.toNat), busy := false, done := true }) ∧
  finalize iv 0 [0x61, 0x62, 0x63] 3 =
    (⟨0xba7816bf, 0x8f01cfea, 0x414140de, 0x5dae2223, 0xb00361a3, 0x96177a9c, 0xb410ff61, 0xf20015ad⟩, 24) ∧
  finalize HashState.zero 0 [] 0 =
    (⟨0x361ab632, 0x2fa9e7a7, 0xbb23818d, 0x839e01bd, 0xdafdf473, 0x05426edd, 0x297aedb9, 0xf6202bae⟩, 0) ∧
  (let again := finalize
      ⟨0xba7816bf, 0x8f01cfea, 0x414140de, 0x5dae2223, 0xb00361a3, 0x96177a9c, 0xb410ff61, 0xf20015ad⟩ 24
      [0x61, 0x62, 0x63] 3;
    again.1.h0 = 0xb13a185d ∧ again.1.h7 = 0x3acce6af ∧ again.2 = 48)

/-- 41_hmac.md R133: every argument of its range; the key bytes, then zeros. -/
def Obligations.HmacKeyLoadsThePaddedKey : Prop :=
  (∀ (rMax n : Byte), n.toNat ≤ 64 → decode rMax (commandWord 0x08 n) = .ok (.hmacKey n)) ∧
  (∀ (rMax n : Byte), 65 ≤ n.toNat → decode rMax (commandWord 0x08 n) = .error .illArg) ∧
  (∀ (s : State) (n : Byte), n.toNat ≤ 64 →
    ∃ k : Vector Byte 64, exec (.hmacKey n) s = .next { s with k0 := k, busy := false, done := true } ∧
      ∀ i : Fin 64, k[i] = if i.val < n.toNat then s.mem.read (0x0040 + i.val) else 0)

/-- 41_hmac.md R135: the digest bytes, then 32 zeros; whatever H holds. -/
def Obligations.HmacKeydLoadsTheDigestAsKey : Prop :=
  (∀ rMax : Byte, decode rMax 0x00000009 = .ok .hmacKeyd) ∧
  (∀ rMax arg : Byte, arg ≠ 0 → decode rMax (commandWord 0x09 arg) = .error .illArg) ∧
  (∀ s : State, ∃ k : Vector Byte 64,
    exec .hmacKeyd s = .next { s with k0 := k, busy := false, done := true } ∧
      k.toList = be32 s.h.h0 ++ be32 s.h.h1 ++ be32 s.h.h2 ++ be32 s.h.h3 ++ be32 s.h.h4 ++ be32 s.h.h5 ++
        be32 s.h.h6 ++ be32 s.h.h7 ++ rep 0 32)

/-- 41_hmac.md R137: the inner pad block is absorbed; K0 is kept. -/
def Obligations.HmacInitAbsorbsTheInnerPad : Prop :=
  (∀ rMax : Byte, decode rMax 0x0000000A = .ok .hmacInit) ∧
  (∀ rMax arg : Byte, arg ≠ 0 → decode rMax (commandWord 0x0A arg) = .error .illArg) ∧
  (∀ s : State, exec .hmacInit s = .next { s with
    h := compress iv (s.k0.toList.map fun b => b ^^^ 0x36), len := 512, busy := false, done := true }) ∧
  (∀ s t : State, s.k0.toList = [0x4a, 0x65, 0x66, 0x65] ++ rep 0 60 → exec .hmacInit s = .next t →
    t.h = ⟨0x655da7fa, 0xcc434b37, 0x5a1cd5cb, 0x0692ee0e, 0xa47a23d3, 0x4c3af449, 0xdba21ae2, 0x78c7500c⟩)

/-- 41_hmac.md R139: the inner hash is finished, the outer one run over its digest; LEN is 768; every argument
of its range. -/
def Obligations.HmacFinalRunsTheOuterHash : Prop :=
  (∀ (rMax n : Byte), n.toNat ≤ 63 → decode rMax (commandWord 0x0B n) = .ok (.hmacFinal n)) ∧
  (∀ (rMax n : Byte), 64 ≤ n.toNat → decode rMax (commandWord 0x0B n) = .error .illArg) ∧
  (∀ (s : State) (n : Byte), n.toNat ≤ 63 →
    let inner := digest (finalize s.h s.len (s.mem.loadBytes 0x0040 64) n.toNat).1
    let outer := compress iv (s.k0.toList.map fun b => b ^^^ 0x5c)
    exec (.hmacFinal n) s = .next { s with
      h := compress outer (inner ++ [0x80] ++ rep 0 23 ++ [0, 0, 0, 0, 0, 0, 0x03, 0x00])
      len := 768, busy := false, done := true }) ∧
  (∀ s t : State,
    s.h = ⟨0x655da7fa, 0xcc434b37, 0x5a1cd5cb, 0x0692ee0e, 0xa47a23d3, 0x4c3af449, 0xdba21ae2, 0x78c7500c⟩ →
    s.len = 512 → s.k0.toList = [0x4a, 0x65, 0x66, 0x65] ++ rep 0 60 →
    s.mem.loadBytes 0x0040 28 = [0x77, 0x68, 0x61, 0x74, 0x20, 0x64, 0x6f, 0x20, 0x79, 0x61, 0x20, 0x77, 0x61, 0x6e, 0x74, 0x20] ++
    [0x66, 0x6f, 0x72, 0x20, 0x6e, 0x6f, 0x74, 0x68, 0x69, 0x6e, 0x67, 0x3f] →
    exec (.hmacFinal 28) s = .next t →
    t.h = ⟨0x5bdcc146, 0xbf60754e, 0x6a042426, 0x089575c7, 0x5a003f08, 0x9d273983, 0x9dec58b9, 0x64ec3843⟩)

/-- 42_salsa20_8.md R156, on every state in which the storage is in its canonical form (as the invariant says):
X becomes salsa20_8(X), every other byte of the window storage and all other state stay. -/
def Obligations.SalsaReplacesX : Prop :=
  (∀ rMax : Byte, decode rMax 0x00000010 = .ok .salsa) ∧
  (∀ rMax arg : Byte, arg ≠ 0 → decode rMax (commandWord 0x10 arg) = .error .illArg) ∧
  (∀ s : State, ∃ m : Memory, exec .salsa s = .next { s with mem := m, busy := false, done := true } ∧
    (∀ a, ¬(0x00C0 ≤ a ∧ a < 0x0100) → m.read a = s.mem.read a) ∧
    (s.mem.wf = true → m.loadBytes 0x00C0 64 = salsa208 (s.mem.loadBytes 0x00C0 64))) ∧
  salsa208 (rep 0 64) = rep 0 64 ∧
  (salsa208 (salsa208 ((List.range 64).map (BitVec.ofNat 8)))).take 8 =
    [0x10, 0xf6, 0xf4, 0x04, 0x05, 0x55, 0x3a, 0x3c] ∧
  (salsa208 (rep 0xff 64)).take 8 = [0xfd, 0x9a, 0xc8, 0x88, 0xe7, 0xd0, 0x8b, 0x48] ∧
  salsa208 (
    [0x7e, 0x87, 0x9a, 0x21, 0x4f, 0x3e, 0xc9, 0x86, 0x7c, 0xa9, 0x40, 0xe6, 0x41, 0x71, 0x8f, 0x26] ++
    [0xba, 0xee, 0x55, 0x5b, 0x8c, 0x61, 0xc1, 0xb5, 0x0d, 0xf8, 0x46, 0x11, 0x6d, 0xcd, 0x3b, 0x1d] ++
    [0xee, 0x24, 0xf3, 0x19, 0xdf, 0x9b, 0x3d, 0x85, 0x14, 0x12, 0x1e, 0x4b, 0x5a, 0xc5, 0xaa, 0x32] ++
    [0x76, 0x02, 0x1d, 0x29, 0x09, 0xc7, 0x48, 0x29, 0xed, 0xeb, 0xc6, 0x8d, 0xb8, 0xb8, 0xc2, 0x5e]) =
    [0xa4, 0x1f, 0x85, 0x9c, 0x66, 0x08, 0xcc, 0x99, 0x3b, 0x81, 0xca, 0xcb, 0x02, 0x0c, 0xef, 0x05] ++
    [0x04, 0x4b, 0x21, 0x81, 0xa2, 0xfd, 0x33, 0x7d, 0xfd, 0x7b, 0x1c, 0x63, 0x96, 0x68, 0x2f, 0x29] ++
    [0xb4, 0x39, 0x31, 0x68, 0xe3, 0xc9, 0xe6, 0xbc, 0xfe, 0x6b, 0xc5, 0xb7, 0xa0, 0x6d, 0x96, 0xba] ++
    [0xe4, 0x24, 0xcc, 0x10, 0x2c, 0x91, 0x74, 0x5c, 0x24, 0xad, 0x67, 0x3d, 0xc7, 0x61, 0x8f, 0x81]

/-- 43_blockmix.md R168, on every state in which the storage is in its canonical form: BM[0..128r-1] becomes the
BlockMix output and X the last accumulator, in one step; bytes of BM beyond 128r and all other state stay. -/
def Obligations.BlockmixMixesTheBuffer : Prop :=
  (∀ (rMax r : Byte), 1 ≤ r.toNat → r.toNat ≤ rMax.toNat →
    decode rMax (commandWord 0x18 r) = .ok (.blockmix r)) ∧
  (∀ (rMax r : Byte), r.toNat = 0 ∨ rMax.toNat < r.toNat →
    decode rMax (commandWord 0x18 r) = .error .illArg) ∧
  (∀ (s : State) (r : Byte), 1 ≤ r.toNat → r.toNat ≤ s.rMax.toNat →
    let out := blockmix (s.mem.loadBytes 0x8000 (128 * r.toNat)) r.toNat
    ∃ m : Memory, exec (.blockmix r) s = .next { s with mem := m, busy := false, done := true } ∧
      (∀ a, ¬(0x00C0 ≤ a ∧ a < 0x0100) → ¬(0x8000 ≤ a ∧ a < 0x8000 + 128 * r.toNat) →
        m.read a = s.mem.read a) ∧
      (s.mem.wf = true → m.loadBytes 0x8000 (128 * r.toNat) = out.1 ∧ m.loadBytes 0x00C0 64 = out.2)) ∧
  (let out := blockmix ((List.range 128).map (BitVec.ofNat 8)) 1;
    out.1.take 16 =
        [0x6c, 0xb2, 0x21, 0x5a, 0xe0, 0xfe, 0xec, 0xea, 0x4f, 0x82, 0x23, 0xb8, 0x37, 0x1a, 0x93, 0x1c] ∧
      (out.1.drop 64).take 16 =
        [0xef, 0xf8, 0x3b, 0xd7, 0x19, 0x72, 0xb8, 0x1a, 0xe6, 0x2f, 0xf5, 0x27, 0x85, 0xba, 0xad, 0xfd] ∧
      out.2 = out.1.drop 64) ∧
  blockmix (rep 0 128) 1 = (rep 0 128, rep 0 64)

/-- 44_system.md R183: all data state is zero; ERR, ECODE, IRQ_EN stay. -/
def Obligations.ZeroizeClearsAllData : Prop :=
  (∀ rMax : Byte, decode rMax 0x0000007F = .ok .zeroize) ∧
  (∀ rMax arg : Byte, arg ≠ 0 → decode rMax (commandWord 0x7F arg) = .error .illArg) ∧
  (∀ s : State, ∃ t, exec .zeroize s = .next t ∧
    t.h = ⟨0, 0, 0, 0, 0, 0, 0, 0⟩ ∧ t.len = 0 ∧ (∀ i : Fin 64, t.k0[i] = 0) ∧ (∀ a, t.mem.read a = 0) ∧
    t.busy = false ∧ t.done = true ∧ SameControl s t)

/-- The MODEL's choice (log 10): a term of `Instr` that is no command of the instance raises ILL_ARG and changes
nothing else; the port never accepts its word. -/
def Obligations.IllFormedTermsOnlyRaise : Prop :=
  ∀ (i : Instr) (s : State), i.wellFormed s.rMax = false → exec i s = .next (raiseError s .illArg)

/-! ### What commands leave alone -/

/-- 10_state.md R37, the columns written: what each accepted command leaves as it was, and that ERR and ECODE are
never written by one; every accepted command clears BUSY and sets DONE at completion. -/
def Obligations.CommandsWriteOnlyTheirRow : Prop :=
  ∀ (i : Instr) (s t : State), i.wellFormed s.rMax = true → exec i s = .next t →
    t.busy = false ∧ t.done = true ∧ SameControl s t ∧
    (i ∈ [.nop, .hmacKeyd, .salsa] ∨ (∃ n, i = .hmacKey n) ∨ (∃ r, i = .blockmix r) → sameHash s t) ∧
    (i ≠ .hmacKeyd → (∀ n, i ≠ .hmacKey n) → i ≠ .zeroize → t.k0 = s.k0) ∧
    (i ≠ .zeroize → ∀ a, 0x0040 ≤ a → a < 0x0080 → t.mem.read a = s.mem.read a) ∧
    (i ≠ .salsa → (∀ r, i ≠ .blockmix r) → i ≠ .zeroize → sameMemory s t) ∧
    (∀ r, i = .blockmix r → ∀ a, 0x8000 + 128 * r.toNat ≤ a → t.mem.read a = s.mem.read a) ∧
    (i = .salsa → ∀ a, 0x8000 ≤ a → t.mem.read a = s.mem.read a)

/-- The frame of the hash commands SHA_INIT, SHA_UPDATE, SHA_FINAL, HMAC_INIT, HMAC_FINAL (10_state.md R37): every
byte of memory, K0, PEND, IRQ_EN and the parameter are as before, and ERR and ECODE too for an argument in range.
What it says of an argument out of range (the last clause) is no rule of the spec but the MODEL's choice, log 10. -/
def Obligations.HashCommandsFrame : Prop :=
  ∀ (n : Byte) (i : Instr) (s t : State),
    i ∈ [Instr.shaInit, Instr.shaUpdate, Instr.shaFinal n, Instr.hmacInit, Instr.hmacFinal n] →
    exec i s = .next t →
    sameMemory s t ∧ t.k0 = s.k0 ∧ t.pend = s.pend ∧ t.ieDone = s.ieDone ∧ t.ieErr = s.ieErr ∧
    t.rMax = s.rMax ∧ t.events = s.events ∧ t.reads = s.reads ∧ t.draws = s.draws ∧
    (i.wellFormed s.rMax = true → t.err = s.err ∧ t.ecode = s.ecode) ∧
    (i.wellFormed s.rMax = false → sameHash s t ∧ t.busy = s.busy ∧ t.done = s.done)

/-- The frame of the key commands HMAC_KEY and HMAC_KEYD (10_state.md R37). What it says of an argument out of range
(the last clause) is no rule of the spec but the MODEL's choice, log 10. -/
def Obligations.KeyCommandsFrame : Prop :=
  ∀ (n : Byte) (i : Instr) (s t : State), i ∈ [Instr.hmacKey n, Instr.hmacKeyd] → exec i s = .next t →
    sameMemory s t ∧ sameHash s t ∧ t.pend = s.pend ∧ t.ieDone = s.ieDone ∧ t.ieErr = s.ieErr ∧
    t.rMax = s.rMax ∧ t.events = s.events ∧ t.reads = s.reads ∧ t.draws = s.draws ∧
    (i.wellFormed s.rMax = true → t.err = s.err ∧ t.ecode = s.ecode) ∧
    (i.wellFormed s.rMax = false → t.k0 = s.k0 ∧ t.busy = s.busy ∧ t.done = s.done)

/-- The frame of the commands that store to memory, SALSA and BLOCKMIX r (10_state.md R37): the stored bytes are the
64 bytes at X and, for BLOCKMIX, the 128r bytes at BM; every other byte reads as before. What it says of an r out of
range (the last clause) is no rule of the spec but the MODEL's choice, log 10. -/
def Obligations.MixCommandsFrame : Prop :=
  (∀ s t : State, exec .salsa s = .next t →
    (∀ a, a < xBase ∨ xBase + 64 ≤ a → t.mem.read a = s.mem.read a) ∧
    sameHash s t ∧ t.k0 = s.k0 ∧ SameControl s t) ∧
  (∀ (r : Byte) (s t : State), exec (.blockmix r) s = .next t →
    (∀ a, a < xBase ∨ xBase + 64 ≤ a → a < bmBase ∨ bmBase + 128 * r.toNat ≤ a →
      t.mem.read a = s.mem.read a) ∧
    sameHash s t ∧ t.k0 = s.k0 ∧
    (Instr.wellFormed s.rMax (.blockmix r) = true → SameControl s t) ∧
    (Instr.wellFormed s.rMax (.blockmix r) = false → sameMemory s t ∧ t.busy = s.busy ∧ t.done = s.done))

/-- 10_state.md R23, R37 (bytes 0..n-1 only): two states that agree on H, LEN, K0 and the first n bytes of MSG
get the same H, LEN and K0 from a byte-count command with argument n, whatever the other bytes of MSG are. -/
def Obligations.StaleMessageBytesAreIgnored : Prop :=
  ∀ (n : Byte) (i : Instr) (s s' t t' : State),
    i ∈ [Instr.shaFinal n, Instr.hmacKey n, Instr.hmacFinal n] →
    i.wellFormed s.rMax = true → s'.rMax = s.rMax → sameHash s s' → s'.k0 = s.k0 →
    (∀ k < n.toNat, s'.mem.read (0x0040 + k) = s.mem.read (0x0040 + k)) →
    exec i s = .next t → exec i s' = .next t' → sameHash t t' ∧ t'.k0 = t.k0

/-- 70_reset_and_hazards.md R252, 10_state.md R25: the old content of X does not enter the result of BLOCKMIX:
two states that agree on the 128r bytes of BM end with the same BM bytes and the same X. -/
def Obligations.BlockmixIgnoresTheOldX : Prop :=
  ∀ (r : Byte) (s s' t t' : State), s.mem.wf = true → s'.mem.wf = true → s'.rMax = s.rMax →
    Instr.wellFormed s.rMax (.blockmix r) = true →
    (∀ k < 128 * r.toNat, s'.mem.read (0x8000 + k) = s.mem.read (0x8000 + k)) →
    exec (.blockmix r) s = .next t → exec (.blockmix r) s' = .next t' →
    (∀ k < 128 * r.toNat, t'.mem.read (0x8000 + k) = t.mem.read (0x8000 + k)) ∧ t'.x = t.x

/-! ### The port -/

/-- 20_memory.md R57: what a read returns, offset by offset; it changes no state (the count of draws is the
model's own, log 6). -/
def Obligations.ReadReturnsTheMappedWord : Prop :=
  ∀ (s : State) (off : Offset), off.toNat % 4 = 0 →
    (off = 0x0000 → busRead s off = (0x55420100, s)) ∧
    (off = 0x0004 → busRead s off = (s.rMax.setWidth 32, s)) ∧
    (off = 0x0008 → busRead s off =
      (bit s.busy ||| (bit s.done <<< 1) ||| (bit s.err <<< 2) ||| ((ecodeBits s.ecode).setWidth 32 <<< 4), s)) ∧
    (off = 0x000C → busRead s off = ((bit s.ieDone <<< 1) ||| (bit s.ieErr <<< 2), s)) ∧
    (off = 0x0010 → busRead s off = (0, s)) ∧
    (s.busy = true → dataOffset s.rMax off.toNat →
      busRead s off = (Config.draw32 s.draws, { s with draws := s.draws + 1 })) ∧
    (s.busy = false → off = 0x0014 → busRead s off = (s.len.extractLsb' 0 32, s)) ∧
    (s.busy = false → off = 0x0018 → busRead s off = (s.len.extractLsb' 32 32, s)) ∧
    (s.busy = false → 0x0020 ≤ off.toNat → off.toNat ≤ 0x003C →
      busRead s off = (fromLe32At (digest s.h) (off.toNat - 0x0020), s)) ∧
    (s.busy = false → bufferOffset s.rMax off.toNat →
      busRead s off = (s.mem.read (off.toNat + 3) ++ s.mem.read (off.toNat + 2) ++
        s.mem.read (off.toNat + 1) ++ s.mem.read off.toNat, s)) ∧
    (reservedOffset s.rMax off.toNat → busRead s off = (0, s))

/-- 20_memory.md R61: what a write does, offset by offset, BUSY or not; what CMD does is R219's statement. -/
def Obligations.WriteDoesWhatTheMapSays : Prop :=
  ∀ (s : State) (off : Offset) (v : Word), off.toNat % 4 = 0 →
    let bytes : List Byte := [v.extractLsb' 0 8, v.extractLsb' 8 8, v.extractLsb' 16 8, v.extractLsb' 24 8]
    (off = 0x0008 → busWrite s off v = { s with
      done := s.done && !v.getLsbD 1, err := s.err && !v.getLsbD 2
      ecode := if v.getLsbD 2 then none else s.ecode }) ∧
    (off = 0x000C → busWrite s off v = { s with ieDone := v.getLsbD 1, ieErr := v.getLsbD 2 }) ∧
    (s.busy = true → off = 0x0010 ∨ bufferOffset s.rMax off.toNat →
      busWrite s off v = if s.err then s else { s with err := true, ecode := some .busyWr }) ∧
    (s.busy = false → off = 0x0010 → busWrite s off v = presentCommand s v) ∧
    (s.busy = false → bufferOffset s.rMax off.toNat →
      busWrite s off v = { s with mem := s.mem.storeBytes off.toNat bytes }) ∧
    (off ≠ 0x0008 → off ≠ 0x000C → off ≠ 0x0010 → ¬ bufferOffset s.rMax off.toNat → busWrite s off v = s)

/-- 20_memory.md R62: reserved offsets read 0 and ignore writes, read-only offsets ignore writes, BUSY or not,
and no error is raised. -/
def Obligations.ReservedAndReadOnlyOffsetsIgnoreWrites : Prop :=
  (∀ (s : State) (off : Offset) (v : Word), off.toNat % 4 = 0 → reservedOffset s.rMax off.toNat →
    busRead s off = (0, s) ∧ busWrite s off v = s) ∧
  (∀ (s : State) (off : Offset) (v : Word), off.toNat % 4 = 0 →
    off = 0x0000 ∨ off = 0x0004 ∨ off = 0x0014 ∨ off = 0x0018 ∨ (0x0020 ≤ off.toNat ∧ off.toNat ≤ 0x003C) →
    busWrite s off v = s)

/-- 20_memory.md R53, R64 item 1, on an idle block whose storage is in canonical form: the word written to a
buffer offset is read back, stored little-endian, and every other byte stays. -/
def Obligations.BufferWordsReadBackLittleEndian : Prop :=
  ∀ (s : State) (off : Offset) (v : Word), off.toNat % 4 = 0 → s.busy = false → s.mem.wf = true →
    bufferOffset s.rMax off.toNat →
    (busRead (busWrite s off v) off).1 = v ∧
    (∀ k < 4, (busWrite s off v).mem.read (off.toNat + k) = v.extractLsb' (8 * k) 8) ∧
    (∀ a, a < off.toNat ∨ off.toNat + 4 ≤ a → (busWrite s off v).mem.read a = s.mem.read a)

/-- 10_state.md R27: the fields of a STATUS read, the W1C write, and that neither BUSY nor ECODE alone is
writable. -/
def Obligations.StatusReadsItsFieldsAndClearsByOnes : Prop :=
  ∀ (s : State) (v : Word),
    ((busRead s 0x0008).1.getLsbD 0 = s.busy ∧ (busRead s 0x0008).1.getLsbD 1 = s.done ∧
      (busRead s 0x0008).1.getLsbD 2 = s.err ∧ (busRead s 0x0008).1.getLsbD 3 = false ∧
      (busRead s 0x0008).1.extractLsb' 4 4 = ecodeBits s.ecode ∧
      (busRead s 0x0008).1.extractLsb' 8 24 = 0 ∧ (busRead s 0x0008).2 = s) ∧
    (ecodeBits s.ecode).toNat ≤ 4 ∧
    (busWrite s 0x0008 v).done = (s.done && !v.getLsbD 1) ∧
    (busWrite s 0x0008 v).err = (s.err && !v.getLsbD 2) ∧
    (v.getLsbD 2 = true → (busWrite s 0x0008 v).ecode = none) ∧
    (v.getLsbD 2 = false → (busWrite s 0x0008 v).ecode = s.ecode) ∧
    (busWrite s 0x0008 v).busy = s.busy

/-- 10_state.md R28. -/
def Obligations.IrqEnStoresItsTwoBits : Prop :=
  ∀ (s : State) (v : Word),
    busWrite s 0x000C v = { s with ieDone := v.getLsbD 1, ieErr := v.getLsbD 2 } ∧
    (busRead (busWrite s 0x000C v) 0x000C).1 = v &&& 0x00000006

/-- 10_state.md R30, R31: ID and PARAM are constants of the instance, BUSY or not, and ignore writes. -/
def Obligations.IdAndParamAreConstants : Prop :=
  ∀ (s : State) (v : Word),
    (busRead s 0x0000).1 = 0x55420100 ∧ (busRead s 0x0004).1.extractLsb' 0 8 = s.rMax ∧
    (busRead s 0x0004).1.extractLsb' 8 24 = 0 ∧ busWrite s 0x0000 v = s ∧ busWrite s 0x0004 v = s

/-- 20_memory.md R55: a misaligned transaction is refused, whatever the rest of the state. -/
def Obligations.MisalignedTransactionsAreRefused : Prop :=
  ∀ (s : State) (off : Offset) (v : Word) (rest : List Event), off.toNat % 4 ≠ 0 →
    step { s with events := .read off :: rest } = .refused .misalignedOffset ∧
    step { s with events := .write off v :: rest } = .refused .misalignedOffset

/-- A transaction at an aligned offset is one step of the block: a write is `BusWrite`, a read is `BusRead` with
the word handed to the host (the record of read words is the model's own, log 7). -/
def Obligations.TransactionsAreSteps : Prop :=
  ∀ (s : State) (off : Offset) (v : Word) (rest : List Event), off.toNat % 4 = 0 →
    step { s with events := .write off v :: rest } = .next (busWrite { s with events := rest } off v) ∧
    step { s with events := .read off :: rest } =
      .next { (busRead { s with events := rest } off).2 with
        reads := (busRead { s with events := rest } off).1 :: s.reads }

/-! ### Errors and the interrupt -/

/-- 60_exceptions.md R218. -/
def Obligations.RaisingAnErrorKeepsTheFirst : Prop :=
  ∀ (s : State) (c : ErrorCode),
    (s.err = false → raiseError s c = { s with err := true, ecode := some c }) ∧
    (s.err = true → raiseError s c = s)

/-- 60_exceptions.md R217: while ERR = 1 a step that is no reset and no STATUS write with bit 2 = 1 leaves ERR and
ECODE; such a STATUS write, or a reset, clears them together; and a legal command is accepted with ERR = 1. -/
def Obligations.ErrorStaysUntilTheHostClearsIt : Prop :=
  (∀ s t : State, step s = .next t → s.err = true →
    (∀ e, s.events.head? = some e → e.clearsError = false) → t.err = true ∧ t.ecode = s.ecode) ∧
  (∀ (s t : State) (e : Event), s.events.head? = some e → e.clearsError = true → step s = .next t →
    t.err = false ∧ t.ecode = none) ∧
  (∀ (s : State) (v : Word), s.busy = false → s.err = true → legalWord s.rMax v →
    (busWrite s 0x0010 v).busy = true ∧ (busWrite s 0x0010 v).err = true ∧
    (busWrite s 0x0010 v).ecode = s.ecode) ∧
  (∀ (s : State) (c : ErrorCode), s.err = true → raiseError s c = s)

/-- 60_exceptions.md R224, 10_state.md R34: `irq` as a function of the state; it is 0 in the reset state and after
a reset. -/
def Obligations.IrqIsTheLevelOfItsSources : Prop :=
  (∀ s : State, s.irq = true ↔ (s.done = true ∧ s.ieDone = true) ∨ (s.err = true ∧ s.ieErr = true)) ∧
  State.reset.irq = false ∧ (∀ s : State, (resetBlock s).irq = false)

/-! ### The engine -/

/-- A step runs the decoded command: with BUSY = 1 and PEND the two low bytes of a word that decodes to `i`, the
step of a completion listed next is `exec i` on the state as it stands (20_memory.md R58). That the step with no event
left is that completion too is the MODEL's choice, log 4 (its form of weak fairness). -/
def Obligations.StepRunsThePendingCommand : Prop :=
  ∀ (s : State) (v : Word) (i : Instr), decode s.rMax v = .ok i → s.busy = true →
    s.pend = some ⟨v.extractLsb' 0 8, v.extractLsb' 8 8⟩ →
    (s.events = [] → step s = exec i s) ∧
    (∀ rest, s.events = .completion :: rest → step s = exec i { s with events := rest })

/-- The choice of logs 4 and 5: an idle block with no event left, or given the engine's turn, does nothing
(60_exceptions.md R238: it does nothing until the next transaction). -/
def Obligations.IdleBlockDoesNothing : Prop :=
  ∀ (s : State) (rest : List Event), s.busy = false →
    step { s with events := [] } = .next { s with events := [] } ∧
    step { s with events := .completion :: rest } = .next { s with events := rest }

/-- `withFetchWord` places a legal word so that the very next step runs it (log 14). -/
def Obligations.FetchWordRunsNext : Prop :=
  ∀ (s : State) (nbits w : Nat) (i : Instr), decode s.rMax (tableWord nbits w) = .ok i →
    ∃ t, step (s.withFetchWord nbits w) = .next t ∧
      exec i { accept s (opcodeOf i) (argOf i) with events := s.events } = .next t

/-- 20_memory.md R58, R61: while BUSY = 1 no host transaction changes the data state, PEND or BUSY. -/
def Obligations.BusyTransactionsKeepTheData : Prop :=
  ∀ (s t : State) (e : Event) (rest : List Event), s.busy = true → s.events = e :: rest →
    e.isTransaction = true → step s = .next t →
    t.h = s.h ∧ t.len = s.len ∧ t.k0 = s.k0 ∧ t.mem = s.mem ∧ t.pend = s.pend ∧ t.busy = true ∧
    t.events = rest

/-- 10_state.md R22, R24, 92_eei_decisions.md D29: no host transaction changes H, LEN or K0, BUSY or not. -/
def Obligations.HostCannotWriteHashOrKey : Prop :=
  ∀ (s t : State) (e : Event) (rest : List Event), s.events = e :: rest → e.isTransaction = true →
    step s = .next t → t.h = s.h ∧ t.len = s.len ∧ t.k0 = s.k0

/-- 20_memory.md R58, 70_reset_and_hazards.md R260: whatever aligned transactions the host makes while a command is
pending, BUSY stays 1 through all of them, the command then completes, and its data result is that of the command on
the data state at acceptance. That it completes at once when no event is left is the MODEL's choice, log 4 (its form of
weak fairness). -/
def Obligations.PendingCommandCompletes : Prop :=
  ∀ (s : State) (i : Instr), s.busy = true → pendingCommand s = some i →
    (∀ e ∈ s.events, e.isTransaction = true) →
    ∃ u t r, Sys2Proof.core.run s.events.length s = .next u ∧ u.busy = true ∧
      Sys2Proof.core.run (s.events.length + 1) s = .next t ∧ t.busy = false ∧ t.done = true ∧
      exec i s = .next r ∧ t.h = r.h ∧ t.len = r.len ∧ t.k0 = r.k0 ∧ t.mem = r.mem

/-- 60_exceptions.md R220, 95_test_vectors.md P4: a buffer write and a completion in either order: before the
completion the write is dropped with BUSY_WR and the result stands; after it the write lands on the result and no
error is raised. -/
def Obligations.WriteAndCompletionInEitherOrder : Prop :=
  ∀ (s r : State) (i : Instr) (off : Offset) (v : Word), s.busy = true → pendingCommand s = some i →
    exec i s = .next r → off.toNat % 4 = 0 → bufferOffset s.rMax off.toNat →
    ∃ a b, play s [.write off v, .completion] = some a ∧ play s [.completion, .write off v] = some b ∧
      a.mem = r.mem ∧ a.err = true ∧ (s.err = false → a.ecode = some .busyWr) ∧
      b.mem = r.mem.storeBytes off.toNat (le32 v) ∧ b.err = s.err ∧ b.ecode = s.ecode ∧
      a.busy = false ∧ a.done = true ∧ b.busy = false ∧ b.done = true ∧ a.h = r.h ∧ b.h = r.h

/-! ### Reset and the invariant -/

/-- 10_state.md R36: the reset values, and what the port then reads; the parameter 8 and the model's own fields are
logs 1, 4, 6, 7 and not stated here. -/
def Obligations.ResetValues : Prop :=
  State.reset.h = ⟨0, 0, 0, 0, 0, 0, 0, 0⟩ ∧ State.reset.len = 0 ∧ (∀ i : Fin 64, State.reset.k0[i] = 0) ∧
  (∀ a, State.reset.mem.read a = 0) ∧ State.reset.busy = false ∧ State.reset.done = false ∧
  State.reset.err = false ∧ State.reset.ecode = none ∧ State.reset.ieDone = false ∧
  State.reset.ieErr = false ∧ State.reset.pend = none ∧ State.reset.irq = false ∧
  (busRead State.reset 0x0000).1 = 0x55420100 ∧
  (busRead State.reset 0x0004).1 = State.reset.rMax.setWidth 32 ∧
  (busRead State.reset 0x0008).1 = 0 ∧
  (∀ off : Offset, dataOffset State.reset.rMax off.toNat → off.toNat % 4 = 0 → (busRead State.reset off).1 = 0)

/-- 70_reset_and_hazards.md R245: the reset event, at any point of the order, from any state; a pending command is
discarded, and no other step but its completion takes it away. -/
def Obligations.ResetEventClearsEverything : Prop :=
  (∀ (s : State) (rest : List Event), ∃ t, step { s with events := .reset :: rest } = .next t ∧
    t.h = ⟨0, 0, 0, 0, 0, 0, 0, 0⟩ ∧ t.len = 0 ∧ (∀ i : Fin 64, t.k0[i] = 0) ∧ (∀ a, t.mem.read a = 0) ∧
    t.busy = false ∧ t.done = false ∧ t.err = false ∧ t.ecode = none ∧ t.ieDone = false ∧ t.ieErr = false ∧
    t.pend = none ∧ t.irq = false ∧ t.rMax = s.rMax ∧ t.events = rest) ∧
  (∀ s t : State, step s = .next t → s.busy = true → t.busy = false →
    s.events.head? = some .reset ∨ (t.done = true ∧ ∃ i, pendingCommand s = some i))

/-- The invariant holds in the reset state. -/
def Obligations.ResetMeetsTheInvariant : Prop := Inv State.reset

/-- Every step keeps the invariant: canonical storage inside MSG, X and BM only, R_MAX at least 1, a legal pending
command while BUSY = 1, never BUSY and DONE together, ECODE 0 exactly when ERR = 0. -/
def Obligations.StepKeepsTheInvariant : Prop :=
  ∀ s t : State, Inv s → step s = .next t → Inv t

/-- 93_implementation_defined.md part 1: every expressible event in every reachable state has an outcome: from a state
of the invariant, a step stops only at a misaligned offset, and a run of any length over presentable events is safe. -/
def Obligations.PresentableEventsAlwaysGoOn : Prop :=
  (∀ s : State, Inv s → (∀ e, s.events.head? = some e → e.presentable = true) → ∃ t, step s = .next t) ∧
  (∀ (s : State) (k : Nat), Inv s → (∀ e ∈ s.events, e.presentable = true) → safeRun s k)

/-- 10_state.md R31, R35: no step changes the instance's R_MAX. -/
def Obligations.ParameterNeverChanges : Prop :=
  ∀ s t : State, step s = .next t → t.rMax = s.rMax

/-- 10_state.md R24, 60_exceptions.md R230: the hidden key block has no read path: two blocks that differ only in K0
stay so, with the same words read, through every step that is not the completion of HMAC_INIT or HMAC_FINAL. Reads of
data offsets while BUSY = 1 are left out: the spec promises nothing of a draw (log 6). -/
def Obligations.HiddenKeyHasNoReadPath : Prop :=
  ∀ s t s' : State, agreeExceptK0 s t →
    (∀ off, s.busy = true → s.events.head? = some (.read off) → ¬ dataOffset s.rMax off.toNat) →
    (s.events.head? = none ∨ s.events.head? = some .completion → s.busy = true →
      pendingCommand s ≠ some .hmacInit ∧ ∀ n, pendingCommand s ≠ some (.hmacFinal n)) →
    step s = .next s' → ∃ t', step t = .next t' ∧ agreeExceptK0 s' t' ∧ t'.reads = s'.reads

/-! ### The units as functions -/

/-- 40_sha256.md R106: `finalize` compresses the tail followed by one byte 0x80, the fewest zero bytes that bring the
length to 56 modulo 64, and the total bit length as eight big-endian bytes. -/
def Obligations.FinalizeCompressesThePaddedTail : Prop :=
  ∀ (h : HashState) (len : Word64) (s : List Byte) (n : Nat), n ≤ 63 → n ≤ s.length →
    let l := len + BitVec.ofNat 64 (8 * n)
    ∃ z : Nat, (n + 1 + z) % 64 = 56 ∧ (∀ y < z, (n + 1 + y) % 64 ≠ 56) ∧
      let padded := s.take n ++ [0x80] ++ rep 0 z ++ be64 l
      (padded.length = if n ≤ 55 then 64 else 128) ∧
      finalize h len s n = (absorb (padded.length / 64) h padded, l)

/-- 41_hmac.md R130: the key block has 64 bytes, a key of at most 64 bytes and the same key with zeros appended up to
64 share it, and so do a longer key and its digest; `hmac` cannot tell them apart. -/
def Obligations.KeyBlocksAreNotInjective : Prop :=
  (∀ k : List Byte, (keyBlock k).length = 64) ∧
  (∀ (k m : List Byte) (z : Nat), k.length + z ≤ 64 → hmac (k ++ rep 0 z) m = hmac k m) ∧
  (∀ k m : List Byte, 64 < k.length → hmac (sha256 k) m = hmac k m)

/-- 42_salsa20_8.md R155, which the spec derives from R152 to R154: zero goes to zero; because of the final addition
the function on 64-byte strings is not injective; the eight rounds before that addition are invertible; and SALSA
keeps nothing between uses: its result depends on the 64 bytes of X alone. -/
def Obligations.SalsaPropertiesHold : Prop :=
  salsa208 (rep 0 64) = rep 0 64 ∧
  (∃ a b : List Byte, a.length = 64 ∧ b.length = 64 ∧ a ≠ b ∧ salsa208 a = salsa208 b) ∧
  Function.Bijective eightRounds ∧
  (∀ s s' t t' : State, s.mem.wf = true → s'.mem.wf = true → s.x = s'.x → exec .salsa s = .next t →
    exec .salsa s' = .next t' → t.x = t'.x)

/-- 43_blockmix.md R167: the outputs Y_i and where they stand in B', counted from 0. -/
def Obligations.BlockmixPlacesItsOutputs : Prop :=
  ∀ (b : List Byte) (r : Nat), 1 ≤ r → b.length = 128 * r →
    let ys := blockmixOutputs b r
    let y := fun i => outputAt ys i
    let out := blockmix b r
    y 0 = salsa208 (xorBytes (subBlock b (2 * r - 1)) (subBlock b 0)) ∧
    (∀ i, i + 1 < 2 * r → y (i + 1) = salsa208 (xorBytes (y i) (subBlock b (i + 1)))) ∧
    out.1.length = 128 * r ∧
    (∀ i < r, subBlock out.1 i = y (2 * i) ∧ subBlock out.1 (r + i) = y (2 * i + 1)) ∧
    out.2 = y (2 * r - 1) ∧ subBlock out.1 (2 * r - 1) = out.2

/-! ### Host sequences over the block -/

/-- 40_sha256.md R116, from any idle state of the invariant and for any number of polls at each WAIT: the host sequence
returns `sha256(m)` and leaves LEN = 8*len(m). -/
def Obligations.ShaSequenceReturnsSha256 : Prop :=
  ∀ (s : State) (m : List Byte) (polls : Nat → Nat), Inv s → s.busy = false → 8 * m.length < 2 ^ 64 →
    ∃ t, playDump s (shaScript polls m) 32 = some (sha256 m, t) ∧
      t.len = BitVec.ofNat 64 (8 * m.length) ∧ t.finished

/-- 41_hmac.md R141, from any idle state of the invariant: the key once, then a message under it, returns `hmac(k, m)`;
K0 survives. Every WAIT has its own number of polls. -/
def Obligations.HmacSequenceReturnsHmac : Prop :=
  ∀ (s : State) (k m : List Byte) (polls polls' : Nat → Nat), Inv s → s.busy = false →
    8 * k.length < 2 ^ 64 → 8 * (64 + m.length) < 2 ^ 64 →
    ∃ t u, play s (hmacKeyScript polls k) = some t ∧ t.k0.toList = keyBlock k ∧
      playDump t (hmacScript polls' m) 32 = some (hmac k m, u) ∧ u.len = 768 ∧ u.k0 = t.k0 ∧ u.finished

/-- 43_blockmix.md R170, from any idle state of the invariant: BlockMix built from SALSA commands gives the output of
`blockmix`, and so does the BLOCKMIX command when r fits the buffer. A host procedure that finds ERR = 1 reports
InternalError instead (60_exceptions.md R221; when it looks is the MODEL's choice, log 23). -/
def Obligations.BlockmixFromSalsaCommands : Prop :=
  ∀ (s : State) (b : List Byte) (r : Nat), Inv s → s.busy = false → 1 ≤ r → b.length = 128 * r →
    (∀ polls : Nat → Nat, s.err = false → ∃ t, hostBlockmix polls b r s = some (.ok (blockmix b r).1, t)) ∧
    (∀ polls : Nat → Nat, s.err = true →
      ∃ t, hostBlockmix polls b r s = some (.error .internalError, t) ∧ t.err = false ∧ t.ecode = none) ∧
    (∀ polls : Nat, r ≤ s.rMax.toNat → ∃ t,
      playDump s (load bmBase b ++ run (.blockmix (BitVec.ofNat 8 r)) polls ++ dump bmBase (128 * r)) (128 * r) =
        some ((blockmix b r).1, t))

/-- 45_host_procedures.md R196, R197, R205, 60_exceptions.md R221, from any idle state of the invariant: an invalid
dkLen is InvalidParameter with the block untouched; otherwise PBKDF2 over the block, the password loaded once as the
key, gives `pbkdf2`, and if the host finds ERR = 1 it clears it and reports InternalError, with no output. An ERR that
was 1 before is found too; when the host looks is the MODEL's choice, log 23. The largest dkLen is what R196 marks as
general knowledge (log 16). The bounds on pw and salt are those under which SHA-256 is defined. -/
def Obligations.PbkdfOverTheBlock : Prop :=
  ∀ (s : State) (pw salt : List Byte) (c : Nat) (dkLen : Int) (polls : Nat → Nat), Inv s → s.busy = false →
    8 * pw.length < 2 ^ 64 → 8 * (64 + salt.length + 4) < 2 ^ 64 →
    (dkLen ≤ 0 ∨ (2 ^ 32 - 1) * 32 < dkLen →
      pbkdf2Checked pw salt c dkLen = .error .invalidParameter ∧
      hostPbkdf2 polls pw salt c dkLen s = some (.error .invalidParameter, s)) ∧
    (0 < dkLen → dkLen ≤ (2 ^ 32 - 1) * 32 → s.err = false →
      ∃ t, hostPbkdf2 polls pw salt c dkLen s = some (.ok (pbkdf2 pw salt c dkLen.toNat), t) ∧
        pbkdf2Checked pw salt c dkLen = .ok (pbkdf2 pw salt c dkLen.toNat) ∧
        t.k0.toList = keyBlock pw ∧ t.err = false) ∧
    (0 < dkLen → dkLen ≤ (2 ^ 32 - 1) * 32 → s.err = true →
      ∃ t, hostPbkdf2 polls pw salt c dkLen s = some (.error .internalError, t) ∧ t.err = false ∧ t.ecode = none)

/-- 45_host_procedures.md R202 and, for an r above R_MAX, 43_blockmix.md R169, R170, from any idle state of the
invariant, for any r of at least 1 and N any power of two: ROMix over the block gives `romix`, or InternalError if the
host finds ERR = 1 (60_exceptions.md R221; when it looks is the MODEL's choice, log 23). -/
def Obligations.RomixOverTheBlock : Prop :=
  ∀ (s : State) (b : List Byte) (k r : Nat) (polls : Nat → Nat), Inv s → s.busy = false → 1 ≤ r →
    b.length = 128 * r →
    (s.err = false → ∃ t, hostRomix polls b (2 ^ k) r s = some (.ok (romix b (2 ^ k) r), t) ∧ t.err = false) ∧
    (s.err = true →
      ∃ t, hostRomix polls b (2 ^ k) r s = some (.error .internalError, t) ∧ t.err = false ∧ t.ecode = none)

/-- 45_host_procedures.md R203, R204, R205, R207, from any state of the invariant, BUSY or not, ERR or not: scrypt
over the block gives what the checked driver gives. On a parameter error no transaction is made; otherwise the derived
key is handed on and the ZEROIZE at its end leaves no secret behind. The procedure's WAIT and CLRERR at its start are
the MODEL's choice, log 23, and so is AllocationFailure for a table too large to address, log 25; the bounds on pw and salt are those under which SHA-256 is defined. -/
def Obligations.ScryptOverTheBlock : Prop :=
  ∀ (s : State) (pw salt : List Byte) (n r p dkLen : Int) (available : Nat) (polls : Nat → Nat), Inv s →
    8 * pw.length < 2 ^ 64 → 8 * (64 + salt.length + 4) < 2 ^ 64 →
    ∃ t, hostScrypt polls pw salt n r p dkLen available s =
        some (scryptChecked pw salt n r p dkLen available, t) ∧
      (validate n r p dkLen available ≠ .ok () → t = s) ∧
      (validate n r p dkLen available = .ok () →
        scryptChecked pw salt n r p dkLen available = .ok (scrypt pw salt n.toNat r.toNat p.toNat dkLen.toNat) ∧
        t.busy = false ∧ t.err = false ∧
        t.h = HashState.zero ∧ t.len = 0 ∧ (∀ i : Fin 64, t.k0[i] = 0) ∧ (∀ a, t.mem.read a = 0))

/-- 70_reset_and_hazards.md R248: the takeover sequence, from any state of the invariant, a command pending or not,
leaves an idle block with no error and the enables the host wants. Whether ZEROIZE ends it is the host's decision: if
it does, all data is zero; if not, the data is that of the command that was pending, completed, or what it was. -/
def Obligations.TakeoverLeavesACleanBlock : Prop :=
  ∀ (s : State) (polls : Nat → Nat) (irqEn : Word) (zeroize : Bool), Inv s →
    ∃ t, play s (takeoverScript polls irqEn zeroize) = some t ∧ t.busy = false ∧ t.done = zeroize ∧ t.err = false ∧
      t.ecode = none ∧ t.ieDone = irqEn.getLsbD 1 ∧ t.ieErr = irqEn.getLsbD 2 ∧
      (zeroize = true →
        t.h = ⟨0, 0, 0, 0, 0, 0, 0, 0⟩ ∧ t.len = 0 ∧ (∀ i : Fin 64, t.k0[i] = 0) ∧ (∀ a, t.mem.read a = 0)) ∧
      (zeroize = false → s.busy = false → t.h = s.h ∧ t.len = s.len ∧ t.k0 = s.k0 ∧ t.mem = s.mem) ∧
      (zeroize = false → s.busy = true → ∃ i r, pendingCommand s = some i ∧ exec i s = .next r ∧
        t.h = r.h ∧ t.len = r.len ∧ t.k0 = r.k0 ∧ t.mem = r.mem)
end

