-- ==== Sys2Proof/Laws/Bytes.lean ====
section
/-! SUPPORT. Lengths of the byte strings the units make, and byte order there and back. -/

namespace Sys2Proof.Machine

@[simp] theorem length_be32 (v : Word) : (be32 v).length = 4 := rfl
@[simp] theorem length_le32 (v : Word) : (le32 v).length = 4 := rfl
@[simp] theorem length_be64 (v : Word64) : (be64 v).length = 8 := rfl
@[simp] theorem length_digest (h : HashState) : (digest h).length = 32 := rfl
@[simp] theorem length_rep (c : Byte) (k : Nat) : (rep c k).length = k := by simp [rep]
@[simp] theorem length_ipad : ipad.length = 64 := by simp [ipad]
@[simp] theorem length_opad : opad.length = 64 := by simp [opad]
@[simp] theorem length_xorBytes (a b : List Byte) : (xorBytes a b).length = min a.length b.length := by
  simp [xorBytes]

theorem length_padKey (k : List Byte) (h : k.length ≤ 64) : (padKey k).length = 64 := by
  simp [padKey]; omega

theorem getElem_joinBytes (a b c d : Byte) (i : Nat) (hi : i < 32) :
    (joinBytes a b c d).getLsbD i =
      if i < 8 then d.getLsbD i else if i < 16 then c.getLsbD (i - 8)
      else if i < 24 then b.getLsbD (i - 16) else a.getLsbD (i - 24) := by
  simp only [joinBytes, BitVec.getLsbD_append]
  have h1 : i - 8 - 8 = i - 16 := by omega
  have h2 : i - 16 - 8 = i - 24 := by omega
  by_cases h8 : i < 8
  · simp [h8]
  · by_cases h16 : i < 16
    · simp [h8, h16, show i - 8 < 8 by omega]
    · by_cases h24 : i < 24
      · simp [h8, h16, h24, h1, show ¬ i - 8 < 8 by omega, show i - 16 < 8 by omega]
      · simp [h8, h16, h24, h1, h2, show ¬ i - 8 < 8 by omega, show ¬ i - 16 < 8 by omega]

theorem joinBytes_split (v : Word) :
    joinBytes (v.extractLsb' 24 8) (v.extractLsb' 16 8) (v.extractLsb' 8 8) (v.extractLsb' 0 8) = v := by
  apply BitVec.eq_of_getLsbD_eq
  intro i hi
  rw [getElem_joinBytes _ _ _ _ i hi]
  simp only [BitVec.getLsbD_extractLsb']
  split
  · next h => simp [h]
  · next h8 =>
    split
    · next h => simp [show i - 8 < 8 by omega, show 8 + (i - 8) = i by omega]
    · next h16 =>
      split
      · next h => simp [show i - 16 < 8 by omega, show 16 + (i - 16) = i by omega]
      · next h24 => simp [show i - 24 < 8 by omega, show 24 + (i - 24) = i by omega]

/-- Reading back a word stored little-endian. -/
@[simp] theorem fromLe32At_le32 (v : Word) : fromLe32At (le32 v) 0 = v := joinBytes_split v

/-- Reading back a word stored big-endian. -/
@[simp] theorem fromBe32At_be32 (v : Word) : fromBe32At (be32 v) 0 = v := joinBytes_split v

theorem extract_joinBytes (a b c d : Byte) :
    (joinBytes a b c d).extractLsb' 0 8 = d ∧ (joinBytes a b c d).extractLsb' 8 8 = c ∧
    (joinBytes a b c d).extractLsb' 16 8 = b ∧ (joinBytes a b c d).extractLsb' 24 8 = a := by
  refine ⟨?_, ?_, ?_, ?_⟩ <;>
  · apply BitVec.eq_of_getLsbD_eq
    intro i hi
    simp only [BitVec.getLsbD_extractLsb', hi, decide_true, Bool.true_and]
    rw [getElem_joinBytes _ _ _ _ _ (by omega)]
    grind

/-- The four bytes of a word read little-endian are the bytes it was read from. -/
theorem le32_joinBytes (a b c d : Byte) : le32 (joinBytes a b c d) = [d, c, b, a] := by
  obtain ⟨h0, h1, h2, h3⟩ := extract_joinBytes a b c d
  simp [le32, h0, h1, h2, h3]

@[simp] theorem length_fromMatrix (x : Matrix) : (fromMatrix x).length = 64 := by
  simp [fromMatrix, List.length_flatMap]

@[simp] theorem length_salsa208 (s : List Byte) : (salsa208 s).length = 64 := by
  simp [salsa208]

@[simp] theorem length_mixOutputs (acc : List Byte) (bs : List (List Byte)) :
    (mixOutputs acc bs).length = bs.length := by
  induction bs generalizing acc with
  | nil => rfl
  | cons b bs ih => simp [mixOutputs, ih]

theorem length_mem_mixOutputs (acc : List Byte) (bs : List (List Byte)) (y : List Byte)
    (h : y ∈ mixOutputs acc bs) : y.length = 64 := by
  induction bs generalizing acc with
  | nil => simp [mixOutputs] at h
  | cons b bs ih =>
    simp only [mixOutputs, List.mem_cons] at h
    rcases h with h | h
    · simp [h]
    · exact ih _ h

@[simp] theorem length_blockmixOutputs (b : List Byte) (r : Nat) : (blockmixOutputs b r).length = 2 * r := by
  simp [blockmixOutputs]

theorem length_outputAt (b : List Byte) (r i : Nat) (h : i < 2 * r) :
    (outputAt (blockmixOutputs b r) i).length = 64 := by
  have hi : i < (blockmixOutputs b r).length := by simp [h]
  simp only [outputAt, List.getD, List.getElem?_eq_getElem hi, Option.getD_some]
  exact length_mem_mixOutputs _ _ _ (List.getElem_mem hi)

theorem length_flatMap_const (r n : Nat) (f : Nat → List Byte) (h : ∀ i < r, (f i).length = n) :
    ((List.range r).flatMap f).length = r * n := by
  induction r with
  | zero => simp
  | succ r ih =>
    rw [List.range_succ, List.flatMap_append, List.length_append, ih fun i hi => h i (by omega)]
    simp [h r (by omega)]
    ring

theorem length_deinterleave (b : List Byte) (r : Nat) :
    (deinterleave (blockmixOutputs b r) r).length = 128 * r := by
  rw [deinterleave, List.length_append,
    length_flatMap_const r 64 _ fun i hi => length_outputAt b r (2 * i) (by omega),
    length_flatMap_const r 64 _ fun i hi => length_outputAt b r (2 * i + 1) (by omega)]
  ring

theorem length_blockmix_fst (b : List Byte) (r : Nat) : (blockmix b r).1.length = 128 * r :=
  length_deinterleave b r

theorem length_blockmix_snd (b : List Byte) (r : Nat) (h : 1 ≤ r) : (blockmix b r).2.length = 64 :=
  length_outputAt b r (2 * r - 1) (by omega)

theorem toList_toK0 (v : List Byte) (h : v.length = 64) : (toK0 v).toList = v := by
  show (((v ++ rep 0 64).take 64).toArray).toList = v
  simp [← h]

end Sys2Proof.Machine
end

