-- ==== Sys2Proof/Laws/Decode.lean ====
section
/-! SUPPORT. The fields of an encoded word, and the checks of decoder and `WellFormed` compared. -/

namespace Sys2Proof

theorem getLsbD_commandWord (op arg : Byte) (i : Nat) (hi : i < 32) :
    (commandWord op arg).getLsbD i =
      if i < 8 then op.getLsbD i else if i < 16 then arg.getLsbD (i - 8) else false := by
  simp only [commandWord, BitVec.getLsbD_or, BitVec.getLsbD_setWidth, BitVec.getLsbD_shiftLeft, hi]
  by_cases h8 : i < 8
  · simp [h8]
  · by_cases h16 : i < 16
    · simp [h8, h16, BitVec.getLsbD_of_ge op i (by omega), show i - 8 < 32 by omega]
    · simp [h8, h16, BitVec.getLsbD_of_ge op i (by omega), BitVec.getLsbD_of_ge arg (i - 8) (by omega)]

@[simp] theorem opField_commandWord (op arg : Byte) : opField (commandWord op arg) = op := by
  apply BitVec.eq_of_getLsbD_eq
  intro i hi
  simp only [opField, BitVec.getLsbD_extractLsb', hi, decide_true, Bool.true_and]
  rw [getLsbD_commandWord _ _ _ (by omega)]
  simp [hi]

@[simp] theorem argField_commandWord (op arg : Byte) : argField (commandWord op arg) = arg := by
  apply BitVec.eq_of_getLsbD_eq
  intro i hi
  simp only [argField, BitVec.getLsbD_extractLsb', hi, decide_true, Bool.true_and]
  rw [getLsbD_commandWord _ _ _ (by omega)]
  simp [show 8 + i < 16 by omega, show ¬ 8 + i < 8 by omega]

@[simp] theorem rsvdField_commandWord (op arg : Byte) : rsvdField (commandWord op arg) = 0 := by
  apply BitVec.eq_of_getLsbD_eq
  intro i hi
  simp only [rsvdField, BitVec.getLsbD_extractLsb', hi, decide_true, Bool.true_and]
  rw [getLsbD_commandWord _ _ _ (by omega)]
  simp [show ¬ 16 + i < 16 by omega, show ¬ 16 + i < 8 by omega]

/-- A word with a zero reserved field is made of its two byte fields. -/
theorem commandWord_fields (v : Word) (h : rsvdField v = 0) : commandWord (opField v) (argField v) = v := by
  apply BitVec.eq_of_getLsbD_eq
  intro i hi
  rw [getLsbD_commandWord _ _ _ hi]
  simp only [opField, argField, BitVec.getLsbD_extractLsb']
  by_cases h8 : i < 8
  · simp [h8]
  · by_cases h16 : i < 16
    · simp [h8, h16, show i - 8 < 8 by omega, show 8 + (i - 8) = i by omega]
    · simp only [h8, h16, if_false]
      have := congrArg (fun x => x.getLsbD (i - 16)) h
      simp only [rsvdField, BitVec.getLsbD_extractLsb', show i - 16 < 16 by omega, decide_true,
        Bool.true_and, show 16 + (i - 16) = i by omega] at this
      simpa using this.symm

theorem withArg_eq_ok (ok : Bool) (i j : Instr) : withArg ok i = .ok j ↔ ok = true ∧ i = j := by
  cases ok <;> simp [withArg]

theorem withArg_eq_error (ok : Bool) (i : Instr) (c : ErrorCode) :
    withArg ok i = .error c ↔ ok = false ∧ c = .illArg := by
  cases ok <;> simp [withArg, eq_comm]

/-- The decoder on the fields of a command: its argument check is all that is left. -/
theorem decodeFields_opcodeOf (rMax : Byte) (i : Instr) :
    decodeFields rMax (opcodeOf i) (argOf i) = withArg (i.wellFormed rMax) i := by
  cases i <;> rfl

/-- What the field decoder accepts: a well-formed command, with its own opcode and argument. -/
theorem decodeFields_ok (rMax op arg : Byte) (i : Instr) (h : decodeFields rMax op arg = .ok i) :
    i.wellFormed rMax = true ∧ opcodeOf i = op ∧ argOf i = arg := by
  unfold decodeFields at h
  split at h
  case h_12 => cases h
  all_goals
    rw [withArg_eq_ok] at h
    obtain ⟨ha, rfl⟩ := h
    simp_all [Instr.wellFormed, opcodeOf, argOf, finalArgOk, keyArgOk, blockArgOk]

theorem decode_commandWord (rMax op arg : Byte) :
    decode rMax (commandWord op arg) = decodeFields rMax op arg := by
  simp [decode]

end Sys2Proof
end

