-- ==== Sys2Proof/Laws/Memory.lean ====
section
/-! SUPPORT. The laws of the byte storage: read after write, frame, and the canonical form kept. -/

namespace Sys2Proof.Machine

@[simp] theorem Memory.read_nil (a : Nat) : Memory.read [] a = 0 := rfl

theorem Memory.read_write_ne (m : Memory) (a b : Nat) (v : Byte) (h : b ≠ a) :
    (m.write a v).read b = m.read b := by
  induction m with
  | nil =>
    simp only [Memory.write]
    split <;> simp [Memory.read, h.symm]
  | cons c t ih =>
    obtain ⟨k, w⟩ := c
    simp only [Memory.write]
    split
    · split <;> simp [Memory.read, h.symm]
    · split
      · next hk =>
        subst hk
        split <;> simp [Memory.read, h.symm]
      · simp only [Memory.read]
        split
        · rfl
        · exact ih

/-- A key below every listed one reads 0. -/
theorem Memory.read_of_lt (m : Memory) (lo a : Nat) (hm : m.wfFrom lo = true) (h : a < lo) : m.read a = 0 := by
  induction m generalizing lo with
  | nil => rfl
  | cons c t ih =>
    obtain ⟨k, w⟩ := c
    simp only [Memory.wfFrom, Bool.and_eq_true, decide_eq_true_eq] at hm
    have hk : k ≠ a := by omega
    simp only [Memory.read, hk, if_false]
    exact ih (k + 1) hm.2 (by omega)

theorem Memory.read_write_self_from (m : Memory) (lo a : Nat) (v : Byte) (hm : m.wfFrom lo = true) :
    (m.write a v).read a = v := by
  induction m generalizing lo with
  | nil =>
    simp only [Memory.write]
    split <;> simp_all [Memory.read]
  | cons c t ih =>
    obtain ⟨k, w⟩ := c
    have hm' := hm
    simp only [Memory.wfFrom, Bool.and_eq_true, decide_eq_true_eq] at hm
    simp only [Memory.write]
    split
    · next hlt =>
      have hk : k ≠ a := by omega
      split
      · next hv =>
        simp only [Memory.read, hk, if_false, hv]
        exact Memory.read_of_lt t (k + 1) a hm.2 (by omega)
      · simp [Memory.read]
    · split
      · next hk =>
        subst hk
        split
        · next hv => rw [hv]; exact Memory.read_of_lt t _ a hm.2 (by omega)
        · simp [Memory.read]
      · next hne =>
        have hk : k ≠ a := fun h => hne h.symm
        simp only [Memory.read, hk, if_false]
        exact ih (k + 1) hm.2

theorem Memory.read_write (m : Memory) (a b : Nat) (v : Byte) (hm : m.wf = true) :
    (m.write a v).read b = if b = a then v else m.read b := by
  split
  · next h => subst h; exact Memory.read_write_self_from m 0 b v hm
  · next h => exact Memory.read_write_ne m a b v h

theorem Memory.wfFrom_mono (m : Memory) (lo lo' : Nat) (h : lo' ≤ lo) (hm : m.wfFrom lo = true) :
    m.wfFrom lo' = true := by
  cases m with
  | nil => rfl
  | cons c t =>
    obtain ⟨k, w⟩ := c
    simp only [Memory.wfFrom, Bool.and_eq_true, decide_eq_true_eq] at hm ⊢
    exact ⟨⟨by omega, hm.1.2⟩, hm.2⟩

theorem Memory.wfFrom_write (m : Memory) (lo a : Nat) (v : Byte) (ha : lo ≤ a) (hm : m.wfFrom lo = true) :
    (m.write a v).wfFrom lo = true := by
  induction m generalizing lo with
  | nil =>
    simp only [Memory.write]
    split <;> simp_all [Memory.wfFrom]
  | cons c t ih =>
    obtain ⟨k, w⟩ := c
    have hm' := hm
    simp only [Memory.wfFrom, Bool.and_eq_true, decide_eq_true_eq] at hm
    obtain ⟨⟨hk, hw⟩, ht⟩ := hm
    simp only [Memory.write]
    split
    · next hlt =>
      split
      · exact hm'
      · next hv =>
        simp only [Memory.wfFrom, Bool.and_eq_true, decide_eq_true_eq]
        exact ⟨⟨ha, hv⟩, ⟨by omega, hw⟩, ht⟩
    · split
      · next hak =>
        subst hak
        split
        · exact Memory.wfFrom_mono t (a + 1) lo (by omega) ht
        · next hv =>
          simp only [Memory.wfFrom, Bool.and_eq_true, decide_eq_true_eq]
          exact ⟨⟨ha, hv⟩, ht⟩
      · simp only [Memory.wfFrom, Bool.and_eq_true, decide_eq_true_eq]
        exact ⟨⟨hk, hw⟩, ih (k + 1) (by omega) ht⟩

/-- A write keeps the canonical form. -/
theorem Memory.wf_write (m : Memory) (a : Nat) (v : Byte) (hm : m.wf = true) : (m.write a v).wf = true :=
  Memory.wfFrom_write m 0 a v (Nat.zero_le a) hm

/-- A write lists no key that was not listed, but its own. -/
theorem Memory.mem_write (m : Memory) (a : Nat) (v : Byte) (c : Host.Cell) (h : c ∈ m.write a v) :
    c ∈ m ∨ c.1 = a := by
  induction m with
  | nil =>
    simp only [Memory.write] at h
    split at h <;> simp_all
  | cons d t ih =>
    obtain ⟨k, w⟩ := d
    simp only [Memory.write] at h
    split at h
    · split at h
      · exact .inl h
      · rcases List.mem_cons.1 h with h | h
        · exact .inr (by rw [h])
        · exact .inl h
    · split at h
      · split at h
        · exact .inl (List.mem_cons_of_mem _ h)
        · rcases List.mem_cons.1 h with h | h
          · exact .inr (by rw [h])
          · exact .inl (List.mem_cons_of_mem _ h)
      · rcases List.mem_cons.1 h with h | h
        · exact .inl (by rw [h]; exact List.mem_cons_self)
        · rcases ih h with h | h
          · exact .inl (List.mem_cons_of_mem _ h)
          · exact .inr h

theorem Memory.storeBytes_wf (m : Memory) (a : Nat) (s : List Byte) (hm : m.wf = true) :
    (m.storeBytes a s).wf = true := by
  induction s generalizing m a with
  | nil => exact hm
  | cons b s ih => exact ih (m.write a b) (a + 1) (Memory.wf_write m a b hm)

/-- Storing a string leaves every byte outside it alone. -/
theorem Memory.read_storeBytes_outside (m : Memory) (a b : Nat) (s : List Byte)
    (h : b < a ∨ a + s.length ≤ b) : (m.storeBytes a s).read b = m.read b := by
  induction s generalizing m a with
  | nil => rfl
  | cons c s ih =>
    simp only [List.length_cons] at h
    simp only [Memory.storeBytes]
    rw [ih (m.write a c) (a + 1) (by omega), Memory.read_write_ne m a b c (by omega)]

/-- Storing a string: inside it each byte is the string's, outside it nothing changes. -/
theorem Memory.read_storeBytes (m : Memory) (a b : Nat) (s : List Byte) (hm : m.wf = true) :
    (m.storeBytes a s).read b = if a ≤ b ∧ b < a + s.length then s.getD (b - a) 0 else m.read b := by
  split
  · next h =>
    induction s generalizing m a with
    | nil => simp at h; omega
    | cons c s ih =>
      simp only [List.length_cons] at h
      simp only [Memory.storeBytes]
      by_cases hb : b = a
      · subst hb
        rw [Memory.read_storeBytes_outside _ _ _ _ (.inl (Nat.lt_succ_self b)),
          Memory.read_write m b b c hm]
        simp
      · rw [ih (m.write a c) (a + 1) (Memory.wf_write m a c hm) (by omega)]
        have : b - a = (b - (a + 1)) + 1 := by omega
        rw [this, List.getD_cons_succ]
  · next h => exact Memory.read_storeBytes_outside m a b s (by omega)

theorem Memory.mem_storeBytes (m : Memory) (a : Nat) (s : List Byte) (c : Host.Cell)
    (h : c ∈ m.storeBytes a s) : c ∈ m ∨ (a ≤ c.1 ∧ c.1 < a + s.length) := by
  induction s generalizing m a with
  | nil => exact .inl h
  | cons b s ih =>
    simp only [List.length_cons]
    rcases ih (m.write a b) (a + 1) h with h | h
    · rcases Memory.mem_write m a b c h with h | h
      · exact .inl h
      · exact .inr (by omega)
    · exact .inr (by omega)

@[simp] theorem Memory.length_loadBytes (m : Memory) (a n : Nat) : (m.loadBytes a n).length = n := by
  simp [Memory.loadBytes]

theorem Memory.getD_loadBytes (m : Memory) (a n k : Nat) (h : k < n) :
    (m.loadBytes a n).getD k 0 = m.read (a + k) := by
  simp [Memory.loadBytes, List.getD, h]

/-- Loading what was stored. -/
theorem Memory.loadBytes_storeBytes (m : Memory) (a : Nat) (s : List Byte) (hm : m.wf = true) :
    (m.storeBytes a s).loadBytes a s.length = s := by
  apply List.ext_getElem
  · simp
  · intro k h1 h2
    simp only [Memory.loadBytes, List.getElem_map, List.getElem_range]
    rw [Memory.read_storeBytes m a (a + k) s hm]
    simp [h2]

/-- Loading away from what was stored. -/
theorem Memory.loadBytes_storeBytes_disjoint (m : Memory) (a b n : Nat) (s : List Byte)
    (h : b + n ≤ a ∨ a + s.length ≤ b) : (m.storeBytes a s).loadBytes b n = m.loadBytes b n := by
  simp only [Memory.loadBytes]
  apply List.map_congr_left
  intro k hk
  have := List.mem_range.1 hk
  exact Memory.read_storeBytes_outside m a (b + k) s (by omega)

/-- In canonical form, equal reads mean equal lists. -/
theorem Memory.ext_from (m m' : Memory) (lo lo' : Nat) (hm : m.wfFrom lo = true) (hm' : m'.wfFrom lo' = true)
    (h : ∀ a, m.read a = m'.read a) : m = m' := by
  induction m generalizing m' lo lo' with
  | nil =>
    cases m' with
    | nil => rfl
    | cons c t =>
      obtain ⟨k, w⟩ := c
      simp only [Memory.wfFrom, Bool.and_eq_true, decide_eq_true_eq] at hm'
      have := h k
      simp [Memory.read] at this
      exact absurd this.symm hm'.1.2
  | cons c t ih =>
    obtain ⟨k, w⟩ := c
    simp only [Memory.wfFrom, Bool.and_eq_true, decide_eq_true_eq] at hm
    cases m' with
    | nil =>
      have := h k
      simp [Memory.read] at this
      exact absurd this hm.1.2
    | cons d u =>
      obtain ⟨j, x⟩ := d
      simp only [Memory.wfFrom, Bool.and_eq_true, decide_eq_true_eq] at hm'
      have hkj : k = j := by
        rcases Nat.lt_trichotomy k j with hlt | heq | hgt
        · have hk := h k
          have hjk : j ≠ k := by omega
          simp only [Memory.read, if_true, hjk, if_false] at hk
          rw [Memory.read_of_lt u (j + 1) k hm'.2 (by omega)] at hk
          exact absurd hk hm.1.2
        · exact heq
        · have hj := h j
          have hkj : k ≠ j := by omega
          simp only [Memory.read, if_true, hkj, if_false] at hj
          rw [Memory.read_of_lt t (k + 1) j hm.2 (by omega)] at hj
          exact absurd hj.symm hm'.1.2
      subst hkj
      have hw : w = x := by simpa [Memory.read] using h k
      subst hw
      have : t = u := by
        apply ih u (k + 1) (k + 1) hm.2 hm'.2
        intro a
        by_cases ha : k = a
        · subst ha
          rw [Memory.read_of_lt t (k + 1) k hm.2 (by omega), Memory.read_of_lt u (k + 1) k hm'.2 (by omega)]
        · simpa [Memory.read, ha] using h a
      rw [this]

theorem Memory.ext (m m' : Memory) (hm : m.wf = true) (hm' : m'.wf = true)
    (h : ∀ a, m.read a = m'.read a) : m = m' :=
  Memory.ext_from m m' 0 0 hm hm' h

end Sys2Proof.Machine
end

