-- ==== Sys2Proof/Laws/State.lean ====
section
/-! SUPPORT. One lemma per field of State for each of the shared operations that writes State. -/

namespace Sys2Proof.Machine

@[simp] theorem complete_h (s : State) : (complete s).h = s.h := (rfl)
@[simp] theorem complete_len (s : State) : (complete s).len = s.len := (rfl)
@[simp] theorem complete_k0 (s : State) : (complete s).k0 = s.k0 := (rfl)
@[simp] theorem complete_mem (s : State) : (complete s).mem = s.mem := (rfl)
@[simp] theorem complete_busy (s : State) : (complete s).busy = false := (rfl)
@[simp] theorem complete_done (s : State) : (complete s).done = true := (rfl)
@[simp] theorem complete_err (s : State) : (complete s).err = s.err := (rfl)
@[simp] theorem complete_ecode (s : State) : (complete s).ecode = s.ecode := (rfl)
@[simp] theorem complete_ieDone (s : State) : (complete s).ieDone = s.ieDone := (rfl)
@[simp] theorem complete_ieErr (s : State) : (complete s).ieErr = s.ieErr := (rfl)
@[simp] theorem complete_pend (s : State) : (complete s).pend = s.pend := (rfl)
@[simp] theorem complete_rMax (s : State) : (complete s).rMax = s.rMax := (rfl)
@[simp] theorem complete_events (s : State) : (complete s).events = s.events := (rfl)
@[simp] theorem complete_reads (s : State) : (complete s).reads = s.reads := (rfl)
@[simp] theorem complete_draws (s : State) : (complete s).draws = s.draws := (rfl)

@[simp] theorem accept_h (s : State) (op arg : Byte) : (accept s op arg).h = s.h := (rfl)
@[simp] theorem accept_len (s : State) (op arg : Byte) : (accept s op arg).len = s.len := (rfl)
@[simp] theorem accept_k0 (s : State) (op arg : Byte) : (accept s op arg).k0 = s.k0 := (rfl)
@[simp] theorem accept_mem (s : State) (op arg : Byte) : (accept s op arg).mem = s.mem := (rfl)
@[simp] theorem accept_busy (s : State) (op arg : Byte) : (accept s op arg).busy = true := (rfl)
@[simp] theorem accept_done (s : State) (op arg : Byte) : (accept s op arg).done = false := (rfl)
@[simp] theorem accept_err (s : State) (op arg : Byte) : (accept s op arg).err = s.err := (rfl)
@[simp] theorem accept_ecode (s : State) (op arg : Byte) : (accept s op arg).ecode = s.ecode := (rfl)
@[simp] theorem accept_ieDone (s : State) (op arg : Byte) : (accept s op arg).ieDone = s.ieDone := (rfl)
@[simp] theorem accept_ieErr (s : State) (op arg : Byte) : (accept s op arg).ieErr = s.ieErr := (rfl)
@[simp] theorem accept_pend (s : State) (op arg : Byte) : (accept s op arg).pend = some ⟨op, arg⟩ := (rfl)
@[simp] theorem accept_rMax (s : State) (op arg : Byte) : (accept s op arg).rMax = s.rMax := (rfl)
@[simp] theorem accept_events (s : State) (op arg : Byte) : (accept s op arg).events = s.events := (rfl)
@[simp] theorem accept_reads (s : State) (op arg : Byte) : (accept s op arg).reads = s.reads := (rfl)
@[simp] theorem accept_draws (s : State) (op arg : Byte) : (accept s op arg).draws = s.draws := (rfl)

@[simp] theorem setHash_h (s : State) (hs : HashState) (n : Word64) : (setHash s hs n).h = hs := (rfl)
@[simp] theorem setHash_len (s : State) (hs : HashState) (n : Word64) : (setHash s hs n).len = n := (rfl)
@[simp] theorem setHash_k0 (s : State) (hs : HashState) (n : Word64) : (setHash s hs n).k0 = s.k0 := (rfl)
@[simp] theorem setHash_mem (s : State) (hs : HashState) (n : Word64) : (setHash s hs n).mem = s.mem := (rfl)
@[simp] theorem setHash_busy (s : State) (hs : HashState) (n : Word64) : (setHash s hs n).busy = s.busy := (rfl)
@[simp] theorem setHash_done (s : State) (hs : HashState) (n : Word64) : (setHash s hs n).done = s.done := (rfl)
@[simp] theorem setHash_err (s : State) (hs : HashState) (n : Word64) : (setHash s hs n).err = s.err := (rfl)
@[simp] theorem setHash_ecode (s : State) (hs : HashState) (n : Word64) : (setHash s hs n).ecode = s.ecode := (rfl)
@[simp] theorem setHash_ieDone (s : State) (hs : HashState) (n : Word64) : (setHash s hs n).ieDone = s.ieDone := (rfl)
@[simp] theorem setHash_ieErr (s : State) (hs : HashState) (n : Word64) : (setHash s hs n).ieErr = s.ieErr := (rfl)
@[simp] theorem setHash_pend (s : State) (hs : HashState) (n : Word64) : (setHash s hs n).pend = s.pend := (rfl)
@[simp] theorem setHash_rMax (s : State) (hs : HashState) (n : Word64) : (setHash s hs n).rMax = s.rMax := (rfl)
@[simp] theorem setHash_events (s : State) (hs : HashState) (n : Word64) : (setHash s hs n).events = s.events := (rfl)
@[simp] theorem setHash_reads (s : State) (hs : HashState) (n : Word64) : (setHash s hs n).reads = s.reads := (rfl)
@[simp] theorem setHash_draws (s : State) (hs : HashState) (n : Word64) : (setHash s hs n).draws = s.draws := (rfl)

@[simp] theorem setK0_h (s : State) (v : List Byte) : (setK0 s v).h = s.h := (rfl)
@[simp] theorem setK0_len (s : State) (v : List Byte) : (setK0 s v).len = s.len := (rfl)
@[simp] theorem setK0_k0 (s : State) (v : List Byte) : (setK0 s v).k0 = toK0 v := (rfl)
@[simp] theorem setK0_mem (s : State) (v : List Byte) : (setK0 s v).mem = s.mem := (rfl)
@[simp] theorem setK0_busy (s : State) (v : List Byte) : (setK0 s v).busy = s.busy := (rfl)
@[simp] theorem setK0_done (s : State) (v : List Byte) : (setK0 s v).done = s.done := (rfl)
@[simp] theorem setK0_err (s : State) (v : List Byte) : (setK0 s v).err = s.err := (rfl)
@[simp] theorem setK0_ecode (s : State) (v : List Byte) : (setK0 s v).ecode = s.ecode := (rfl)
@[simp] theorem setK0_ieDone (s : State) (v : List Byte) : (setK0 s v).ieDone = s.ieDone := (rfl)
@[simp] theorem setK0_ieErr (s : State) (v : List Byte) : (setK0 s v).ieErr = s.ieErr := (rfl)
@[simp] theorem setK0_pend (s : State) (v : List Byte) : (setK0 s v).pend = s.pend := (rfl)
@[simp] theorem setK0_rMax (s : State) (v : List Byte) : (setK0 s v).rMax = s.rMax := (rfl)
@[simp] theorem setK0_events (s : State) (v : List Byte) : (setK0 s v).events = s.events := (rfl)
@[simp] theorem setK0_reads (s : State) (v : List Byte) : (setK0 s v).reads = s.reads := (rfl)
@[simp] theorem setK0_draws (s : State) (v : List Byte) : (setK0 s v).draws = s.draws := (rfl)

@[simp] theorem setX_h (s : State) (v : List Byte) : (setX s v).h = s.h := (rfl)
@[simp] theorem setX_len (s : State) (v : List Byte) : (setX s v).len = s.len := (rfl)
@[simp] theorem setX_k0 (s : State) (v : List Byte) : (setX s v).k0 = s.k0 := (rfl)
@[simp] theorem setX_mem (s : State) (v : List Byte) : (setX s v).mem = s.mem.storeBytes xBase v := (rfl)
@[simp] theorem setX_busy (s : State) (v : List Byte) : (setX s v).busy = s.busy := (rfl)
@[simp] theorem setX_done (s : State) (v : List Byte) : (setX s v).done = s.done := (rfl)
@[simp] theorem setX_err (s : State) (v : List Byte) : (setX s v).err = s.err := (rfl)
@[simp] theorem setX_ecode (s : State) (v : List Byte) : (setX s v).ecode = s.ecode := (rfl)
@[simp] theorem setX_ieDone (s : State) (v : List Byte) : (setX s v).ieDone = s.ieDone := (rfl)
@[simp] theorem setX_ieErr (s : State) (v : List Byte) : (setX s v).ieErr = s.ieErr := (rfl)
@[simp] theorem setX_pend (s : State) (v : List Byte) : (setX s v).pend = s.pend := (rfl)
@[simp] theorem setX_rMax (s : State) (v : List Byte) : (setX s v).rMax = s.rMax := (rfl)
@[simp] theorem setX_events (s : State) (v : List Byte) : (setX s v).events = s.events := (rfl)
@[simp] theorem setX_reads (s : State) (v : List Byte) : (setX s v).reads = s.reads := (rfl)
@[simp] theorem setX_draws (s : State) (v : List Byte) : (setX s v).draws = s.draws := (rfl)

@[simp] theorem setBm_h (s : State) (v : List Byte) : (setBm s v).h = s.h := (rfl)
@[simp] theorem setBm_len (s : State) (v : List Byte) : (setBm s v).len = s.len := (rfl)
@[simp] theorem setBm_k0 (s : State) (v : List Byte) : (setBm s v).k0 = s.k0 := (rfl)
@[simp] theorem setBm_mem (s : State) (v : List Byte) : (setBm s v).mem = s.mem.storeBytes bmBase v := (rfl)
@[simp] theorem setBm_busy (s : State) (v : List Byte) : (setBm s v).busy = s.busy := (rfl)
@[simp] theorem setBm_done (s : State) (v : List Byte) : (setBm s v).done = s.done := (rfl)
@[simp] theorem setBm_err (s : State) (v : List Byte) : (setBm s v).err = s.err := (rfl)
@[simp] theorem setBm_ecode (s : State) (v : List Byte) : (setBm s v).ecode = s.ecode := (rfl)
@[simp] theorem setBm_ieDone (s : State) (v : List Byte) : (setBm s v).ieDone = s.ieDone := (rfl)
@[simp] theorem setBm_ieErr (s : State) (v : List Byte) : (setBm s v).ieErr = s.ieErr := (rfl)
@[simp] theorem setBm_pend (s : State) (v : List Byte) : (setBm s v).pend = s.pend := (rfl)
@[simp] theorem setBm_rMax (s : State) (v : List Byte) : (setBm s v).rMax = s.rMax := (rfl)
@[simp] theorem setBm_events (s : State) (v : List Byte) : (setBm s v).events = s.events := (rfl)
@[simp] theorem setBm_reads (s : State) (v : List Byte) : (setBm s v).reads = s.reads := (rfl)
@[simp] theorem setBm_draws (s : State) (v : List Byte) : (setBm s v).draws = s.draws := (rfl)

@[simp] theorem storeWord_h (s : State) (a : Nat) (v : Word) : (storeWord s a v).h = s.h := (rfl)
@[simp] theorem storeWord_len (s : State) (a : Nat) (v : Word) : (storeWord s a v).len = s.len := (rfl)
@[simp] theorem storeWord_k0 (s : State) (a : Nat) (v : Word) : (storeWord s a v).k0 = s.k0 := (rfl)
@[simp] theorem storeWord_mem (s : State) (a : Nat) (v : Word) : (storeWord s a v).mem = s.mem.storeBytes a (le32 v) := (rfl)
@[simp] theorem storeWord_busy (s : State) (a : Nat) (v : Word) : (storeWord s a v).busy = s.busy := (rfl)
@[simp] theorem storeWord_done (s : State) (a : Nat) (v : Word) : (storeWord s a v).done = s.done := (rfl)
@[simp] theorem storeWord_err (s : State) (a : Nat) (v : Word) : (storeWord s a v).err = s.err := (rfl)
@[simp] theorem storeWord_ecode (s : State) (a : Nat) (v : Word) : (storeWord s a v).ecode = s.ecode := (rfl)
@[simp] theorem storeWord_ieDone (s : State) (a : Nat) (v : Word) : (storeWord s a v).ieDone = s.ieDone := (rfl)
@[simp] theorem storeWord_ieErr (s : State) (a : Nat) (v : Word) : (storeWord s a v).ieErr = s.ieErr := (rfl)
@[simp] theorem storeWord_pend (s : State) (a : Nat) (v : Word) : (storeWord s a v).pend = s.pend := (rfl)
@[simp] theorem storeWord_rMax (s : State) (a : Nat) (v : Word) : (storeWord s a v).rMax = s.rMax := (rfl)
@[simp] theorem storeWord_events (s : State) (a : Nat) (v : Word) : (storeWord s a v).events = s.events := (rfl)
@[simp] theorem storeWord_reads (s : State) (a : Nat) (v : Word) : (storeWord s a v).reads = s.reads := (rfl)
@[simp] theorem storeWord_draws (s : State) (a : Nat) (v : Word) : (storeWord s a v).draws = s.draws := (rfl)

@[simp] theorem writeIrqEn_h (s : State) (v : Word) : (writeIrqEn s v).h = s.h := (rfl)
@[simp] theorem writeIrqEn_len (s : State) (v : Word) : (writeIrqEn s v).len = s.len := (rfl)
@[simp] theorem writeIrqEn_k0 (s : State) (v : Word) : (writeIrqEn s v).k0 = s.k0 := (rfl)
@[simp] theorem writeIrqEn_mem (s : State) (v : Word) : (writeIrqEn s v).mem = s.mem := (rfl)
@[simp] theorem writeIrqEn_busy (s : State) (v : Word) : (writeIrqEn s v).busy = s.busy := (rfl)
@[simp] theorem writeIrqEn_done (s : State) (v : Word) : (writeIrqEn s v).done = s.done := (rfl)
@[simp] theorem writeIrqEn_err (s : State) (v : Word) : (writeIrqEn s v).err = s.err := (rfl)
@[simp] theorem writeIrqEn_ecode (s : State) (v : Word) : (writeIrqEn s v).ecode = s.ecode := (rfl)
@[simp] theorem writeIrqEn_ieDone (s : State) (v : Word) : (writeIrqEn s v).ieDone = v.getLsbD 1 := (rfl)
@[simp] theorem writeIrqEn_ieErr (s : State) (v : Word) : (writeIrqEn s v).ieErr = v.getLsbD 2 := (rfl)
@[simp] theorem writeIrqEn_pend (s : State) (v : Word) : (writeIrqEn s v).pend = s.pend := (rfl)
@[simp] theorem writeIrqEn_rMax (s : State) (v : Word) : (writeIrqEn s v).rMax = s.rMax := (rfl)
@[simp] theorem writeIrqEn_events (s : State) (v : Word) : (writeIrqEn s v).events = s.events := (rfl)
@[simp] theorem writeIrqEn_reads (s : State) (v : Word) : (writeIrqEn s v).reads = s.reads := (rfl)
@[simp] theorem writeIrqEn_draws (s : State) (v : Word) : (writeIrqEn s v).draws = s.draws := (rfl)

@[simp] theorem clearData_h (s : State) : (clearData s).h = HashState.zero := (rfl)
@[simp] theorem clearData_len (s : State) : (clearData s).len = 0 := (rfl)
@[simp] theorem clearData_k0 (s : State) : (clearData s).k0 = Vector.replicate 64 0 := (rfl)
@[simp] theorem clearData_mem (s : State) : (clearData s).mem = [] := (rfl)
@[simp] theorem clearData_busy (s : State) : (clearData s).busy = s.busy := (rfl)
@[simp] theorem clearData_done (s : State) : (clearData s).done = s.done := (rfl)
@[simp] theorem clearData_err (s : State) : (clearData s).err = s.err := (rfl)
@[simp] theorem clearData_ecode (s : State) : (clearData s).ecode = s.ecode := (rfl)
@[simp] theorem clearData_ieDone (s : State) : (clearData s).ieDone = s.ieDone := (rfl)
@[simp] theorem clearData_ieErr (s : State) : (clearData s).ieErr = s.ieErr := (rfl)
@[simp] theorem clearData_pend (s : State) : (clearData s).pend = s.pend := (rfl)
@[simp] theorem clearData_rMax (s : State) : (clearData s).rMax = s.rMax := (rfl)
@[simp] theorem clearData_events (s : State) : (clearData s).events = s.events := (rfl)
@[simp] theorem clearData_reads (s : State) : (clearData s).reads = s.reads := (rfl)
@[simp] theorem clearData_draws (s : State) : (clearData s).draws = s.draws := (rfl)

@[simp] theorem resetBlock_h (s : State) : (resetBlock s).h = HashState.zero := (rfl)
@[simp] theorem resetBlock_len (s : State) : (resetBlock s).len = 0 := (rfl)
@[simp] theorem resetBlock_k0 (s : State) : (resetBlock s).k0 = Vector.replicate 64 0 := (rfl)
@[simp] theorem resetBlock_mem (s : State) : (resetBlock s).mem = [] := (rfl)
@[simp] theorem resetBlock_busy (s : State) : (resetBlock s).busy = false := (rfl)
@[simp] theorem resetBlock_done (s : State) : (resetBlock s).done = false := (rfl)
@[simp] theorem resetBlock_err (s : State) : (resetBlock s).err = false := (rfl)
@[simp] theorem resetBlock_ecode (s : State) : (resetBlock s).ecode = none := (rfl)
@[simp] theorem resetBlock_ieDone (s : State) : (resetBlock s).ieDone = false := (rfl)
@[simp] theorem resetBlock_ieErr (s : State) : (resetBlock s).ieErr = false := (rfl)
@[simp] theorem resetBlock_pend (s : State) : (resetBlock s).pend = none := (rfl)
@[simp] theorem resetBlock_rMax (s : State) : (resetBlock s).rMax = s.rMax := (rfl)
@[simp] theorem resetBlock_events (s : State) : (resetBlock s).events = s.events := (rfl)
@[simp] theorem resetBlock_reads (s : State) : (resetBlock s).reads = s.reads := (rfl)
@[simp] theorem resetBlock_draws (s : State) : (resetBlock s).draws = s.draws := (rfl)

@[simp] theorem raiseError_h (s : State) (c : ErrorCode) : (raiseError s c).h = (s.h) := by
  simp only [raiseError]; split <;> rfl
@[simp] theorem raiseError_len (s : State) (c : ErrorCode) : (raiseError s c).len = (s.len) := by
  simp only [raiseError]; split <;> rfl
@[simp] theorem raiseError_k0 (s : State) (c : ErrorCode) : (raiseError s c).k0 = (s.k0) := by
  simp only [raiseError]; split <;> rfl
@[simp] theorem raiseError_mem (s : State) (c : ErrorCode) : (raiseError s c).mem = (s.mem) := by
  simp only [raiseError]; split <;> rfl
@[simp] theorem raiseError_busy (s : State) (c : ErrorCode) : (raiseError s c).busy = (s.busy) := by
  simp only [raiseError]; split <;> rfl
@[simp] theorem raiseError_done (s : State) (c : ErrorCode) : (raiseError s c).done = (s.done) := by
  simp only [raiseError]; split <;> rfl
@[simp] theorem raiseError_err (s : State) (c : ErrorCode) : (raiseError s c).err = (true) := by
  simp only [raiseError]; split <;> simp_all
@[simp] theorem raiseError_ecode (s : State) (c : ErrorCode) : (raiseError s c).ecode = (if s.err then s.ecode else some c) := by
  simp only [raiseError]; split <;> simp_all
@[simp] theorem raiseError_ieDone (s : State) (c : ErrorCode) : (raiseError s c).ieDone = (s.ieDone) := by
  simp only [raiseError]; split <;> rfl
@[simp] theorem raiseError_ieErr (s : State) (c : ErrorCode) : (raiseError s c).ieErr = (s.ieErr) := by
  simp only [raiseError]; split <;> rfl
@[simp] theorem raiseError_pend (s : State) (c : ErrorCode) : (raiseError s c).pend = (s.pend) := by
  simp only [raiseError]; split <;> rfl
@[simp] theorem raiseError_rMax (s : State) (c : ErrorCode) : (raiseError s c).rMax = (s.rMax) := by
  simp only [raiseError]; split <;> rfl
@[simp] theorem raiseError_events (s : State) (c : ErrorCode) : (raiseError s c).events = (s.events) := by
  simp only [raiseError]; split <;> rfl
@[simp] theorem raiseError_reads (s : State) (c : ErrorCode) : (raiseError s c).reads = (s.reads) := by
  simp only [raiseError]; split <;> rfl
@[simp] theorem raiseError_draws (s : State) (c : ErrorCode) : (raiseError s c).draws = (s.draws) := by
  simp only [raiseError]; split <;> rfl

@[simp] theorem writeStatus_h (s : State) (v : Word) : (writeStatus s v).h = (s.h) := by
  simp only [writeStatus]; split <;> split <;> rfl
@[simp] theorem writeStatus_len (s : State) (v : Word) : (writeStatus s v).len = (s.len) := by
  simp only [writeStatus]; split <;> split <;> rfl
@[simp] theorem writeStatus_k0 (s : State) (v : Word) : (writeStatus s v).k0 = (s.k0) := by
  simp only [writeStatus]; split <;> split <;> rfl
@[simp] theorem writeStatus_mem (s : State) (v : Word) : (writeStatus s v).mem = (s.mem) := by
  simp only [writeStatus]; split <;> split <;> rfl
@[simp] theorem writeStatus_busy (s : State) (v : Word) : (writeStatus s v).busy = (s.busy) := by
  simp only [writeStatus]; split <;> split <;> rfl
@[simp] theorem writeStatus_done (s : State) (v : Word) : (writeStatus s v).done = (s.done && !v.getLsbD 1) := by
  simp only [writeStatus]; split <;> split <;> simp_all
@[simp] theorem writeStatus_err (s : State) (v : Word) : (writeStatus s v).err = (s.err && !v.getLsbD 2) := by
  simp only [writeStatus]; split <;> split <;> simp_all
@[simp] theorem writeStatus_ecode (s : State) (v : Word) : (writeStatus s v).ecode = (if v.getLsbD 2 then none else s.ecode) := by
  simp only [writeStatus]; split <;> split <;> simp_all
@[simp] theorem writeStatus_ieDone (s : State) (v : Word) : (writeStatus s v).ieDone = (s.ieDone) := by
  simp only [writeStatus]; split <;> split <;> rfl
@[simp] theorem writeStatus_ieErr (s : State) (v : Word) : (writeStatus s v).ieErr = (s.ieErr) := by
  simp only [writeStatus]; split <;> split <;> rfl
@[simp] theorem writeStatus_pend (s : State) (v : Word) : (writeStatus s v).pend = (s.pend) := by
  simp only [writeStatus]; split <;> split <;> rfl
@[simp] theorem writeStatus_rMax (s : State) (v : Word) : (writeStatus s v).rMax = (s.rMax) := by
  simp only [writeStatus]; split <;> split <;> rfl
@[simp] theorem writeStatus_events (s : State) (v : Word) : (writeStatus s v).events = (s.events) := by
  simp only [writeStatus]; split <;> split <;> rfl
@[simp] theorem writeStatus_reads (s : State) (v : Word) : (writeStatus s v).reads = (s.reads) := by
  simp only [writeStatus]; split <;> split <;> rfl
@[simp] theorem writeStatus_draws (s : State) (v : Word) : (writeStatus s v).draws = (s.draws) := by
  simp only [writeStatus]; split <;> split <;> rfl

@[simp] theorem draw_fst (s : State) : (draw s).1 = Config.draw32 s.draws := rfl
@[simp] theorem draw_snd (s : State) : (draw s).2 = { s with draws := s.draws + 1 } := rfl

theorem raiseError_of_err (s : State) (c : ErrorCode) (h : s.err = true) : raiseError s c = s := by
  simp [raiseError, h]

theorem raiseError_of_no_err (s : State) (c : ErrorCode) (h : s.err = false) :
    raiseError s c = { s with err := true, ecode := some c } := by
  simp [raiseError, h]

/-! A completed command as one record update; `rw` with these instead of comparing records by `rfl`. -/

theorem complete_setHash (s : State) (hs : HashState) (n : Word64) :
    complete (setHash s hs n) = { s with h := hs, len := n, busy := false, done := true } := rfl

theorem complete_setK0 (s : State) (v : List Byte) :
    complete (setK0 s v) = { s with k0 := toK0 v, busy := false, done := true } := rfl

theorem complete_setX (s : State) (v : List Byte) :
    complete (setX s v) = { s with mem := s.mem.storeBytes xBase v, busy := false, done := true } := rfl

theorem complete_setX_setBm (s : State) (u v : List Byte) :
    complete (setX (setBm s u) v) =
      { s with mem := (s.mem.storeBytes bmBase u).storeBytes xBase v, busy := false, done := true } := rfl

end Sys2Proof.Machine
end

