-- ==== Sys2Proof/Laws/Exec.lean ====
section
/-! SUPPORT. Everything `exec` can do, said once. -/

namespace Sys2Proof.Machine

/-- The data part of a command's completion, as its rule gives it. -/
def dataEffect (i : Instr) (s : State) : State :=
  match i with
  | .nop => s
  | .shaInit => setHash s iv 0
  | .shaUpdate => setHash s (compress s.h s.msg) (s.len + 512)
  | .shaFinal n =>
    setHash s (finalize s.h s.len (msgOperand s n) n.toNat).1 (finalize s.h s.len (msgOperand s n) n.toNat).2
  | .hmacKey n => setK0 s (padKey (msgOperand s n))
  | .hmacKeyd => setK0 s (digest s.h ++ rep 0 32)
  | .hmacInit => setHash s (padState s.k0 ipad) 512
  | .hmacFinal n =>
    setHash s (hmacFinalize s.h s.len s.k0 (msgOperand s n) n.toNat).1
      (hmacFinalize s.h s.len s.k0 (msgOperand s n) n.toNat).2
  | .salsa => setX s (salsa208 s.x)
  | .blockmix r =>
    setX (setBm s (blockmix (bmOperand s r) r.toNat).1) (blockmix (bmOperand s r) r.toNat).2
  | .zeroize => clearData s

/-- `exec` always answers a next state: the completed command, or ILL_ARG for a term that is no command. -/
theorem exec_eq (i : Instr) (s : State) :
    exec i s = .next (if i.wellFormed s.rMax then complete (dataEffect i s) else raiseError s .illArg) := by
  cases i with
  | nop => rfl
  | shaInit => rfl
  | shaUpdate => rfl
  | shaFinal n =>
    show execShaFinal n s = _
    rw [show Instr.wellFormed s.rMax (.shaFinal n) = finalArgOk n from rfl, execShaFinal]
    by_cases h : finalArgOk n = true
    · rw [if_pos h, if_pos h, dataEffect]
    · rw [if_neg h, if_neg h]
  | hmacKey n =>
    show execHmacKey n s = _
    rw [show Instr.wellFormed s.rMax (.hmacKey n) = keyArgOk n from rfl, execHmacKey]
    by_cases h : keyArgOk n = true
    · rw [if_pos h, if_pos h, dataEffect]
    · rw [if_neg h, if_neg h]
  | hmacKeyd => rfl
  | hmacInit => rfl
  | hmacFinal n =>
    show execHmacFinal n s = _
    rw [show Instr.wellFormed s.rMax (.hmacFinal n) = finalArgOk n from rfl, execHmacFinal]
    by_cases h : finalArgOk n = true
    · rw [if_pos h, if_pos h, dataEffect]
    · rw [if_neg h, if_neg h]
  | salsa => rfl
  | blockmix r =>
    show execBlockmix r s = _
    rw [show Instr.wellFormed s.rMax (.blockmix r) = blockArgOk s.rMax r from rfl, execBlockmix]
    by_cases h : blockArgOk s.rMax r = true
    · rw [if_pos h, if_pos h, dataEffect]
    · rw [if_neg h, if_neg h]
  | zeroize => rfl

theorem exec_of_wellFormed (i : Instr) (s : State) (h : i.wellFormed s.rMax = true) :
    exec i s = .next (complete (dataEffect i s)) := by
  rw [exec_eq, if_pos h]

theorem exec_of_not_wellFormed (i : Instr) (s : State) (h : i.wellFormed s.rMax = false) :
    exec i s = .next (raiseError s .illArg) := by
  rw [exec_eq, if_neg (by simp [h])]

/-- The data part writes no control state. -/
theorem dataEffect_control (i : Instr) (s : State) : SameControl s (dataEffect i s) := by
  cases i <;> constructor <;> simp [dataEffect]

/-- Which memory a command leaves. -/
theorem dataEffect_mem (i : Instr) (s : State) :
    (dataEffect i s).mem =
      match i with
      | .salsa => s.mem.storeBytes xBase (salsa208 s.x)
      | .blockmix r =>
        (s.mem.storeBytes bmBase (blockmix (bmOperand s r) r.toNat).1).storeBytes xBase
          (blockmix (bmOperand s r) r.toNat).2
      | .zeroize => []
      | _ => s.mem := by
  cases i <;> simp [dataEffect]

/-- What `exec` goes on with, by well-formedness. -/
theorem exec_next (i : Instr) (s t : State) (h : exec i s = .next t) :
    (i.wellFormed s.rMax = true ∧ t = complete (dataEffect i s)) ∨
    (i.wellFormed s.rMax = false ∧ t = raiseError s .illArg) := by
  cases hw : i.wellFormed s.rMax
  · rw [exec_of_not_wellFormed _ _ hw, Host.Outcome.next.injEq] at h
    exact .inr ⟨rfl, h.symm⟩
  · rw [exec_of_wellFormed _ _ hw, Host.Outcome.next.injEq] at h
    exact .inl ⟨rfl, h.symm⟩

/-- The data part keeps the storage in canonical form. -/
theorem dataEffect_wf (i : Instr) (s : State) (h : s.mem.wf = true) : (dataEffect i s).mem.wf = true := by
  rw [dataEffect_mem]
  cases i <;> simp only [h]
  · exact Memory.storeBytes_wf _ _ _ h
  · exact Memory.storeBytes_wf _ _ _ (Memory.storeBytes_wf _ _ _ h)
  · rfl

/-- The data part reads the data state alone. -/
theorem dataEffect_congr (i : Instr) (s u : State) (h : u.h = s.h) (hl : u.len = s.len) (hk : u.k0 = s.k0)
    (hm : u.mem = s.mem) :
    (dataEffect i u).h = (dataEffect i s).h ∧ (dataEffect i u).len = (dataEffect i s).len ∧
    (dataEffect i u).k0 = (dataEffect i s).k0 ∧ (dataEffect i u).mem = (dataEffect i s).mem := by
  cases i <;> simp [dataEffect, h, hl, hk, hm, msgOperand, bmOperand, State.msg, State.x]

/-- SALSA stores to X only. -/
theorem read_dataEffect_salsa (s : State) (a : Nat) (h : a < xBase ∨ xBase + 64 ≤ a) :
    (dataEffect .salsa s).mem.read a = s.mem.read a := by
  rw [dataEffect_mem]
  exact Memory.read_storeBytes_outside _ _ _ _ (by rw [length_salsa208]; exact h)

/-- BLOCKMIX stores to X and the first 128r bytes of BM only. -/
theorem read_dataEffect_blockmix (s : State) (r : Byte) (a : Nat) (hr : 1 ≤ r.toNat)
    (hx : a < xBase ∨ xBase + 64 ≤ a) (hb : a < bmBase ∨ bmBase + 128 * r.toNat ≤ a) :
    (dataEffect (.blockmix r) s).mem.read a = s.mem.read a := by
  rw [dataEffect_mem]
  simp only
  rw [Memory.read_storeBytes_outside _ _ _ _ (by rw [length_blockmix_snd _ _ hr]; exact hx),
    Memory.read_storeBytes_outside _ _ _ _ (by rw [length_blockmix_fst]; exact hb)]

/-- What stands in X after SALSA. -/
theorem load_dataEffect_salsa (s : State) (hm : s.mem.wf = true) :
    (dataEffect .salsa s).mem.loadBytes xBase 64 = salsa208 s.x := by
  rw [dataEffect_mem]
  have := Memory.loadBytes_storeBytes s.mem xBase (salsa208 s.x) hm
  rwa [length_salsa208] at this

/-- What stands in BM and X after BLOCKMIX. -/
theorem load_dataEffect_blockmix (s : State) (r : Byte) (hr : 1 ≤ r.toNat) (hm : s.mem.wf = true) :
    (dataEffect (.blockmix r) s).mem.loadBytes bmBase (128 * r.toNat) = (blockmix (bmOperand s r) r.toNat).1 ∧
    (dataEffect (.blockmix r) s).mem.loadBytes xBase 64 = (blockmix (bmOperand s r) r.toNat).2 := by
  rw [dataEffect_mem]
  simp only
  have l1 := length_blockmix_fst (bmOperand s r) r.toNat
  have l2 := length_blockmix_snd (bmOperand s r) r.toNat hr
  constructor
  · rw [Memory.loadBytes_storeBytes_disjoint _ _ _ _ _ (by rw [l2]; simp [xBase, bmBase])]
    have := Memory.loadBytes_storeBytes s.mem bmBase (blockmix (bmOperand s r) r.toNat).1 hm
    rwa [l1] at this
  · have := Memory.loadBytes_storeBytes (s.mem.storeBytes bmBase (blockmix (bmOperand s r) r.toNat).1) xBase
      (blockmix (bmOperand s r) r.toNat).2 (Memory.storeBytes_wf _ _ _ hm)
    rwa [l2] at this

end Sys2Proof.Machine
end

