-- ==== Sys2Proof/Laws/Port.lean ====
section
/-! SUPPORT. The address map both ways, and everything a transaction can do, said once. -/

namespace Sys2Proof.Machine

/-! Where a target of the map stands. -/

/-- The map in its two parts: the scalar registers, then the buffers. -/
theorem targetAt_cases (rMax : Byte) (off : Nat) (t : Target) (h : targetAt rMax off = t) :
    (off = 0x0000 ∧ t = .id) ∨ (off = 0x0004 ∧ t = .param) ∨ (off = 0x0008 ∧ t = .status) ∨
    (off = 0x000C ∧ t = .irqEn) ∨ (off = 0x0010 ∧ t = .cmd) ∨ (off = 0x0014 ∧ t = .lenLo) ∨
    (off = 0x0018 ∧ t = .lenHi) ∨
    (0x0020 ≤ off ∧ off ≤ 0x003C ∧ t = .digest (off - 0x0020)) ∨
    (0x0040 ≤ off ∧ off ≤ 0x007C ∧ t = .msg (off - 0x0040)) ∨
    (0x00C0 ≤ off ∧ off ≤ 0x00FC ∧ t = .x (off - 0x00C0)) ∨
    (0x8000 ≤ off ∧ off + 4 ≤ 0x8000 + bmSize rMax ∧ t = .bm (off - 0x8000)) ∨
    t = .reserved := by
  subst h
  unfold targetAt
  split <;> try simp
  unfold bufferAt
  split_ifs <;> simp_all

theorem targetAt_msg (rMax : Byte) (off k : Nat) (h : targetAt rMax off = .msg k) :
    off = msgBase + k ∧ k ≤ 60 := by
  have := targetAt_cases rMax off _ h
  simp only [reduceCtorEq, and_false, false_or, or_false, Target.msg.injEq] at this
  unfold msgBase
  omega

theorem targetAt_x (rMax : Byte) (off k : Nat) (h : targetAt rMax off = .x k) :
    off = xBase + k ∧ k ≤ 60 := by
  have := targetAt_cases rMax off _ h
  simp only [reduceCtorEq, and_false, false_or, or_false, Target.x.injEq] at this
  unfold xBase
  omega

theorem targetAt_bm (rMax : Byte) (off k : Nat) (h : targetAt rMax off = .bm k) :
    off = bmBase + k ∧ k + 4 ≤ bmSize rMax := by
  have := targetAt_cases rMax off _ h
  simp only [reduceCtorEq, and_false, false_or, or_false, Target.bm.injEq] at this
  unfold bmBase
  omega

theorem targetAt_digest (rMax : Byte) (off k : Nat) (h : targetAt rMax off = .digest k) :
    off = 0x0020 + k ∧ k ≤ 28 := by
  have := targetAt_cases rMax off _ h
  simp only [reduceCtorEq, and_false, false_or, or_false, Target.digest.injEq] at this
  omega

theorem targetAt_status (rMax : Byte) (off : Nat) (h : targetAt rMax off = .status) : off = 0x0008 := by
  have := targetAt_cases rMax off _ h
  simpa only [reduceCtorEq, and_false, false_or, or_false, and_true] using this

theorem targetAt_irqEn (rMax : Byte) (off : Nat) (h : targetAt rMax off = .irqEn) : off = 0x000C := by
  have := targetAt_cases rMax off _ h
  simpa only [reduceCtorEq, and_false, false_or, or_false, and_true] using this

theorem targetAt_cmd (rMax : Byte) (off : Nat) (h : targetAt rMax off = .cmd) : off = 0x0010 := by
  have := targetAt_cases rMax off _ h
  simpa only [reduceCtorEq, and_false, false_or, or_false, and_true] using this

/-- From 0x20 on the map is that of the buffers. -/
theorem targetAt_of_ge (rMax : Byte) (off : Nat) (h : 0x0020 ≤ off) : targetAt rMax off = bufferAt rMax off := by
  unfold targetAt
  split <;> first | omega | rfl

theorem targetAt_of_digest (rMax : Byte) (k : Nat) (h : k ≤ 28) : targetAt rMax (0x0020 + k) = .digest k := by
  rw [targetAt_of_ge _ _ (by omega), bufferAt, if_pos (by omega), Nat.add_sub_cancel_left]

theorem targetAt_of_msg (rMax : Byte) (k : Nat) (h : k ≤ 60) : targetAt rMax (msgBase + k) = .msg k := by
  unfold msgBase
  rw [targetAt_of_ge _ _ (by omega), bufferAt, if_neg (by omega), if_pos (by omega), Nat.add_sub_cancel_left]

theorem targetAt_of_x (rMax : Byte) (k : Nat) (h : k ≤ 60) : targetAt rMax (xBase + k) = .x k := by
  unfold xBase
  rw [targetAt_of_ge _ _ (by omega), bufferAt, if_neg (by omega), if_neg (by omega), if_pos (by omega), Nat.add_sub_cancel_left]

theorem targetAt_of_bm (rMax : Byte) (k : Nat) (h : k + 4 ≤ bmSize rMax) : targetAt rMax (bmBase + k) = .bm k := by
  unfold bmBase
  rw [targetAt_of_ge _ _ (by omega), bufferAt, if_neg (by omega), if_neg (by omega), if_neg (by omega), if_pos (by omega), Nat.add_sub_cancel_left]

/-- The four bytes of a word read from the storage. -/
theorem word_loadBytes (m : Memory) (a : Nat) :
    fromLe32At (m.loadBytes a 4) 0 =
      joinBytes (m.read (a + 3)) (m.read (a + 2)) (m.read (a + 1)) (m.read a) := rfl

/-- `BusRead` in its two cases. -/
theorem busRead_cases (s : State) (off : Offset) :
    (s.busy = true ∧ (targetAt s.rMax off.toNat).isData = true ∧ busRead s off = draw s) ∨
    ((s.busy && (targetAt s.rMax off.toNat).isData) = false ∧
      busRead s off = (targetWord s (targetAt s.rMax off.toNat), s)) := by
  simp only [busRead]
  split
  · next h => exact .inl ⟨(Bool.and_eq_true _ _ ▸ h).1, (Bool.and_eq_true _ _ ▸ h).2, rfl⟩
  · next h => exact .inr ⟨by simpa using h, rfl⟩

/-- `BusWrite` in its two cases. -/
theorem busWrite_cases (s : State) (off : Offset) (v : Word) :
    (s.busy = true ∧ (targetAt s.rMax off.toNat).isGuarded = true ∧ busWrite s off v = raiseError s .busyWr) ∨
    ((s.busy && (targetAt s.rMax off.toNat).isGuarded) = false ∧
      busWrite s off v = writeTarget s v (targetAt s.rMax off.toNat)) := by
  simp only [busWrite]
  split
  · next h => exact .inl ⟨(Bool.and_eq_true _ _ ▸ h).1, (Bool.and_eq_true _ _ ▸ h).2, rfl⟩
  · next h => exact .inr ⟨by simpa using h, rfl⟩

/-- Presenting a command: an error, or acceptance of a legal word. -/
theorem presentCommand_cases (s : State) (v : Word) :
    (∃ c, decode s.rMax v = .error c ∧ presentCommand s v = raiseError s c) ∨
    (∃ i, decode s.rMax v = .ok i ∧ presentCommand s v = accept s (opField v) (argField v)) := by
  simp only [presentCommand]
  split
  · next c h => exact .inl ⟨c, h, rfl⟩
  · next i h => exact .inr ⟨i, h, rfl⟩

/-- A read changes nothing of the block: at most a draw is counted and the word handed out. -/
theorem hostRead_next (s t : State) (off : Offset) (h : hostRead s off = .next t) :
    aligned off = true ∧ ∃ v n, t = { s with draws := n, reads := v :: s.reads } := by
  simp only [hostRead] at h
  split at h
  · next ha =>
    refine ⟨ha, ?_⟩
    rcases busRead_cases s off with ⟨_, _, hr⟩ | ⟨_, hr⟩
    · exact ⟨_, s.draws + 1, by rw [hr] at h; simpa [draw] using h.symm⟩
    · exact ⟨_, s.draws, by rw [hr] at h; simpa using h.symm⟩
  · cases h

theorem hostWrite_next (s t : State) (off : Offset) (v : Word) (h : hostWrite s off v = .next t) :
    aligned off = true ∧ t = busWrite s off v := by
  simp only [hostWrite] at h
  split at h
  · next ha => exact ⟨ha, by simpa using h.symm⟩
  · cases h

/-- No write from the port changes H, LEN, K0, the parameter, or the model's own fields. -/
theorem busWrite_frame (s : State) (off : Offset) (v : Word) :
    (busWrite s off v).h = s.h ∧ (busWrite s off v).len = s.len ∧ (busWrite s off v).k0 = s.k0 ∧
    (busWrite s off v).rMax = s.rMax ∧ (busWrite s off v).events = s.events ∧
    (busWrite s off v).reads = s.reads ∧ (busWrite s off v).draws = s.draws := by
  rcases busWrite_cases s off v with ⟨_, _, h⟩ | ⟨_, h⟩ <;> rw [h]
  · simp
  · cases targetAt s.rMax off.toNat <;> simp only [writeTarget]
    case cmd => rcases presentCommand_cases s v with ⟨c, _, h⟩ | ⟨i, _, h⟩ <;> rw [h] <;> simp
    all_goals simp

/-- While BUSY = 1 a write changes at most DONE, ERR, ECODE and IRQ_EN. -/
theorem busWrite_busy (s : State) (off : Offset) (v : Word) (hb : s.busy = true) :
    (busWrite s off v).mem = s.mem ∧ (busWrite s off v).busy = true ∧ (busWrite s off v).pend = s.pend := by
  rcases busWrite_cases s off v with ⟨_, _, h⟩ | ⟨hg, h⟩ <;> rw [h]
  · simp [hb]
  · cases ht : targetAt s.rMax off.toNat <;> simp [ht, hb, Target.isGuarded] at hg <;> simp [writeTarget, hb]

end Sys2Proof.Machine
end

