-- ==== Sys2Proof/Laws/Step.lean ====
section
/-! SUPPORT. Everything a step can do, said once, and the shape of a run over listed events. -/

namespace Sys2Proof.Machine

/-- A step that goes on: with no event left, the engine's turn; else the first event, taken off the list. -/
theorem step_cases (s t : State) (h : step s = .next t) :
    (s.events = [] ∧ engineTurn s = .next t) ∨
    (∃ off rest, s.events = .read off :: rest ∧ hostRead { s with events := rest } off = .next t) ∨
    (∃ off v rest, s.events = .write off v :: rest ∧ hostWrite { s with events := rest } off v = .next t) ∨
    (∃ rest, s.events = .completion :: rest ∧ engineTurn { s with events := rest } = .next t) ∨
    (∃ rest, s.events = .reset :: rest ∧ t = resetBlock { s with events := rest }) := by
  simp only [step] at h
  split at h
  · next he => exact .inl ⟨he, h⟩
  · next e rest he =>
    cases e with
    | read off => exact .inr (.inl ⟨off, rest, he, h⟩)
    | write off v => exact .inr (.inr (.inl ⟨off, v, rest, he, h⟩))
    | completion => exact .inr (.inr (.inr (.inl ⟨rest, he, h⟩)))
    | reset => exact .inr (.inr (.inr (.inr ⟨rest, he, by simpa [takeEvent] using h.symm⟩)))

/-- The engine's turn that goes on: the pending command's `exec`, or nothing on an idle block. -/
theorem engineTurn_cases (s t : State) (h : engineTurn s = .next t) :
    (s.busy = false ∧ t = s) ∨
    (s.busy = true ∧ ∃ i, pendingCommand s = some i ∧ exec i s = .next t) := by
  simp only [engineTurn] at h
  split at h
  · next hb =>
    split at h
    · next i hi => exact .inr ⟨hb, i, hi, h⟩
    · cases h
  · next hb => exact .inl ⟨by simpa using hb, by simpa using h.symm⟩

/-- A pending command is well-formed, and PEND is its encoding. -/
theorem pendingCommand_wellFormed (s : State) (i : Instr) (h : pendingCommand s = some i) :
    i.wellFormed s.rMax = true ∧ s.pend = some ⟨opcodeOf i, argOf i⟩ := by
  unfold pendingCommand at h
  split at h
  · cases h
  · next p hp =>
    split at h
    · next j hj =>
      cases h
      have := decodeFields_ok s.rMax p.op p.arg i hj
      exact ⟨this.1, by rw [hp, this.2.1, this.2.2]⟩
    · cases h

/-- A completed pending command: the engine's turn on a busy block. -/
theorem engineTurn_busy (s : State) (i : Instr) (hb : s.busy = true) (hi : pendingCommand s = some i) :
    engineTurn s = .next (complete (dataEffect i s)) := by
  simp only [engineTurn, hb, hi, if_true]
  exact exec_of_wellFormed i s (pendingCommand_wellFormed s i hi).1

theorem step_event (s : State) (e : Event) (rest : List Event) (h : s.events = e :: rest) :
    step s = takeEvent { s with events := rest } e := by
  simp [step, h]

/-- A run over listed events, one after the other. -/
theorem run_succ_event (s : State) (e : Event) (rest : List Event) (k : Nat) (h : s.events = e :: rest) :
    Sys2Proof.core.run (k + 1) s =
      match takeEvent { s with events := rest } e with
      | .next t => Sys2Proof.core.run k t
      | .fault r => .fault r
      | .refused r => .refused r := by
  have hs : Sys2Proof.core.step s = takeEvent { s with events := rest } e := step_event s e rest h
  simp only [Host.Core.run, hs]
  cases takeEvent { s with events := rest } e <;> rfl

/-- The engine's turn that goes on, in full: nothing on an idle block, else the pending command completed. -/
theorem engineTurn_next (s t : State) (h : engineTurn s = .next t) :
    (s.busy = false ∧ t = s) ∨
    (s.busy = true ∧ ∃ i, pendingCommand s = some i ∧ i.wellFormed s.rMax = true ∧
      t = complete (dataEffect i s)) := by
  rcases engineTurn_cases s t h with h | ⟨hb, i, hi, he⟩
  · exact .inl h
  · have hw := (pendingCommand_wellFormed s i hi).1
    rw [exec_of_wellFormed _ _ hw, Host.Outcome.next.injEq] at he
    exact .inr ⟨hb, i, hi, hw, he.symm⟩

theorem pendingCommand_congr (s u : State) (h : u.pend = s.pend) (hr : u.rMax = s.rMax) :
    pendingCommand u = pendingCommand s := by
  unfold pendingCommand
  rw [h, hr]

end Sys2Proof.Machine
end

