-- ==== Sys2Proof/Laws/Units.lean ====
section
/-! SUPPORT. The units as functions: what `finalize`, `absorb` and `sha256` are on the strings they are given. Neither
`compress` nor `salsa208` is ever unfolded. -/

namespace Sys2Proof.Machine

/-- `finalize` reads the first `n` bytes only. -/
theorem finalize_take (h : HashState) (l : Word64) (s : List Byte) (n : Nat) :
    finalize h l (s.take n) n = finalize h l s n := by
  unfold finalize
  simp [List.take_take]

theorem finalize_snd (h : HashState) (l : Word64) (s : List Byte) (n : Nat) :
    (finalize h l s n).2 = l + BitVec.ofNat 64 (8 * n) := by
  unfold finalize
  simp only
  split <;> rfl

theorem absorb_one (h : HashState) (b : List Byte) (hb : b.length = 64) : absorb 1 h b = compress h b := by
  rw [absorb, absorb, List.take_of_length_le (by omega)]

/-- The last of `q + 1` blocks. -/
theorem absorb_last (q : Nat) (h : HashState) (m : List Byte) :
    absorb (q + 1) h m = compress (absorb q h m) (subBlock m q) := by
  induction q generalizing h m with
  | zero => rfl
  | succ q ih =>
    rw [absorb, ih, absorb]
    congr 1
    simp only [subBlock, List.drop_drop]
    congr 2
    omega

theorem length_sha256 (m : List Byte) : (sha256 m).length = 32 := length_digest _

/-- `sha256` of a message whose first block is `p`. -/
theorem sha256_cons (p m : List Byte) (hp : p.length = 64) :
    sha256 (p ++ m) =
      digest (finalize (absorb (m.length / 64) (compress iv p) m)
        (512 + BitVec.ofNat 64 (512 * (m.length / 64))) (m.drop (64 * (m.length / 64))) (m.length % 64)).1 := by
  have hq : (p ++ m).length / 64 = m.length / 64 + 1 := by simp [hp]
  have hr : (p ++ m).length % 64 = m.length % 64 := by simp [hp]
  have hd : (p ++ m).drop (64 * (m.length / 64 + 1)) = m.drop (64 * (m.length / 64)) := by
    rw [Nat.mul_add, Nat.add_comm, ← List.drop_drop, List.drop_left' (by omega)]
  rw [sha256]
  simp only [hq, hr]
  rw [absorb, List.take_left' hp, List.drop_left' hp, hd, Nat.mul_add, BitVec.ofNat_add, BitVec.add_comm,
    show BitVec.ofNat 64 (512 * 1) = 512 by decide]

/-- XOR with a constant block. -/
theorem xorBytes_rep (l : List Byte) (c : Byte) (h : l.length = 64) :
    xorBytes l (rep c 64) = l.map fun b => b ^^^ c := by
  unfold xorBytes
  apply List.ext_getElem
  · simp [h]
  · intro i h1 h2
    simp only [List.getElem_zipWith, rep, List.getElem_replicate, List.getElem_map]

theorem fromLe_append (a b : List Byte) : fromLe (a ++ b) = fromLe a + 256 ^ a.length * fromLe b := by
  induction a with
  | nil => simp [fromLe]
  | cons x a ih =>
    simp only [List.cons_append, fromLe, ih, List.length_cons, Nat.pow_succ]
    ring

end Sys2Proof.Machine
end

