-- ==== Sys2Proof/Laws/Run.lean ====
section
/-! SUPPORT. Runs over a list of events, said once: `play` event by event, and what the statements of the host
script notation (30_encoding.md R89) do to an idle block. -/

namespace Sys2Proof.Machine

/-- The state an outcome goes on with, if it does. -/
def nextOf : Host.Outcome State Fault Refusal → Option State
  | .next t => some t
  | .fault _ => none
  | .refused _ => none

/-! ### The list of events and the step on its head do not disturb each other -/

/-- `f` applied to the next state, a stop kept. -/
def mapNext (f : State → State) : Host.Outcome State Fault Refusal → Host.Outcome State Fault Refusal
  | .next t => .next (f t)
  | .fault r => .fault r
  | .refused r => .refused r

/-- The same block with other events still to come. -/
def withEvents (s : State) (es : List Event) : State := { s with events := es }

@[simp] theorem withEvents_events (s : State) (es : List Event) : (withEvents s es).events = es := (rfl)
@[simp] theorem withEvents_withEvents (s : State) (es fs : List Event) :
    withEvents (withEvents s es) fs = withEvents s fs := (rfl)
theorem withEvents_self (s : State) : withEvents s s.events = s := (rfl)

theorem complete_withEvents (s : State) (es : List Event) :
    complete (withEvents s es) = withEvents (complete s) es := rfl

theorem raiseError_withEvents (s : State) (es : List Event) (c : ErrorCode) :
    raiseError (withEvents s es) c = withEvents (raiseError s c) es := by
  by_cases h : s.err = true <;> simp [raiseError, withEvents, h]

theorem setHash_withEvents (s : State) (es : List Event) (a : HashState) (b : Word64) :
    setHash (withEvents s es) a b = withEvents (setHash s a b) es := rfl

theorem setK0_withEvents (s : State) (es : List Event) (v : List Byte) :
    setK0 (withEvents s es) v = withEvents (setK0 s v) es := rfl

theorem setX_withEvents (s : State) (es : List Event) (v : List Byte) :
    setX (withEvents s es) v = withEvents (setX s v) es := rfl

theorem setBm_withEvents (s : State) (es : List Event) (v : List Byte) :
    setBm (withEvents s es) v = withEvents (setBm s v) es := rfl

theorem dataEffect_withEvents (i : Instr) (s : State) (es : List Event) :
    dataEffect i (withEvents s es) = withEvents (dataEffect i s) es := by
  cases i <;> rfl

theorem exec_withEvents (i : Instr) (s : State) (es : List Event) :
    exec i (withEvents s es) = mapNext (withEvents · es) (exec i s) := by
  rw [exec_eq, exec_eq, dataEffect_withEvents, complete_withEvents, raiseError_withEvents]
  show Host.Outcome.next (if i.wellFormed s.rMax then _ else _) = _
  cases i.wellFormed s.rMax <;> rfl

theorem writeTarget_withEvents (s : State) (es : List Event) (v : Word) (t : Target) :
    writeTarget (withEvents s es) v t = withEvents (writeTarget s v t) es := by
  cases t
  case status =>
    simp only [writeTarget, writeStatus]
    cases v.getLsbD 1 <;> cases v.getLsbD 2 <;> rfl
  case cmd =>
    simp only [writeTarget, presentCommand]
    show (match decode s.rMax v with | .error c => _ | .ok _ => _) = _
    cases decode s.rMax v with
    | error c => exact raiseError_withEvents s es c
    | ok i => rfl
  all_goals rfl

theorem busWrite_withEvents (s : State) (es : List Event) (off : Offset) (v : Word) :
    busWrite (withEvents s es) off v = withEvents (busWrite s off v) es := by
  simp only [busWrite, writeTarget_withEvents, raiseError_withEvents]
  show (if s.busy && (targetAt s.rMax off.toNat).isGuarded then _ else _) = _
  split <;> rfl

theorem targetWord_withEvents (s : State) (es : List Event) (t : Target) :
    targetWord (withEvents s es) t = targetWord s t := by
  cases t <;> rfl

theorem busRead_withEvents (s : State) (es : List Event) (off : Offset) :
    busRead (withEvents s es) off = ((busRead s off).1, withEvents (busRead s off).2 es) := by
  simp only [busRead]
  show (if s.busy && (targetAt s.rMax off.toNat).isData then _ else _) = _
  split
  · rfl
  · rw [targetWord_withEvents]
    rfl

theorem takeEvent_withEvents (s : State) (es : List Event) (e : Event) :
    takeEvent (withEvents s es) e = mapNext (withEvents · es) (takeEvent s e) := by
  cases e with
  | read off =>
    simp only [takeEvent, hostRead, busRead_withEvents]
    cases aligned off <;> rfl
  | write off v =>
    simp only [takeEvent, hostWrite, busWrite_withEvents]
    cases aligned off <;> rfl
  | completion =>
    simp only [takeEvent, engineTurn]
    show (if s.busy then (match pendingCommand s with | some i => _ | none => _) else _) = _
    cases s.busy with
    | false => rfl
    | true =>
      cases pendingCommand s with
      | none => rfl
      | some i => exact exec_withEvents i s es
  | reset => rfl

/-- A step never looks at the events behind the one it takes, and keeps them. -/
theorem takeEvent_events (s t : State) (e : Event) (h : takeEvent s e = .next t) : t.events = s.events := by
  have := takeEvent_withEvents s s.events e
  rw [withEvents_self, h] at this
  simp only [mapNext, Host.Outcome.next.injEq] at this
  rw [this, withEvents_events]

/-! ### `play`, event by event -/

@[simp] theorem play_nil (s : State) : play s [] = some (withEvents s []) := rfl

theorem run_eq_play (s : State) (es fs : List Event) :
    nextOf (Sys2Proof.core.run es.length (withEvents s (es ++ fs))) =
      (play s es).map (withEvents · fs) := by
  induction es generalizing s with
  | nil => rfl
  | cons e es ih =>
    have h (gs : List Event) := run_succ_event (withEvents s (e :: gs)) e gs es.length rfl
    have hg (gs : List Event) : ({ withEvents s (e :: gs) with events := gs } : State) = withEvents s gs := rfl
    unfold play
    show nextOf (Sys2Proof.core.run (es.length + 1) (withEvents s (e :: (es ++ fs)))) =
      Option.map _ (match Sys2Proof.core.run (es.length + 1) (withEvents s (e :: es)) with
        | .next t => some t | .fault _ => none | .refused _ => none)
    rw [h, h, hg, hg, takeEvent_withEvents, takeEvent_withEvents]
    cases takeEvent s e with
    | next t =>
      simp only [mapNext]
      rw [ih t]
      rfl
    | fault r => rfl
    | refused r => rfl

/-- Playing one event more. -/
theorem play_cons (s : State) (e : Event) (es : List Event) :
    play s (e :: es) = (nextOf (takeEvent (withEvents s []) e)).bind (play · es) := by
  have h := run_succ_event (withEvents s (e :: es)) e es es.length rfl
  have hg : ({ withEvents s (e :: es) with events := es } : State) = withEvents s es := rfl
  unfold play
  show (match Sys2Proof.core.run (es.length + 1) (withEvents s (e :: es)) with
        | .next t => some t | .fault _ => none | .refused _ => none) = _
  rw [h, hg, takeEvent_withEvents, takeEvent_withEvents]
  cases takeEvent s e <;> rfl

theorem play_withEvents (s : State) (fs es : List Event) : play (withEvents s fs) es = play s es := rfl

/-- A script in two parts. -/
theorem play_append (s : State) (es fs : List Event) :
    play s (es ++ fs) = (play s es).bind (play · fs) := by
  induction es generalizing s with
  | nil => simp [play_withEvents]
  | cons e es ih =>
    rw [List.cons_append, play_cons, play_cons]
    cases nextOf (takeEvent (withEvents s []) e) with
    | none => rfl
    | some t => exact ih t

/-- `playDump` through `play`. -/
theorem playDump_eq (s t : State) (es : List Event) (n : Nat) (h : play s es = some t) :
    playDump s es n = some (dumped t.reads n, t) := by
  simp [playDump, h]

theorem play_write (s : State) (off : Offset) (v : Word) (es : List Event) (ha : aligned off = true) :
    play s (.write off v :: es) = play (busWrite s off v) es := by
  rw [play_cons]
  simp only [takeEvent, hostWrite, ha, if_true, nextOf, busWrite_withEvents, Option.bind_some, play_withEvents]

/-- The block after the host has read a word. -/
def handOut (s : State) (v : Word) : State := { s with reads := v :: s.reads }

theorem play_read (s : State) (off : Offset) (es : List Event) (ha : aligned off = true) :
    play s (.read off :: es) = play (handOut (busRead s off).2 (busRead s off).1) es := by
  rw [play_cons]
  simp only [takeEvent, hostRead, ha, if_true, nextOf, busRead_withEvents, Option.bind_some]
  rcases busRead_cases s off with ⟨_, _, h⟩ | ⟨_, h⟩ <;> rw [h] <;> rfl

theorem play_completion_busy (s : State) (i : Instr) (es : List Event) (hb : s.busy = true)
    (hi : pendingCommand s = some i) :
    play s (.completion :: es) = play (complete (dataEffect i s)) es := by
  rw [play_cons]
  simp only [takeEvent]
  rw [engineTurn_busy (withEvents s []) i hb hi, dataEffect_withEvents, complete_withEvents]
  rfl

theorem play_completion_idle (s : State) (es : List Event) (hb : s.busy = false) :
    play s (.completion :: es) = play s es := by
  rw [play_cons]
  have : engineTurn (withEvents s []) = .next (withEvents s []) := by
    unfold engineTurn
    rw [if_neg (by simp [withEvents, hb])]
  simp only [takeEvent, this, nextOf, Option.bind_some, play_withEvents]

/-! ### The statements of the script notation, on an idle block -/

theorem aligned_offsetAt (a : Nat) (h : a % 4 = 0) : aligned (offsetAt a) = true := by
  simp only [aligned, offsetAt, BitVec.toNat_ofNat, decide_eq_true_eq]
  omega

theorem toNat_offsetAt (a : Nat) (h : a < 65536) : (offsetAt a).toNat = a := by
  simp only [offsetAt, BitVec.toNat_ofNat]
  omega

/-- A buffer offset is below the end of the window. -/
theorem bufferOffset_lt (rMax : Byte) (a : Nat) (h : bufferOffset rMax a) : a < 65536 := by
  have := rMax.isLt
  unfold bufferOffset at h
  omega

/-- The target of a buffer offset. -/
theorem targetAt_buffer (rMax : Byte) (a : Nat) (ha : a % 4 = 0) (h : bufferOffset rMax a) :
    (∃ k, targetAt rMax a = .msg k ∧ a = msgBase + k) ∨ (∃ k, targetAt rMax a = .x k ∧ a = xBase + k) ∨
    (∃ k, targetAt rMax a = .bm k ∧ a = bmBase + k) := by
  unfold bufferOffset at h
  rcases h with h | h | h
  · have he : a = msgBase + (a - 0x0040) := by unfold msgBase; omega
    exact .inl ⟨_, by conv => lhs; rw [he]
                      exact targetAt_of_msg rMax (a - 0x0040) (by omega), he⟩
  · have he : a = xBase + (a - 0x00C0) := by unfold xBase; omega
    exact .inr (.inl ⟨_, by conv => lhs; rw [he]
                            exact targetAt_of_x rMax (a - 0x00C0) (by omega), he⟩)
  · have he : a = bmBase + (a - 0x8000) := by unfold bmBase; omega
    exact .inr (.inr ⟨_, by conv => lhs; rw [he]
                            exact targetAt_of_bm rMax (a - 0x8000) (by unfold bmSize; omega), he⟩)

/-- A write of an idle block to a buffer stores the word. -/
theorem busWrite_buffer (s : State) (off : Offset) (v : Word) (hb : s.busy = false) (ha : off.toNat % 4 = 0)
    (h : bufferOffset s.rMax off.toNat) : busWrite s off v = storeWord s off.toNat v := by
  simp only [busWrite, hb, Bool.false_and]
  rcases targetAt_buffer s.rMax off.toNat ha h with ⟨k, ht, he⟩ | ⟨k, ht, he⟩ | ⟨k, ht, he⟩ <;>
    · rw [ht, he]
      rfl

/-- A read of an idle block at a buffer gives the four stored bytes. -/
theorem busRead_buffer (s : State) (off : Offset) (hb : s.busy = false) (ha : off.toNat % 4 = 0)
    (h : bufferOffset s.rMax off.toNat) :
    busRead s off = (fromLe32At (s.mem.loadBytes off.toNat 4) 0, s) := by
  simp only [busRead, hb, Bool.false_and]
  rcases targetAt_buffer s.rMax off.toNat ha h with ⟨k, ht, he⟩ | ⟨k, ht, he⟩ | ⟨k, ht, he⟩ <;>
    · rw [ht, he]
      rfl

theorem Memory.storeBytes_append (m : Memory) (a : Nat) (s t : List Byte) :
    m.storeBytes a (s ++ t) = (m.storeBytes a s).storeBytes (a + s.length) t := by
  induction s generalizing m a with
  | nil => rfl
  | cons b s ih =>
    rw [List.cons_append, Memory.storeBytes, Memory.storeBytes, ih, List.length_cons,
      show a + 1 + s.length = a + (s.length + 1) by omega]

/-- A word of a string, stored little-endian, is four bytes of the string. -/
theorem le32_fromLe32At (s : List Byte) (k : Nat) (h : k + 4 ≤ s.length) :
    le32 (fromLe32At s k) = (s.drop k).take 4 := by
  rw [fromLe32At, le32_joinBytes]
  have hd (j : Nat) (hj : j < s.length) : byteAt s j = s[j] := by
    simp [byteAt, List.getD, hj]
  rw [hd k (by omega), hd (k + 1) (by omega), hd (k + 2) (by omega), hd (k + 3) (by omega),
    List.drop_eq_getElem_cons (by omega), List.drop_eq_getElem_cons (by omega),
    List.drop_eq_getElem_cons (by omega), List.drop_eq_getElem_cons (by omega)]
  rfl

theorem length_padToWord (s : List Byte) :
    (padToWord s).length % 4 = 0 ∧ s.length ≤ (padToWord s).length ∧ (padToWord s).length < s.length + 4 := by
  simp only [padToWord, List.length_append, length_rep]
  omega

/-- A buffer of the instance, from its first byte, with room for `n` bytes. -/
def bufferRoom (rMax : Byte) (base n : Nat) : Prop :=
  (base = msgBase ∧ n ≤ 64) ∨ (base = xBase ∧ n ≤ 64) ∨ (base = bmBase ∧ n ≤ 128 * rMax.toNat)

theorem bufferRoom_offset (rMax : Byte) (base n i : Nat) (h : bufferRoom rMax base n) (hi : 4 * i < n) :
    (base + 4 * i) % 4 = 0 ∧ bufferOffset rMax (base + 4 * i) := by
  unfold bufferRoom msgBase xBase bmBase at h
  unfold bufferOffset
  omega

/-- `LOAD buf, bytes`: the padded string stands at the start of the buffer, nothing else changes. -/
theorem play_load (s : State) (base : Nat) (bs : List Byte) (hb : s.busy = false)
    (h : bufferRoom s.rMax base bs.length) :
    play s (load base bs) = some { s with mem := s.mem.storeBytes base (padToWord bs), events := [] } := by
  have hlen := length_padToWord bs
  have key : ∀ k, 4 * k ≤ (padToWord bs).length →
      play s ((List.range k).map fun i =>
        .write (offsetAt (base + 4 * i)) (fromLe32At (padToWord bs) (4 * i))) =
      some { s with mem := s.mem.storeBytes base ((padToWord bs).take (4 * k)), events := [] } := by
    intro k
    induction k with
    | zero => intro _; rfl
    | succ k ih =>
      intro hk
      rw [List.range_succ, List.map_append, play_append, ih (by omega)]
      simp only [Option.bind_some, List.map_cons, List.map_nil]
      have ho := bufferRoom_offset s.rMax base bs.length k h (by omega)
      have hn : (offsetAt (base + 4 * k)).toNat = base + 4 * k :=
        toNat_offsetAt _ (bufferOffset_lt _ _ ho.2)
      rw [play_write _ _ _ _ (aligned_offsetAt _ ho.1),
        busWrite_buffer { s with mem := _, events := [] } _ _ hb (by rw [hn]; exact ho.1) (by rw [hn]; exact ho.2),
        hn, play_nil]
      have ht : (padToWord bs).take (4 * (k + 1)) =
          (padToWord bs).take (4 * k) ++ le32 (fromLe32At (padToWord bs) (4 * k)) := by
        rw [le32_fromLe32At _ _ (by omega), show 4 * (k + 1) = 4 * k + 4 by omega, List.take_add]
      have hl : ((padToWord bs).take (4 * k)).length = 4 * k := by
        rw [List.length_take]; omega
      rw [ht, Memory.storeBytes_append, hl]
      rfl
  have := key ((padToWord bs).length / 4) (by omega)
  rw [List.take_of_length_le (by omega)] at this
  exact this

/-- `DUMP`: the words at the offsets, each handed to the host. -/
theorem play_dump (s : State) (base n : Nat) (w : Nat → Word)
    (h : ∀ i < (n + 3) / 4, (base + 4 * i) % 4 = 0 ∧ base + 4 * i < 65536 ∧
      busRead s (offsetAt (base + 4 * i)) = (w i, s)) :
    play s (dump base n) =
      some { s with reads := ((List.range ((n + 3) / 4)).map w).reverse ++ s.reads, events := [] } := by
  unfold dump
  generalize hm : (n + 3) / 4 = m at h
  clear hm
  induction m with
  | zero => rfl
  | succ m ih =>
    have hr (t : State) (ht : t = { s with reads := t.reads, events := [] }) :
        busRead t (offsetAt (base + 4 * m)) = (w m, t) := by
      have h1 := (h m (by omega)).2.2
      rcases busRead_cases s (offsetAt (base + 4 * m)) with ⟨_, _, he⟩ | ⟨hc, he⟩
      · rw [h1] at he
        have := congrArg (fun p => p.2.draws) he
        simp at this
      · rw [h1] at he
        have hw : w m = targetWord s (targetAt s.rMax (offsetAt (base + 4 * m)).toNat) := congrArg Prod.fst he
        rw [hw, busRead, ht, if_neg (by simpa using hc)]
        congr 1
    rw [List.range_succ, List.map_append, play_append, ih fun i hi => h i (by omega)]
    simp only [Option.bind_some, List.map_cons, List.map_nil]
    rw [play_read _ _ _ (aligned_offsetAt _ (h m (by omega)).1), hr _ rfl, play_nil]
    simp only [handOut, withEvents, List.map_append, List.map_cons, List.map_nil, List.reverse_append,
      List.reverse_cons, List.reverse_nil, List.nil_append, List.cons_append]

theorem dumped_append (ws rs : List Word) (n : Nat) (h : ws.length = (n + 3) / 4) :
    dumped (ws.reverse ++ rs) n = (ws.flatMap le32).take n := by
  simp only [dumped]
  have hl : ws.reverse.length = (n + 3) / 4 := by rw [List.length_reverse, h]
  have ht : (ws.reverse ++ rs).take ((n + 3) / 4) = ws.reverse := by rw [← hl, List.take_left]
  rw [ht, List.reverse_reverse]

theorem flatMap_loadBytes (m : Memory) (a k : Nat) :
    ((List.range k).map fun i => fromLe32At (m.loadBytes (a + 4 * i) 4) 0).flatMap le32 =
      m.loadBytes a (4 * k) := by
  induction k with
  | zero => rfl
  | succ k ih =>
    rw [List.range_succ, List.map_append, List.flatMap_append, ih]
    simp only [List.map_cons, List.map_nil, List.flatMap_cons, List.flatMap_nil, List.append_nil]
    rw [le32_fromLe32At _ _ (by simp), List.drop_zero, List.take_of_length_le (by simp)]
    simp only [Memory.loadBytes, show 4 * (k + 1) = 4 * k + 4 by omega, List.range_add, List.map_append,
      List.map_map]
    congr 1

/-- A script that ends with the DUMP of a buffer returns the bytes there. -/
theorem playDump_buffer (s : State) (base n : Nat) (hb : s.busy = false) (h : bufferRoom s.rMax base n) :
    ∃ rs, playDump s (dump base n) n = some (s.mem.loadBytes base n, { s with reads := rs, events := [] }) := by
  have hp := play_dump s base n (fun i => fromLe32At (s.mem.loadBytes (base + 4 * i) 4) 0) (by
    intro i hi
    have ho := bufferRoom_offset s.rMax base n i h (by omega)
    have hn : (offsetAt (base + 4 * i)).toNat = base + 4 * i := toNat_offsetAt _ (bufferOffset_lt _ _ ho.2)
    refine ⟨ho.1, bufferOffset_lt _ _ ho.2, ?_⟩
    rw [busRead_buffer s _ hb (by rw [hn]; exact ho.1) (by rw [hn]; exact ho.2), hn])
  refine ⟨((List.range ((n + 3) / 4)).map
    fun i => fromLe32At (s.mem.loadBytes (base + 4 * i) 4) 0).reverse ++ s.reads, ?_⟩
  rw [playDump_eq _ _ _ _ hp, dumped_append _ _ _ (by simp), flatMap_loadBytes]
  congr 2
  simp only [Memory.loadBytes, ← List.map_take, List.take_range]
  congr 2
  omega

/-- A script that ends with the DUMP of DIGEST returns the digest. -/
theorem playDump_digest (s : State) (hb : s.busy = false) :
    ∃ rs, playDump s (dump digestBase 32) 32 = some (digest s.h, { s with reads := rs, events := [] }) := by
  have hp := play_dump s digestBase 32 (fun i => fromLe32At (digest s.h) (4 * i)) (by
    intro i hi
    have hn : (offsetAt (digestBase + 4 * i)).toNat = digestBase + 4 * i :=
      toNat_offsetAt _ (by unfold digestBase; omega)
    refine ⟨by unfold digestBase; omega, by unfold digestBase; omega, ?_⟩
    simp only [busRead, hb, Bool.false_and, hn]
    rw [digestBase, targetAt_of_digest _ _ (by omega)]
    rfl)
  refine ⟨((List.range ((32 + 3) / 4)).map fun i => fromLe32At (digest s.h) (4 * i)).reverse ++ s.reads, ?_⟩
  rw [playDump_eq _ _ _ _ hp, dumped_append _ _ _ (by simp)]
  congr 2
  have hw : ∀ i ∈ List.range 8, le32 (fromLe32At (digest s.h) (4 * i)) = ((digest s.h).drop (4 * i)).take 4 := by
    intro i hi
    exact le32_fromLe32At _ _ (by have := List.mem_range.1 hi; simp; omega)
  rw [List.flatMap_map]
  show List.take 32 ((List.range 8).flatMap _) = _
  rw [List.flatMap_congr hw]
  rfl

/-! ### RUN -/

/-- The block after a command has run, started from an idle block `s` (R89). -/
structure Ran (i : Instr) (s t : State) : Prop where
  h : t.h = (dataEffect i s).h
  len : t.len = (dataEffect i s).len
  k0 : t.k0 = (dataEffect i s).k0
  mem : t.mem = (dataEffect i s).mem
  busy : t.busy = false
  done : t.done = true
  err : t.err = s.err
  ecode : t.ecode = s.ecode
  ieDone : t.ieDone = s.ieDone
  ieErr : t.ieErr = s.ieErr
  rMax : t.rMax = s.rMax
  events : t.events = []

theorem pendingCommand_accept (s : State) (i : Instr) (h : i.wellFormed s.rMax = true) :
    pendingCommand (accept s (opcodeOf i) (argOf i)) = some i := by
  show (match decodeFields s.rMax (opcodeOf i) (argOf i) with | .ok i => some i | .error _ => none) = _
  rw [decodeFields_opcodeOf, withArg, if_pos h]

/-- A CMD write of a well-formed command to an idle block. -/
theorem busWrite_encode (s : State) (i : Instr) (hb : s.busy = false) (h : i.wellFormed s.rMax = true) :
    busWrite s cmdOffset (encode i) = accept s (opcodeOf i) (argOf i) := by
  show (if s.busy && true then _ else presentCommand s (encode i)) = _
  rw [hb, Bool.false_and, if_neg (by simp), presentCommand, encode, decode_commandWord,
    decodeFields_opcodeOf, withArg, if_pos h]
  simp only [opField_commandWord, argField_commandWord]

/-- A read of STATUS changes nothing of the block. -/
theorem busRead_status (s : State) : busRead s statusOffset = (statusWord s, s) := by
  show (if s.busy && false then _ else _) = _
  rw [Bool.and_false, if_neg (by simp)]
  rfl

/-- The data part of a command does not look at the words handed out. -/
theorem dataEffect_reads (i : Instr) (s : State) (rs : List Word) :
    dataEffect i { s with reads := rs } = { dataEffect i s with reads := rs } := by
  cases i <;> rfl

/-- Polling STATUS. -/
theorem play_polls (s : State) (n : Nat) (es : List Event) :
    ∃ rs, play s (List.replicate n (.read statusOffset) ++ es) = play { s with reads := rs } es := by
  induction n generalizing s with
  | zero => exact ⟨s.reads, rfl⟩
  | succ n ih =>
    rw [List.replicate_succ, List.cons_append, play_read _ _ _ rfl, busRead_status]
    obtain ⟨rs, h⟩ := ih (handOut s (statusWord s))
    exact ⟨rs, h⟩

/-- `WAIT` with a command pending. -/
theorem play_wait_busy (s : State) (i : Instr) (polls : Nat) (hb : s.busy = true)
    (hi : pendingCommand s = some i) :
    ∃ rs, play s (wait polls) =
      some { complete (dataEffect i s) with
        reads := statusWord (complete (dataEffect i s)) :: rs, events := [] } := by
  obtain ⟨rs, h⟩ := play_polls s polls [.completion, .read statusOffset]
  refine ⟨rs, ?_⟩
  rw [wait, h, play_completion_busy { s with reads := rs } i _ hb hi, dataEffect_reads, play_read _ _ _ rfl, busRead_status,
    play_nil]
  rfl

/-- `WAIT` on an idle block. -/
theorem play_wait_idle (s : State) (polls : Nat) (hb : s.busy = false) :
    ∃ rs, play s (wait polls) = some { s with reads := statusWord s :: rs, events := [] } := by
  obtain ⟨rs, h⟩ := play_polls s polls [.completion, .read statusOffset]
  refine ⟨rs, ?_⟩
  rw [wait, h, play_completion_idle { s with reads := rs } _ hb, play_read _ _ _ rfl, busRead_status, play_nil]
  rfl

/-- `RUN mnemonic [arg]` on an idle block. -/
theorem play_run (s : State) (i : Instr) (polls : Nat) (hb : s.busy = false) (h : i.wellFormed s.rMax = true) :
    ∃ t, play s (run i polls) = some t ∧ Ran i s t := by
  rw [run, cmd, List.singleton_append, play_write _ _ _ _ rfl, busWrite_encode s i hb h]
  obtain ⟨rs, hr⟩ := play_wait_busy (accept s (opcodeOf i) (argOf i)) i polls rfl (pendingCommand_accept s i h)
  refine ⟨_, hr, ?_⟩
  have hc := dataEffect_control i (accept s (opcodeOf i) (argOf i))
  have hd : dataEffect i (accept s (opcodeOf i) (argOf i)) =
      accept (dataEffect i s) (opcodeOf i) (argOf i) := by
    cases i <;> rfl
  constructor
  · rw [hd]; rfl
  · rw [hd]; rfl
  · rw [hd]; rfl
  · rw [hd]; rfl
  · rfl
  · rfl
  · exact hc.err
  · exact hc.ecode
  · exact hc.ieDone
  · exact hc.ieErr
  · exact hc.rMax
  · rfl

/-! ### Scripts of several statements -/

theorem playDump_append (s t : State) (es fs : List Event) (n : Nat) (h : play s es = some t) :
    playDump s (es ++ fs) n = playDump t fs n := by
  unfold playDump
  rw [play_append, h]
  rfl

/-- A loaded string read back, whatever its padding. -/
theorem loadBytes_padToWord (m : Memory) (base : Nat) (bs : List Byte) (hm : m.wf = true) :
    (m.storeBytes base (padToWord bs)).loadBytes base bs.length = bs := by
  apply List.ext_getElem
  · simp
  · intro k h1 h2
    simp only [Memory.loadBytes, List.getElem_map, List.getElem_range]
    rw [Memory.read_storeBytes _ _ _ _ hm, if_pos (by have := length_padToWord bs; omega), Nat.add_sub_cancel_left]
    simp [padToWord, List.getD, List.getElem?_append, h2]

/-- What a host may rely on between two statements of a script it started on `s`. -/
structure Idle (s t : State) : Prop where
  busy : t.busy = false
  wf : t.mem.wf = true
  rMax : t.rMax = s.rMax
  events : t.events = []
  err : t.err = s.err

/-- `LOAD MSG, bytes; RUN i`: the command runs on a state `u` whose MSG starts with the bytes. -/
theorem play_loadRun (s : State) (bs : List Byte) (i : Instr) (polls : Nat) (hb : s.busy = false)
    (hm : s.mem.wf = true) (hl : bs.length ≤ 64) (hw : i.wellFormed s.rMax = true) :
    ∃ u t, play s (load msgBase bs ++ run i polls) = some t ∧ Ran i u t ∧ Idle s t ∧ u.h = s.h ∧
      u.len = s.len ∧ u.k0 = s.k0 ∧ u.msg.take bs.length = bs := by
  have h1 := play_load s msgBase bs hb (.inl ⟨rfl, hl⟩)
  have hmw := Memory.storeBytes_wf s.mem msgBase (padToWord bs) hm
  obtain ⟨t, ht, hr⟩ :=
    play_run { s with mem := s.mem.storeBytes msgBase (padToWord bs), events := [] } i polls hb hw
  refine ⟨_, t, ?_, hr, ⟨hr.busy, ?_, hr.rMax, hr.events, hr.err⟩, rfl, rfl, rfl, ?_⟩
  · rw [play_append, h1]; exact ht
  · rw [hr.mem]; exact dataEffect_wf i _ hmw
  · have := loadBytes_padToWord s.mem msgBase bs hm
    simp only [State.msg, Memory.loadBytes, ← List.map_take, List.take_range, Nat.min_eq_left hl] at this ⊢
    exact this

/-- The full blocks of a message, by SHA_UPDATE. -/
theorem play_blocks (q : Nat) (m : List Byte) (polls : Nat → Nat) (s : State) (hb : s.busy = false)
    (hm : s.mem.wf = true) (hq : 64 * q ≤ m.length) (he : s.events = []) :
    ∃ t, play s ((List.range q).flatMap fun i => load msgBase (subBlock m i) ++ run .shaUpdate (polls i)) = some t ∧
      Idle s t ∧ t.h = absorb q s.h m ∧ t.len = s.len + BitVec.ofNat 64 (512 * q) ∧ t.k0 = s.k0 := by
  induction q with
  | zero => exact ⟨s, by simp [withEvents]; rw [← he], ⟨hb, hm, rfl, he, rfl⟩, rfl, by simp, rfl⟩
  | succ q ih =>
    obtain ⟨t, ht, hi, h1, h2, h3⟩ := ih (by omega)
    have hsl : (subBlock m q).length = 64 := by simp [subBlock]; omega
    obtain ⟨u, v, hv, hr, hid, g1, g2, g3, g4⟩ :=
      play_loadRun t (subBlock m q) .shaUpdate (polls q) hi.busy hi.wf (by omega) rfl
    have hmsg : u.msg = subBlock m q := by rw [← g4, hsl, List.take_of_length_le (by simp [State.msg])]
    refine ⟨v, ?_, ⟨hid.busy, hid.wf, by rw [hid.rMax, hi.rMax], hid.events, by rw [hid.err, hi.err]⟩, ?_, ?_, ?_⟩
    · rw [List.range_succ, List.flatMap_append, play_append, ht]
      simp only [List.flatMap_cons, List.flatMap_nil, List.append_nil]
      exact hv
    · rw [hr.h, dataEffect, setHash_h, hmsg, g1, h1, absorb_last]
    · rw [hr.len, dataEffect, setHash_len, g2, h2, BitVec.add_assoc, Nat.mul_add, BitVec.ofNat_add,
        show BitVec.ofNat 64 (512 * 1) = 512 by decide]
    · rw [hr.k0, dataEffect, setHash_k0, g3, h3]

/-- The message part of the host sequences, up to the digest read back: the last command runs on a state `u` that has
absorbed the full blocks and holds the rest of the message in MSG. -/
theorem playDump_absorbScript (last : Byte → Instr) (m : List Byte) (polls : Nat → Nat) (s : State)
    (hb : s.busy = false) (hm : s.mem.wf = true) (he : s.events = [])
    (hw : ∀ n, n.toNat ≤ 63 → (last n).wellFormed s.rMax = true) (q : Nat) (hq : q = m.length / 64) (n : Byte)
    (hn : n = BitVec.ofNat 8 (m.length % 64)) :
    ∃ u t, playDump s (absorbScript last polls m) 32 = some (digest t.h, t) ∧ Idle s t ∧
      t.h = (dataEffect (last n) u).h ∧ t.len = (dataEffect (last n) u).len ∧ t.k0 = (dataEffect (last n) u).k0 ∧
      u.h = absorb q s.h m ∧ u.len = s.len + BitVec.ofNat 64 (512 * q) ∧ u.k0 = s.k0 ∧
      msgOperand u n = m.drop (64 * q) ∧ n.toNat = m.length % 64 := by
  have hnn : n.toNat = m.length % 64 := by simp [hn]; omega
  obtain ⟨t, ht, hi, h1, h2, h3⟩ := play_blocks q m polls s hb hm (by omega) he
  have hdl : (m.drop (64 * q)).length = m.length % 64 := by simp; omega
  obtain ⟨u, v, hv, hr, hid, g1, g2, g3, g4⟩ :=
    play_loadRun t (m.drop (64 * q)) (last n) (polls q) hi.busy hi.wf (by omega)
      (by rw [hi.rMax]; exact hw n (by omega))
  obtain ⟨rs, hd⟩ := playDump_digest v hid.busy
  refine ⟨u, { v with reads := rs, events := [] }, ?_,
    ⟨hid.busy, hid.wf, by rw [← hi.rMax]; exact hid.rMax, rfl, by rw [← hi.err]; exact hid.err⟩, hr.h, hr.len, hr.k0, by rw [g1, h1],
    by rw [g2, h2], by rw [g3, h3], ?_, hnn⟩
  · have hp : play s (absorbScript last polls m) = play v (dump digestBase 32) := by
      rw [absorbScript, play_append, List.append_assoc, play_append, ← hq, ht]
      simp only [Option.bind_some]
      rw [← hn, hv]
      rfl
    unfold playDump at hd ⊢
    rw [hp]
    exact hd
  · rw [msgOperand, hnn, ← hdl]
    exact g4

end Sys2Proof.Machine
end

