-- ==== Sys2Proof/Laws/Host.lean ====
section
/-! SUPPORT. Host procedures over the block: what `andThen`, `handOn`, `issue` and `ask` do, and what valid
parameters are. -/

namespace Sys2Proof.Machine

/-! ### Procedures -/

theorem HostRun.andThen_ok {α β : Type} (m : HostRun α) (f : α → HostRun β) (s t : State) (a : α)
    (h : m s = some (.ok a, t)) : m.andThen f s = f a t := by
  simp only [HostRun.andThen, h]

theorem HostRun.andThen_error {α β : Type} (m : HostRun α) (f : α → HostRun β) (s t : State) (e : HostError)
    (h : m s = some (.error e, t)) : m.andThen f s = some (.error e, t) := by
  simp only [HostRun.andThen, h]

theorem statusWord_err (s : State) : (statusWord s).getLsbD 2 = s.err := by
  cases hb : s.busy <;> cases hd : s.done <;> cases he : s.err <;>
    simp [statusWord, bit, hb, hd, he]

theorem busWrite_status (s : State) (v : Word) : busWrite s statusOffset v = writeStatus s v := by
  show (if s.busy && false then _ else _) = _
  rw [Bool.and_false, if_neg (by simp)]
  rfl

/-- The block after the host has looked at STATUS. -/
def looked (s : State) : State := { s with reads := statusWord s :: s.reads, events := [] }

theorem play_status (s : State) : play s (rd statusOffset) = some (looked s) := by
  rw [rd, play_read _ _ _ rfl, busRead_status, play_nil]
  rfl

/-- With ERR = 0 the result is handed on. -/
theorem handOn_ok {α : Type} (a : α) (s : State) (h : s.err = false) : handOn a s = some (.ok a, looked s) := by
  have : ((looked s).reads.headD 0).getLsbD 2 = false := (statusWord_err s).trans h
  simp only [handOn, play_status, this]
  rfl

/-- With ERR = 1 nothing is handed on, and ERR is cleared. -/
theorem handOn_error {α : Type} (a : α) (s : State) (h : s.err = true) :
    ∃ t, handOn a s = some (.error .internalError, t) ∧ t.err = false ∧ t.ecode = none := by
  have hl : ((looked s).reads.headD 0).getLsbD 2 = true := (statusWord_err s).trans h
  have hp : play (looked s) clrErr = some (withEvents (writeStatus (looked s) 4) []) := by
    rw [clrErr, wr, play_write _ _ _ _ rfl, busWrite_status, play_nil]
  refine ⟨withEvents (writeStatus (looked s) 4) [], ?_, rfl, rfl⟩
  simp only [handOn, play_status, hl, if_true, hp]

theorem issue_ok (polls : Nat → Nat) (es : (Nat → Nat) → List Event) (s t : State)
    (h : play s (es (pollsFrom polls s)) = some t) (he : t.err = false) :
    issue polls es s = some (.ok (), looked t) := by
  simp only [issue, h, handOn_ok () t he]

theorem issue_error (polls : Nat → Nat) (es : (Nat → Nat) → List Event) (s t : State)
    (h : play s (es (pollsFrom polls s)) = some t) (he : t.err = true) :
    ∃ u, issue polls es s = some (.error .internalError, u) ∧ u.err = false ∧ u.ecode = none := by
  simp only [issue, h]
  exact handOn_error () t he

theorem ask_ok (polls : Nat → Nat) (es : (Nat → Nat) → List Event) (n : Nat) (s t : State) (bs : List Byte)
    (h : playDump s (es (pollsFrom polls s)) n = some (bs, t)) (he : t.err = false) :
    ask polls es n s = some (.ok bs, looked t) := by
  simp only [ask, h, handOn_ok bs t he]

theorem ask_error (polls : Nat → Nat) (es : (Nat → Nat) → List Event) (n : Nat) (s t : State) (bs : List Byte)
    (h : playDump s (es (pollsFrom polls s)) n = some (bs, t)) (he : t.err = true) :
    ∃ u, ask polls es n s = some (.error .internalError, u) ∧ u.err = false ∧ u.ecode = none := by
  simp only [ask, h]
  exact handOn_error bs t he

/-! ### Parameters -/

/-- Both directions, on every number. -/
theorem isPowerOfTwo_iff (n : Nat) : isPowerOfTwo n = true ↔ ∃ k, n = 2 ^ k := by
  simp only [isPowerOfTwo, Bool.and_eq_true, decide_eq_true_eq]
  constructor
  · rintro ⟨h0, h⟩
    induction n using Nat.strong_induction_on with
    | _ n ih =>
      have hd : n / 2 &&& (n - 1) / 2 = 0 := by rw [← Nat.and_div_two, h]
      rcases Nat.even_or_odd' n with ⟨m, rfl | rfl⟩
      · obtain ⟨k, rfl⟩ := ih m (by omega) (by omega)
          (by rwa [show 2 * m / 2 = m by omega, show (2 * m - 1) / 2 = m - 1 by omega] at hd)
        exact ⟨k + 1, by rw [Nat.pow_succ]; omega⟩
      · rw [show (2 * m + 1) / 2 = m by omega, show (2 * m + 1 - 1) / 2 = m by omega, Nat.and_self] at hd
        exact ⟨0, by rw [hd, Nat.mul_zero, Nat.pow_zero]⟩
  · rintro ⟨k, rfl⟩
    exact ⟨by positivity, by rw [Nat.and_two_pow_sub_one_eq_mod, Nat.mod_self]⟩

theorem validateDkLen_ok_iff (dkLen : Int) :
    validateDkLen dkLen = .ok () ↔ 0 < dkLen ∧ dkLen ≤ (2 ^ 32 - 1) * 32 := by
  unfold validateDkLen
  split
  · simp only [reduceCtorEq, false_iff]; omega
  · simp only [true_iff]; omega

/-- Everything valid parameters are. -/
theorem validate_ok (n r p dkLen : Int) (available : Nat) (h : validate n r p dkLen available = .ok ()) :
    1 < n ∧ 0 < r ∧ 0 < p ∧ r * p < 2 ^ 30 ∧ (∃ k, n.toNat = 2 ^ k) ∧ 0 < dkLen ∧
      dkLen ≤ (2 ^ 32 - 1) * 32 ∧ 128 * n * r ≤ available := by
  unfold validate at h
  split at h
  · cases h
  split at h
  · cases h
  split at h
  · cases h
  split at h
  · cases h
  split at h
  · cases h
  rename_i h1 h2 h3 _ h4 h5
  obtain ⟨h6, h7⟩ := (validateDkLen_ok_iff dkLen).1 h4
  exact ⟨by omega, by omega, by omega, by omega, (isPowerOfTwo_iff _).1 (by simpa using h2), h6, h7, by omega⟩

end Sys2Proof.Machine
end

