-- ==== Sys2Proof/Laws/PerInstr.lean ====
section
/-! SUPPORT. One family of facts about every instruction as syntax: its encoded word is a word of its row of
spec/opcode_table.json (30_encoding.md R84), the mask and the match being those the table prints, and its argument
stands in bits 15..8. -/

namespace Sys2Proof.Laws.EncodedRow

/-- The mask the table prints: all bits for format Z, all but the argument's for format A. -/
def mask : Instr → Word
  | .nop => 0xFFFFFFFF
  | .shaInit => 0xFFFFFFFF
  | .shaUpdate => 0xFFFFFFFF
  | .shaFinal _ => 0xFFFF00FF
  | .hmacKey _ => 0xFFFF00FF
  | .hmacKeyd => 0xFFFFFFFF
  | .hmacInit => 0xFFFFFFFF
  | .hmacFinal _ => 0xFFFF00FF
  | .salsa => 0xFFFFFFFF
  | .blockmix _ => 0xFFFF00FF
  | .zeroize => 0xFFFFFFFF

/-- The match the table prints. -/
def pattern : Instr → Word
  | .nop => 0x00000000
  | .shaInit => 0x00000001
  | .shaUpdate => 0x00000002
  | .shaFinal _ => 0x00000003
  | .hmacKey _ => 0x00000008
  | .hmacKeyd => 0x00000009
  | .hmacInit => 0x0000000A
  | .hmacFinal _ => 0x0000000B
  | .salsa => 0x00000010
  | .blockmix _ => 0x00000018
  | .zeroize => 0x0000007F

/-- The encoded word is one of the row's, with the argument in its field. -/
def Statement (i : Instr) : Prop :=
  encode i &&& mask i = pattern i ∧ (encode i).extractLsb' 8 8 = argOf i

/-- A format A word, whatever its argument. -/
theorem formatA (op arg : Byte) :
    commandWord op arg &&& 0xFFFF00FF = op.setWidth 32 ∧ (commandWord op arg).extractLsb' 8 8 = arg := by
  refine ⟨?_, argField_commandWord op arg⟩
  apply BitVec.eq_of_getLsbD_eq
  intro i hi
  rw [BitVec.getLsbD_and, getLsbD_commandWord op arg i hi, BitVec.getLsbD_setWidth]
  by_cases h8 : i < 8
  · have : (0xFFFF00FF : Word).getLsbD i = true := by interval_cases i <;> rfl
    rw [this, Bool.and_true]
    simp [h8, hi]
  · have h : op.getLsbD i = false := BitVec.getLsbD_of_ge op i (by omega)
    by_cases h16 : i < 16
    · have : (0xFFFF00FF : Word).getLsbD i = false := by interval_cases i <;> rfl
      rw [this, Bool.and_false, h, Bool.and_false]
    · simp [h8, h16, h]

theorem nop : Statement .nop := ⟨rfl, rfl⟩
theorem shaInit : Statement .shaInit := ⟨rfl, rfl⟩
theorem shaUpdate : Statement .shaUpdate := ⟨rfl, rfl⟩
theorem shaFinal (n : Byte) : Statement (.shaFinal n) := formatA 0x03 n
theorem hmacKey (n : Byte) : Statement (.hmacKey n) := formatA 0x08 n
theorem hmacKeyd : Statement .hmacKeyd := ⟨rfl, rfl⟩
theorem hmacInit : Statement .hmacInit := ⟨rfl, rfl⟩
theorem hmacFinal (n : Byte) : Statement (.hmacFinal n) := formatA 0x0B n
theorem salsa : Statement .salsa := ⟨rfl, rfl⟩
theorem blockmix (r : Byte) : Statement (.blockmix r) := formatA 0x18 r
theorem zeroize : Statement .zeroize := ⟨rfl, rfl⟩

end Sys2Proof.Laws.EncodedRow
end

