-- ==== Sys2Proof/Tests/Slice0.lean ====
section
/-! SUPPORT. The model's own tests. The expected values are those of the spec: 30_encoding.md R84, R85 (words), the
worked values of 40_sha256.md, 41_hmac.md, 42_salsa20_8.md and 95_test_vectors.md. And one witness for the
hypotheses of every statement that has some. -/

namespace Sys2Proof.Tests

open Sys2Proof Sys2Proof.Machine

/-! ### WellFormed refuses what R84 puts out of range -/

theorem test_illformed_shaFinal : Instr.wellFormed 8 (.shaFinal 64) = false := by decide
theorem test_illformed_hmacKey : Instr.wellFormed 8 (.hmacKey 65) = false := by decide
theorem test_illformed_hmacFinal : Instr.wellFormed 8 (.hmacFinal 64) = false := by decide
theorem test_illformed_blockmix_zero : Instr.wellFormed 8 (.blockmix 0) = false := by decide
theorem test_illformed_blockmix_above : Instr.wellFormed 8 (.blockmix 9) = false := by decide
theorem test_wellformed_limits :
    Instr.wellFormed 8 (.shaFinal 63) = true ∧ Instr.wellFormed 8 (.hmacKey 64) = true ∧
    Instr.wellFormed 8 (.hmacFinal 63) = true ∧ Instr.wellFormed 8 (.blockmix 8) = true ∧
    Instr.wellFormed 255 (.blockmix 255) = true := by decide

/-! ### Decoding, word by word: the fields RSVD, ARG, OP of R82 written out in bits -/

theorem test_decode_nop : decode 8 (0b0000000000000000#16 ++ 0b00000000#8 ++ 0b00000000#8) = .ok .nop := by decide
theorem test_decode_shaInit :
    decode 8 (0b0000000000000000#16 ++ 0b00000000#8 ++ 0b00000001#8) = .ok .shaInit := by decide
theorem test_decode_shaUpdate :
    decode 8 (0b0000000000000000#16 ++ 0b00000000#8 ++ 0b00000010#8) = .ok .shaUpdate := by decide
theorem test_decode_shaFinal :
    decode 8 (0b0000000000000000#16 ++ 0b00111000#8 ++ 0b00000011#8) = .ok (.shaFinal 56) := by decide
theorem test_decode_hmacKey :
    decode 8 (0b0000000000000000#16 ++ 0b01000000#8 ++ 0b00001000#8) = .ok (.hmacKey 64) := by decide
theorem test_decode_hmacKeyd :
    decode 8 (0b0000000000000000#16 ++ 0b00000000#8 ++ 0b00001001#8) = .ok .hmacKeyd := by decide
theorem test_decode_hmacInit :
    decode 8 (0b0000000000000000#16 ++ 0b00000000#8 ++ 0b00001010#8) = .ok .hmacInit := by decide
theorem test_decode_hmacFinal :
    decode 8 (0b0000000000000000#16 ++ 0b00000001#8 ++ 0b00001011#8) = .ok (.hmacFinal 1) := by decide
theorem test_decode_salsa :
    decode 8 (0b0000000000000000#16 ++ 0b00000000#8 ++ 0b00010000#8) = .ok .salsa := by decide
theorem test_decode_blockmix :
    decode 8 (0b0000000000000000#16 ++ 0b00000101#8 ++ 0b00011000#8) = .ok (.blockmix 5) := by decide
theorem test_decode_zeroize :
    decode 8 (0b0000000000000000#16 ++ 0b00000000#8 ++ 0b01111111#8) = .ok .zeroize := by decide

/-- The order of the checks of R219: RSVD, then OP, then ARG. -/
theorem test_decode_errors :
    decode 8 0x0001FF20 = .error .illRsvd ∧ decode 8 0x0000FF20 = .error .illOp ∧
    decode 8 0x00000101 = .error .illArg ∧ decode 8 0x00004003 = .error .illArg ∧
    decode 8 0x00000918 = .error .illArg ∧ decode 8 0x00000018 = .error .illArg := by decide

theorem test_decodeTableWord :
    decodeTableWord 32 0x00000818 = some (.blockmix 8) ∧ decodeTableWord 32 0x0000000C = none := by decide

/-! ### Values the spec writes out -/

/-- 42_salsa20_8.md R152, the first and second worked examples, on the words 0, 4, 8, 12. -/
theorem test_quarterRound :
    (let x := quarterRound ((Vector.replicate 16 0).set 0 1) 0 4 8 12
     (x[4] = 0x00000080 ∧ x[8] = 0x00010200 ∧ x[12] = 0x20500000 ∧ x[0] = 0x08008145)) ∧
    (let x := quarterRound (((Vector.replicate 16 0).set 0 0xFFFFFFFF).set 12 1) 0 4 8 12
     (x[4] = 0 ∧ x[8] = 0xFFFFFFFF ∧ x[12] = 0xFFFFFFFE ∧ x[0] = 0x00080000)) := by decide +kernel

/-- A block whose MSG, X and BM start with the given strings, and nothing else. -/
def block (msg x bm : List Byte) : State :=
  { State.reset with mem := ((Memory.storeBytes [] msgBase msg).storeBytes xBase x).storeBytes bmBase bm }

/-- The state after a command. -/
def after (i : Instr) (s : State) : State := (nextOf (exec i s)).getD State.reset

theorem test_nop : (after .nop (block [1] [] [])).done = true ∧ (after .nop (block [1] [] [])).mem = [(0x40, 1)] := by
  decide

/-- 40_sha256.md R110: `RD DIGEST` after SHA_INIT. -/
theorem test_shaInit : (busRead (after .shaInit State.reset) 0x0020).1 = 0x67e6096a := by decide

/-- 40_sha256.md R112: from the reset state. -/
theorem test_shaUpdate : (after .shaUpdate State.reset).h =
    ⟨0x7ca51614, 0x425c3ba8, 0xce54dd2f, 0xc2020ae7, 0xb6e574d1, 0x98136d0f, 0xae7e26cc, 0xbf0be7a6⟩ := by
  decide +kernel

/-- 95_test_vectors.md section 4: `sha256("abc")`; the byte after the message is stale. -/
theorem test_shaFinal : (after (.shaFinal 3) { block [0x61, 0x62, 0x63, 0xFF] [] [] with h := iv }).h =
    ⟨0xba7816bf, 0x8f01cfea, 0x414140de, 0x5dae2223, 0xb00361a3, 0x96177a9c, 0xb410ff61, 0xf20015ad⟩ := by
  decide +kernel

/-- 95_test_vectors.md section 4: 56 bytes `a` need a second block. -/
theorem test_shaFinal_two_blocks : (after (.shaFinal 56) { block (rep 0x61 56) [] [] with h := iv }).h =
    ⟨0xb35439a4, 0xac6f0948, 0xb6d6f9e3, 0xc6af0f5f, 0x590ce20f, 0x1bde7090, 0xef797068, 0x6ec6738a⟩ := by
  decide +kernel

theorem test_hmacKey : (after (.hmacKey 2) (block [7, 8, 9] [] [])).k0.toList = [7, 8] ++ rep 0 62 := by decide +kernel

theorem test_hmacKeyd :
    (after .hmacKeyd { State.reset with h := iv }).k0.toList.take 8 = [0x6a, 0x09, 0xe6, 0x67, 0xbb, 0x67, 0xae, 0x85] ∧
    (after .hmacKeyd { State.reset with h := iv }).k0.toList.drop 32 = rep 0 32 := by decide +kernel

/-- 41_hmac.md R137: the inner pad of 64 zero key bytes. -/
theorem test_hmacInit : (after .hmacInit State.reset).h.h0 = 0xf454dead ∧ (after .hmacInit State.reset).len = 512 := by
  decide +kernel

/-- 41_hmac.md R139, from the reset state. -/
theorem test_hmacFinal : digest (after (.hmacFinal 0) State.reset).h =
    [0x01, 0x17, 0xc6, 0x89, 0x06, 0x06, 0x9f, 0xb3, 0x92, 0x5d, 0x5d, 0x54, 0x7f, 0x1f, 0xe4, 0x11] ++
    [0x9a, 0xe9, 0xbb, 0x04, 0x46, 0x46, 0x6f, 0xab, 0xa1, 0xd6, 0xb9, 0xa2, 0x31, 0x58, 0x24, 0xd5] := by
  decide +kernel

/-- 95_test_vectors.md section 6: X = `ff^64`, the first 16 bytes of the result. -/
theorem test_salsa : (after .salsa (block [] (rep 0xff 64) [])).x.take 16 =
    [0xfd, 0x9a, 0xc8, 0x88, 0xe7, 0xd0, 0x8b, 0x48, 0x9a, 0xab, 0x6c, 0x87, 0x9b, 0xf4, 0xc9, 0xa2] := by
  decide +kernel

/-- 95_test_vectors.md section 7: BM = `00 01 .. 7f`, r = 1: the first bytes of both outputs. -/
theorem test_blockmix :
    let t := after (.blockmix 1) (block [] [] ((List.range 128).map (BitVec.ofNat 8)))
    t.bm.take 4 = [0x6c, 0xb2, 0x21, 0x5a] ∧ (t.bm.drop 64).take 4 = [0xef, 0xf8, 0x3b, 0xd7] ∧
    t.x.take 4 = [0xef, 0xf8, 0x3b, 0xd7] := by
  decide +kernel

theorem test_zeroize : (after .zeroize { block [1] [2] [3] with h := iv, len := 8, ieErr := true }).mem = [] ∧
    (after .zeroize { block [1] [2] [3] with h := iv, len := 8, ieErr := true }).ieErr = true := by decide

/-- 60_exceptions.md R219: a legal word while BUSY = 1 is BUSY_WR, and a second error is not recorded. -/
theorem test_busy_wr : (busWrite (accept State.reset 0x01 0) 0x0010 0x00000001).ecode = some .busyWr ∧
    (busWrite (busWrite State.reset 0x0010 0x00000020) 0x0010 0x00010000).ecode = some .illOp := by decide

/-- The very next step runs the placed word. -/
theorem test_withFetchWord : (nextOf (step (State.reset.withFetchWord 32 0x00000001))).map (·.h) = some iv := by
  decide

/-- 45_host_procedures.md R196, R204: each failure of the parameters, at the ends of the ranges. -/
theorem test_parameters :
    pbkdf2Checked [] [] 1 0 = .error .invalidParameter ∧
    pbkdf2Checked [] [] 1 ((2 ^ 32 - 1) * 32 + 1) = .error .invalidParameter ∧
    validate 1 1 1 64 4096 = .error .invalidParameter ∧ validate 12 1 1 64 4096 = .error .invalidParameter ∧
    validate 16 1 0 64 4096 = .error .invalidParameter ∧ validate 16 (2 ^ 15) (2 ^ 15) 64 4096 = .error .invalidParameter ∧
    validate 16 1 1 0 4096 = .error .invalidParameter ∧ validate 16 1 1 64 2047 = .error .allocationFailure ∧
    validate 16 1 1 64 2048 = .ok () := by decide +kernel

/-- 45_host_procedures.md R205, 60_exceptions.md R221: the block refuses BLOCKMIX 9 (ILL_ARG); the host finds ERR = 1,
clears it and reports InternalError. -/
theorem test_internalError :
    ∃ t, issue (fun _ => 1) (fun w => run (.blockmix 9) (w 0)) State.reset = some (.error .internalError, t) ∧
      t.err = false ∧ t.ecode = none := ⟨_, rfl, rfl, rfl⟩

/-- The four WAITs of a key of 65 bytes have counts of their own (41_hmac.md R141). -/
theorem test_hmacKeyScript_polls :
    ((hmacKeyScript (fun i => 10 * i) (rep 0xaa 65)).filter fun e => decide (e = .read statusOffset)).length =
      (0 + 1) + (10 + 1) + (20 + 1) + (30 + 1) := by decide +kernel

/-! ### Witnesses: states and operands that meet the hypotheses of the statements -/

/-- An idle block that has everything non-zero: data, an error, an enable. -/
def idleState : State :=
  { block [1, 2, 3] [4] [5] with
    h := iv, len := 512, k0 := Vector.replicate 64 0x11, err := true, ecode := some .illOp, ieErr := true }

/-- The same block with the error cleared. -/
def cleanState : State := { idleState with err := false, ecode := none }

/-- The same block with a command accepted. -/
def busyState (i : Instr) : State := accept cleanState (opcodeOf i) (argOf i)

/-- The key "Jefe" of 95_test_vectors.md section 5.1 in K0. -/
def jefeState : State := setK0 State.reset ([0x4a, 0x65, 0x66, 0x65] ++ rep 0 60)

theorem inv_idleState : Machine.Inv idleState := by constructor <;> decide
theorem inv_cleanState : Machine.Inv cleanState := by constructor <;> decide
theorem inv_busyState : Machine.Inv (busyState .shaInit) := by constructor <;> decide

theorem goesOn (i : Instr) (s : State) : ∃ t, exec i s = .next t := ⟨_, exec_eq i s⟩

theorem test_witness_DecodeOfEncodeIsIdentity :
    Instr.wellFormed 8 (.shaFinal 63) = true ∧ Instr.wellFormed 8 (.hmacKey 64) = true ∧
    Instr.wellFormed 8 (.blockmix 8) = true ∧ Instr.wellFormed 255 (.blockmix 255) = true := by decide

theorem test_witness_EncodeOfDecodeIsIdentity :
    decode 8 0x00003F03 = .ok (.shaFinal 63) ∧ decode 255 0x0000FF18 = .ok (.blockmix 255) := by decide

theorem test_witness_LegalWordsAreAcceptedOthersOnlyRaise :
    idleState.busy = false ∧ legalWord idleState.rMax 0x00000818 ∧ ¬ legalWord idleState.rMax 0x00000918 := by
  refine ⟨rfl, ?_, ?_⟩ <;> unfold legalWord <;> decide

/-- The hypothesis on the argument of a format Z opcode, in the seven statements that have it. -/
theorem test_witness_argument_of_format_Z : (0x01 : Byte) ≠ 0 ∧ (0xFF : Byte) ≠ 0 := by decide

theorem test_witness_ShaInitLoadsTheInitialValue : ∃ t, exec .shaInit idleState = .next t := goesOn _ _

theorem test_witness_ShaUpdateAbsorbsTheMessageBlock :
    ∃ s t : State, s.len = BitVec.ofNat 64 (2 ^ 64 - 512) ∧ exec .shaUpdate s = .next t :=
  ⟨{ idleState with len := BitVec.ofNat 64 (2 ^ 64 - 512) }, _, rfl, exec_eq _ _⟩

theorem test_witness_ShaFinalFinishesTheHash : (63 : Byte).toNat ≤ 63 ∧ 64 ≤ (64 : Byte).toNat := by decide

theorem test_witness_HmacKeyLoadsThePaddedKey : (64 : Byte).toNat ≤ 64 ∧ 65 ≤ (65 : Byte).toNat := by decide

theorem test_witness_HmacInitAbsorbsTheInnerPad :
    ∃ t, jefeState.k0.toList = [0x4a, 0x65, 0x66, 0x65] ++ rep 0 60 ∧ exec .hmacInit jefeState = .next t :=
  ⟨_, toList_toK0 _ (by simp), exec_eq _ _⟩

theorem test_witness_HmacFinalRunsTheOuterHash : (0 : Byte).toNat ≤ 63 ∧ (63 : Byte).toNat ≤ 63 ∧
    64 ≤ (64 : Byte).toNat := by decide

/-- The message of 95_test_vectors.md section 5.1. -/
def jefeMessage : List Byte :=
  [0x77, 0x68, 0x61, 0x74, 0x20, 0x64, 0x6f, 0x20, 0x79, 0x61, 0x20, 0x77, 0x61, 0x6e, 0x74, 0x20] ++
  [0x66, 0x6f, 0x72, 0x20, 0x6e, 0x6f, 0x74, 0x68, 0x69, 0x6e, 0x67, 0x3f]

theorem test_witness_HmacFinalRunsTheOuterHash_example :
    ∃ s t : State,
      s.h = ⟨0x655da7fa, 0xcc434b37, 0x5a1cd5cb, 0x0692ee0e, 0xa47a23d3, 0x4c3af449, 0xdba21ae2, 0x78c7500c⟩ ∧
      s.len = 512 ∧ s.k0.toList = [0x4a, 0x65, 0x66, 0x65] ++ rep 0 60 ∧
      s.mem.loadBytes 0x0040 28 = jefeMessage ∧ exec (.hmacFinal 28) s = .next t :=
  ⟨{ jefeState with
      h := ⟨0x655da7fa, 0xcc434b37, 0x5a1cd5cb, 0x0692ee0e, 0xa47a23d3, 0x4c3af449, 0xdba21ae2, 0x78c7500c⟩
      len := 512, mem := (block jefeMessage [] []).mem },
    _, rfl, rfl, toList_toK0 _ (by simp), by decide, exec_eq _ _⟩

theorem test_witness_SalsaReplacesX : idleState.mem.wf = true := by decide

theorem test_witness_BlockmixMixesTheBuffer :
    1 ≤ (1 : Byte).toNat ∧ (8 : Byte).toNat ≤ idleState.rMax.toNat ∧ idleState.rMax.toNat < (9 : Byte).toNat ∧
    (0 : Byte).toNat = 0 ∧ idleState.mem.wf = true := by decide

theorem test_witness_IllFormedTermsOnlyRaise : Instr.wellFormed idleState.rMax (.shaFinal 64) = false ∧
    Instr.wellFormed idleState.rMax (.blockmix 9) = false := by decide

theorem test_witness_CommandsWriteOnlyTheirRow :
    (∀ i ∈ [Instr.nop, .shaInit, .shaUpdate, .shaFinal 63, .hmacKey 64, .hmacKeyd, .hmacInit, .hmacFinal 0, .salsa,
      .blockmix 8, .zeroize], i.wellFormed idleState.rMax = true) ∧ ∀ i : Instr, ∃ t, exec i idleState = .next t :=
  ⟨by decide, fun i => goesOn i idleState⟩

theorem test_witness_HashCommandsFrame :
    (Instr.shaFinal 63 ∈ [Instr.shaInit, Instr.shaUpdate, Instr.shaFinal 63, Instr.hmacInit, Instr.hmacFinal 63]) ∧
    (∃ t, exec (.shaFinal 63) idleState = .next t) ∧ Instr.wellFormed idleState.rMax (.shaFinal 63) = true ∧
    Instr.wellFormed idleState.rMax (.hmacFinal 64) = false ∧ ∃ t, exec (.hmacFinal 64) idleState = .next t :=
  ⟨by decide, goesOn _ _, by decide, by decide, goesOn _ _⟩

theorem test_witness_KeyCommandsFrame :
    (∃ t, exec (.hmacKey 64) idleState = .next t) ∧ Instr.wellFormed idleState.rMax (.hmacKey 64) = true ∧
    (∃ t, exec (.hmacKey 65) idleState = .next t) ∧ Instr.wellFormed idleState.rMax (.hmacKey 65) = false :=
  ⟨goesOn _ _, by decide, goesOn _ _, by decide⟩

theorem test_witness_MixCommandsFrame :
    (∃ t, exec .salsa idleState = .next t) ∧ (∃ t, exec (.blockmix 8) idleState = .next t) ∧
    Instr.wellFormed idleState.rMax (.blockmix 8) = true ∧ (∃ t, exec (.blockmix 9) idleState = .next t) ∧
    Instr.wellFormed idleState.rMax (.blockmix 9) = false :=
  ⟨goesOn _ _, goesOn _ _, by decide, goesOn _ _, by decide⟩

/-- Two blocks that agree on `MSG[0..2]` and differ in `MSG[3]`. -/
theorem test_witness_StaleMessageBytesAreIgnored :
    let s := idleState
    let s' := { s with mem := s.mem.write 0x43 0xFF }
    Instr.shaFinal 3 ∈ [Instr.shaFinal 3, Instr.hmacKey 3, Instr.hmacFinal 3] ∧
    Instr.wellFormed s.rMax (.shaFinal 3) = true ∧ s'.rMax = s.rMax ∧ sameHash s s' ∧ s'.k0 = s.k0 ∧
    (∀ k < (3 : Byte).toNat, s'.mem.read (0x0040 + k) = s.mem.read (0x0040 + k)) ∧ s'.mem ≠ s.mem ∧
    (∃ t, exec (.shaFinal 3) s = .next t) ∧ ∃ t, exec (.shaFinal 3) s' = .next t :=
  ⟨by decide, by decide, rfl, ⟨rfl, rfl⟩, rfl, by decide, by decide, goesOn _ _, goesOn _ _⟩

/-- Two blocks that agree on BM and differ in X. -/
theorem test_witness_BlockmixIgnoresTheOldX :
    let s := idleState
    let s' := { s with mem := s.mem.write 0xC1 0xFF }
    s.mem.wf = true ∧ s'.mem.wf = true ∧ s'.rMax = s.rMax ∧ Instr.wellFormed s.rMax (.blockmix 1) = true ∧
    (∀ k < 128 * (1 : Byte).toNat, s'.mem.read (0x8000 + k) = s.mem.read (0x8000 + k)) ∧ s'.mem ≠ s.mem ∧
    (∃ t, exec (.blockmix 1) s = .next t) ∧ ∃ t, exec (.blockmix 1) s' = .next t := by
  refine ⟨by decide, by decide, rfl, by decide, ?_, by decide, goesOn _ _, goesOn _ _⟩
  intro k _
  exact Memory.read_write_ne _ _ _ _ (by omega)

/-- The boundary offsets of every clause of the map, with R_MAX = 8; a data offset is never a reserved one. -/
theorem test_witness_ReadReturnsTheMappedWord :
    (∀ a ∈ [0x0014, 0x0018, 0x0020, 0x003C, 0x0040, 0x007C, 0x00C0, 0x00FC, 0x8000, 0x83FC],
      a % 4 = 0 ∧ dataOffset 8 a ∧ ¬ reservedOffset 8 a) ∧
    (∀ a ∈ [0x0040, 0x007C, 0x00C0, 0x00FC, 0x8000, 0x83FC], bufferOffset 8 a) ∧
    (∀ a ∈ [0x001C, 0x0080, 0x00BC, 0x0100, 0x7FFC, 0x8400, 0xFFFC],
      a % 4 = 0 ∧ reservedOffset 8 a ∧ ¬ dataOffset 8 a) ∧
    (∀ a ∈ [0x0000, 0x0004, 0x0008, 0x000C, 0x0010], a % 4 = 0 ∧ ¬ dataOffset 8 a ∧ ¬ reservedOffset 8 a) ∧
    idleState.busy = false ∧ (busyState .shaInit).busy = true := by
  simp only [reservedOffset, dataOffset, bufferOffset]
  decide

theorem test_witness_WriteDoesWhatTheMapSays :
    (∀ a ∈ [0x0040, 0x007C, 0x00C0, 0x00FC, 0x8000, 0x83FC],
      a % 4 = 0 ∧ bufferOffset 8 a ∧ a ≠ 0x0008 ∧ a ≠ 0x000C ∧ a ≠ 0x0010) ∧
    (∀ a ∈ [0x0000, 0x0004, 0x0014, 0x0018, 0x001C, 0x0020, 0x003C, 0x0080, 0x7FFC, 0x8400],
      a ≠ 0x0008 ∧ a ≠ 0x000C ∧ a ≠ 0x0010 ∧ ¬ bufferOffset 8 a) ∧
    idleState.busy = false ∧ (busyState .shaInit).busy = true := by
  refine ⟨?_, ?_, rfl, rfl⟩ <;> unfold bufferOffset <;> decide

theorem test_witness_ReservedAndReadOnlyOffsetsIgnoreWrites :
    (0x8400 : Offset).toNat % 4 = 0 ∧ reservedOffset idleState.rMax (0x8400 : Offset).toNat ∧
    (0x003C : Offset).toNat % 4 = 0 ∧ 0x0020 ≤ (0x003C : Offset).toNat ∧ (0x003C : Offset).toNat ≤ 0x003C := by
  unfold reservedOffset
  decide

theorem test_witness_BufferWordsReadBackLittleEndian :
    (0x83FC : Offset).toNat % 4 = 0 ∧ idleState.busy = false ∧ idleState.mem.wf = true ∧
    bufferOffset idleState.rMax (0x83FC : Offset).toNat := by
  unfold bufferOffset
  decide

theorem test_witness_StatusReadsItsFieldsAndClearsByOnes :
    (0x00000004 : Word).getLsbD 2 = true ∧ (0x00000002 : Word).getLsbD 2 = false := by decide

theorem test_witness_MisalignedTransactionsAreRefused : (0x0011 : Offset).toNat % 4 ≠ 0 := by decide

theorem test_witness_TransactionsAreSteps : (0xFFFC : Offset).toNat % 4 = 0 := by decide

theorem test_witness_RaisingAnErrorKeepsTheFirst : cleanState.err = false ∧ idleState.err = true := by decide

theorem test_witness_ErrorStaysUntilTheHostClearsIt :
    (∃ s t, step s = .next t ∧ s.err = true ∧ ∀ e, s.events.head? = some e → e.clearsError = false) ∧
    (∃ s t e, s.events.head? = some e ∧ e.clearsError = true ∧ step s = .next t) ∧
    idleState.busy = false ∧ idleState.err = true ∧ legalWord idleState.rMax 0x0000007F := by
  refine ⟨⟨{ idleState with events := [.write 0x0008 2] }, _, rfl, rfl, ?_⟩,
    ⟨{ idleState with events := [.write 0x0008 4] }, _, _, rfl, rfl, rfl⟩, rfl, rfl, ?_⟩
  · intro e he
    cases he
    rfl
  · unfold legalWord
    decide

theorem test_witness_StepRunsThePendingCommand :
    decode (busyState (.blockmix 8)).rMax 0x00000818 = .ok (.blockmix 8) ∧ (busyState (.blockmix 8)).busy = true ∧
    (busyState (.blockmix 8)).pend =
      some ⟨(0x00000818 : Word).extractLsb' 0 8, (0x00000818 : Word).extractLsb' 8 8⟩ ∧
    (busyState (.blockmix 8)).events = [] ∧
    { busyState (.blockmix 8) with events := [.completion] }.events = .completion :: [] := by decide

theorem test_witness_IdleBlockDoesNothing : idleState.busy = false := rfl

theorem test_witness_FetchWordRunsNext : decode idleState.rMax (tableWord 32 0x0000007F) = .ok .zeroize := by decide

theorem test_witness_BusyTransactionsKeepTheData :
    ∃ s t e rest, s.busy = true ∧ s.events = e :: rest ∧ e.isTransaction = true ∧ step s = .next t :=
  ⟨{ busyState .shaInit with events := [.write 0x0040 1] }, _, _, [], rfl, rfl, rfl, rfl⟩

theorem test_witness_HostCannotWriteHashOrKey :
    ∃ s t e rest, s.events = e :: rest ∧ e.isTransaction = true ∧ step s = .next t :=
  ⟨{ idleState with events := [.write 0x0020 1] }, _, _, [], rfl, rfl, rfl⟩

theorem test_witness_PendingCommandCompletes :
    let s := { busyState .shaInit with events := [.read 0x0020, .write 0x0010 1, .write 0x0008 6] }
    s.busy = true ∧ pendingCommand s = some .shaInit ∧ ∀ e ∈ s.events, e.isTransaction = true := by decide

theorem test_witness_WriteAndCompletionInEitherOrder :
    (busyState .salsa).busy = true ∧ pendingCommand (busyState .salsa) = some .salsa ∧
    (∃ r, exec .salsa (busyState .salsa) = .next r) ∧ (0x00FC : Offset).toNat % 4 = 0 ∧
    bufferOffset (busyState .salsa).rMax (0x00FC : Offset).toNat ∧ (busyState .salsa).err = false := by
  refine ⟨rfl, rfl, goesOn _ _, rfl, ?_, rfl⟩
  unfold bufferOffset
  decide

theorem test_witness_ResetValues :
    dataOffset State.reset.rMax (0x83FC : Offset).toNat ∧ (0x83FC : Offset).toNat % 4 = 0 := by
  unfold dataOffset bufferOffset
  decide

theorem test_witness_ResetEventClearsEverything :
    ∃ s t, step s = .next t ∧ s.busy = true ∧ t.busy = false :=
  ⟨busyState .shaInit, _, engineTurn_busy _ .shaInit rfl rfl, rfl, rfl⟩

theorem test_witness_NopCompletesWithoutEffect : cleanState.busy = false := rfl

theorem test_witness_StepKeepsTheInvariant :
    Machine.Inv (busyState .shaInit) ∧ ∃ t, step (busyState .shaInit) = .next t :=
  ⟨inv_busyState, _, engineTurn_busy _ .shaInit rfl rfl⟩

theorem test_witness_PresentableEventsAlwaysGoOn :
    let s := { idleState with events := [.read 0xFFFC] }
    Machine.Inv s ∧ (∀ e ∈ s.events, e.presentable = true) ∧
    ∀ e, s.events.head? = some e → e.presentable = true := by
  refine ⟨by constructor <;> decide, by decide, ?_⟩
  intro e he
  cases he
  rfl

theorem test_witness_ParameterNeverChanges : ∃ t, step idleState = .next t := ⟨idleState, rfl⟩

/-- Two blocks that differ in K0, and the completion of SHA_INIT on both. -/
theorem test_witness_HiddenKeyHasNoReadPath :
    let s := busyState .shaInit
    let t := { s with k0 := Vector.replicate 64 0 }
    agreeExceptK0 s t ∧ s.k0 ≠ t.k0 ∧
    (∀ off, s.busy = true → s.events.head? = some (.read off) → ¬ dataOffset s.rMax off.toNat) ∧
    (s.events.head? = none ∨ s.events.head? = some .completion → s.busy = true →
      pendingCommand s ≠ some .hmacInit ∧ ∀ n, pendingCommand s ≠ some (.hmacFinal n)) ∧
    s.busy = true ∧ ∃ s', step s = .next s' := by
  refine ⟨rfl, by decide, ?_, ?_, rfl, _, engineTurn_busy _ .shaInit rfl rfl⟩
  · intro off _ he
    have : (none : Option Event) = some (.read off) := he
    cases this
  · intro _ _
    have hp : pendingCommand (busyState .shaInit) = some .shaInit := rfl
    rw [hp]
    simp

theorem test_witness_FinalizeCompressesThePaddedTail :
    (∀ n ∈ [0, 55, 56, 63], n ≤ 63 ∧ n ≤ (rep 0x61 63).length) := by decide

theorem test_witness_KeyBlocksAreNotInjective :
    [0x61, 0x62].length + 62 ≤ 64 ∧ 64 < (rep 0xaa 65).length := by decide

theorem test_witness_SalsaPropertiesHold :
    let s' := { idleState with len := 0 }
    idleState.mem.wf = true ∧ s'.mem.wf = true ∧ idleState.x = s'.x ∧
    (∃ t, exec .salsa idleState = .next t) ∧ ∃ t, exec .salsa s' = .next t :=
  ⟨by decide, by decide, rfl, goesOn _ _, goesOn _ _⟩

theorem test_witness_BlockmixPlacesItsOutputs : 1 ≤ 1 ∧ (rep 0x40 128).length = 128 * 1 ∧ 0 + 1 < 2 * 1 ∧ 0 < 1 :=
  ⟨by decide, length_rep _ _, by decide, by decide⟩

theorem test_witness_ShaSequenceReturnsSha256 :
    Machine.Inv idleState ∧ idleState.busy = false ∧ 8 * (rep 0x61 120).length < 2 ^ 64 :=
  ⟨inv_idleState, rfl, by rw [length_rep]; decide⟩

theorem test_witness_HmacSequenceReturnsHmac :
    Machine.Inv idleState ∧ idleState.busy = false ∧ 8 * (rep 0xaa 131).length < 2 ^ 64 ∧
    8 * (64 + (rep 0x61 56).length) < 2 ^ 64 :=
  ⟨inv_idleState, rfl, by rw [length_rep]; decide, by rw [length_rep]; decide⟩

theorem test_witness_BlockmixFromSalsaCommands :
    Machine.Inv cleanState ∧ cleanState.busy = false ∧ 1 ≤ 8 ∧ (rep 0x40 1024).length = 128 * 8 ∧
    cleanState.err = false ∧ 8 ≤ cleanState.rMax.toNat ∧
    Machine.Inv idleState ∧ idleState.busy = false ∧ idleState.err = true :=
  ⟨inv_cleanState, rfl, by decide, length_rep _ _, rfl, by decide, inv_idleState, rfl, rfl⟩

/-- The first and last dkLen of both ranges, with ERR = 0 and ERR = 1. -/
theorem test_witness_PbkdfOverTheBlock :
    Machine.Inv cleanState ∧ cleanState.busy = false ∧ cleanState.err = false ∧
    Machine.Inv idleState ∧ idleState.busy = false ∧ idleState.err = true ∧
    8 * [0x70, 0x77].length < 2 ^ 64 ∧ 8 * (64 + [0x73, 0x61, 0x6c, 0x74].length + 4) < 2 ^ 64 ∧
    (0 : Int) ≤ 0 ∧ (2 ^ 32 - 1) * 32 < ((2 ^ 32 - 1) * 32 + 1 : Int) ∧
    (∀ d ∈ [1, (2 ^ 32 - 1) * 32], (0 : Int) < d ∧ d ≤ (2 ^ 32 - 1) * 32) :=
  ⟨inv_cleanState, rfl, rfl, inv_idleState, rfl, rfl, by decide, by decide, by decide, by decide, by decide⟩

/-- An r that fits the buffer and one that does not. -/
theorem test_witness_RomixOverTheBlock :
    Machine.Inv cleanState ∧ cleanState.busy = false ∧ cleanState.err = false ∧ 1 ≤ 8 ∧ 8 ≤ cleanState.rMax.toNat ∧
    (rep 0x40 1024).length = 128 * 8 ∧ 1 ≤ 9 ∧ cleanState.rMax.toNat < 9 ∧ (rep 0x40 1152).length = 128 * 9 ∧
    Machine.Inv idleState ∧ idleState.busy = false ∧ idleState.err = true :=
  ⟨inv_cleanState, rfl, rfl, by decide, by decide, length_rep _ _, by decide, by decide, length_rep _ _,
    inv_idleState, rfl, rfl⟩

/-- A busy block, and parameters of every outcome of the validation. -/
theorem test_witness_ScryptOverTheBlock :
    Machine.Inv (busyState .shaInit) ∧ Machine.Inv idleState ∧ 8 * [0x70, 0x77].length < 2 ^ 64 ∧
    8 * (64 + [0x73].length + 4) < 2 ^ 64 ∧ validate 16 1 1 64 2048 = .ok () ∧ validate 16 9 2 64 18432 = .ok () ∧
    validate 16 1 1 64 2047 ≠ .ok () ∧ validate 15 1 1 64 2048 ≠ .ok () :=
  ⟨inv_busyState, inv_idleState, by decide, by decide, by decide +kernel, by decide +kernel, by decide +kernel,
    by decide +kernel⟩

theorem test_witness_TakeoverLeavesACleanBlock :
    Machine.Inv (busyState .shaInit) ∧ (busyState .shaInit).busy = true ∧ Machine.Inv idleState ∧
    idleState.busy = false := ⟨inv_busyState, rfl, inv_idleState, rfl⟩

end Sys2Proof.Tests
end

section
/-! PROOFS of 10_state.md: the invariant and what every step keeps (O46, O45, O48, O40). -/

namespace Sys2Proof.Machine

/-! ### One step, said once -/

/-- The states a step can go on with: the first event is taken off the list, and the rest of the step is a read,
a write, an idle turn, a completion or a reset. -/
theorem step_next (s t : State) (h : step s = .next t) :
    ∃ es, (∃ v n, t = { withEvents s es with draws := n, reads := v :: s.reads }) ∨
      (∃ off v, t = busWrite (withEvents s es) off v) ∨ t = withEvents s es ∨
      (∃ i, i.wellFormed s.rMax = true ∧ t = complete (dataEffect i (withEvents s es))) ∨
      t = resetBlock (withEvents s es) := by
  rcases step_cases s t h with ⟨-, h⟩ | ⟨off, rest, -, h⟩ | ⟨off, v, rest, -, h⟩ | ⟨rest, -, h⟩ | ⟨rest, -, h⟩
  · rcases engineTurn_next _ _ h with ⟨-, rfl⟩ | ⟨-, i, -, hw, rfl⟩
    · exact ⟨t.events, .inr (.inr (.inl rfl))⟩
    · exact ⟨s.events, .inr (.inr (.inr (.inl ⟨i, hw, rfl⟩)))⟩
  · obtain ⟨-, v, n, ht⟩ := hostRead_next _ _ off h
    exact ⟨rest, .inl ⟨v, n, ht⟩⟩
  · exact ⟨rest, .inr (.inl ⟨off, v, (hostWrite_next _ _ off v h).2⟩)⟩
  · rcases engineTurn_next _ _ h with ⟨-, ht⟩ | ⟨-, i, -, hw, ht⟩
    · exact ⟨rest, .inr (.inr (.inl ht))⟩
    · exact ⟨rest, .inr (.inr (.inr (.inl ⟨i, hw, ht⟩)))⟩
  · exact ⟨rest, .inr (.inr (.inr (.inr h)))⟩

/-- The states a listed host transaction can go on with: a read or a write. -/
theorem step_transaction (s t : State) (e : Event) (rest : List Event) (he : s.events = e :: rest)
    (ht : e.isTransaction = true) (h : step s = .next t) :
    (∃ v n, t = { withEvents s rest with draws := n, reads := v :: s.reads }) ∨
      ∃ off v, t = busWrite (withEvents s rest) off v := by
  rw [step_event s e rest he] at h
  cases e with
  | read off => exact .inl (hostRead_next _ _ off h).2
  | write off v => exact .inr ⟨off, v, (hostWrite_next _ _ off v h).2⟩
  | completion => cases ht
  | reset => cases ht

/-! ### The storage part of the invariant (20_memory.md R52) -/

/-- The storage is in canonical form and lists offsets of MSG, X and BM only: the first two fields of `Inv`. -/
def StorageOk (rMax : Byte) (m : Memory) : Prop :=
  m.wf = true ∧ ∀ c ∈ m, storageOffset rMax c.1 = true

theorem Inv.storageOk {s : State} (h : Inv s) : StorageOk s.rMax s.mem := ⟨h.memWf, h.memStorage⟩

theorem storageOk_nil (rMax : Byte) : StorageOk rMax [] := ⟨rfl, by simp⟩

/-- Storing a string at offsets of the storage. -/
theorem StorageOk.storeBytes {rMax : Byte} {m : Memory} (h : StorageOk rMax m) (a : Nat) (bs : List Byte)
    (hs : ∀ k, a ≤ k → k < a + bs.length → storageOffset rMax k = true) : StorageOk rMax (m.storeBytes a bs) := by
  refine ⟨Memory.storeBytes_wf m a bs h.1, fun c hc => ?_⟩
  rcases Memory.mem_storeBytes m a bs c hc with hc | ⟨hlo, hhi⟩
  · exact h.2 c hc
  · exact hs c.1 hlo hhi

theorem storageOffset_msg (rMax : Byte) (a : Nat) (h : msgBase ≤ a) (h' : a < msgBase + 64) :
    storageOffset rMax a = true := by
  simp [storageOffset, h, h']

theorem storageOffset_x (rMax : Byte) (a : Nat) (h : xBase ≤ a) (h' : a < xBase + 64) :
    storageOffset rMax a = true := by
  simp [storageOffset, h, h']

theorem storageOffset_bm (rMax : Byte) (a : Nat) (h : bmBase ≤ a) (h' : a < bmBase + bmSize rMax) :
    storageOffset rMax a = true := by
  simp [storageOffset, h, h']

/-- The argument range of BLOCKMIX (30_encoding.md R84). -/
theorem wellFormed_blockmix_iff (rMax r : Byte) :
    Instr.wellFormed rMax (.blockmix r) = true ↔ 1 ≤ r.toNat ∧ r.toNat ≤ rMax.toNat := by
  simp only [Instr.wellFormed, decide_eq_true_eq]

/-- A command stores inside X and BM only. -/
theorem StorageOk.dataEffect {s : State} (h : StorageOk s.rMax s.mem) (i : Instr)
    (hw : i.wellFormed s.rMax = true) : StorageOk s.rMax (dataEffect i s).mem := by
  rw [dataEffect_mem]
  cases i with
  | salsa => exact h.storeBytes _ _ fun k hlo hhi => storageOffset_x _ k hlo (by rwa [length_salsa208] at hhi)
  | blockmix r =>
    obtain ⟨hr, hmax⟩ := (wellFormed_blockmix_iff _ r).1 hw
    refine (h.storeBytes _ _ fun k hlo hhi => ?_).storeBytes _ _ fun k hlo hhi => ?_
    · rw [length_blockmix_fst] at hhi
      exact storageOffset_bm _ k hlo (by unfold bmSize; omega)
    · exact storageOffset_x _ k hlo (by rwa [length_blockmix_snd _ _ hr] at hhi)
  | zeroize => exact storageOk_nil _
  | _ => exact h

/-! ### Each operation keeps the invariant -/

/-- The invariant does not speak of the data registers, IRQ_EN or the model's own fields. -/
theorem Inv.congr {s t : State} (h : Inv s) (hm : t.mem = s.mem) (hr : t.rMax = s.rMax) (hb : t.busy = s.busy)
    (hd : t.done = s.done) (he : t.err = s.err) (hc : t.ecode = s.ecode) (hp : t.pend = s.pend) : Inv t where
  memWf := hm ▸ h.memWf
  memStorage := hm ▸ hr ▸ h.memStorage
  rMaxPos := hr ▸ h.rMaxPos
  busyPending := by rw [hb, pendingCommand_congr s t hp hr]; exact h.busyPending
  busyNotDone := by rw [hb, hd]; exact h.busyNotDone
  errCode := by rw [he, hc]; exact h.errCode

theorem Inv.withEvents {s : State} (h : Inv s) (es : List Event) : Inv (withEvents s es) :=
  h.congr rfl rfl rfl rfl rfl rfl rfl

theorem Inv.writeIrqEn {s : State} (h : Inv s) (v : Word) : Inv (writeIrqEn s v) :=
  h.congr rfl rfl rfl rfl rfl rfl rfl

theorem Inv.raiseError {s : State} (h : Inv s) (c : ErrorCode) : Inv (raiseError s c) := by
  cases he : s.err with
  | true => rwa [raiseError_of_err s c he]
  | false =>
    rw [raiseError_of_no_err s c he]
    exact { h with errCode := rfl }

theorem Inv.writeStatus {s : State} (h : Inv s) (v : Word) : Inv (writeStatus s v) where
  memWf := by simpa using h.memWf
  memStorage := by simpa using h.memStorage
  rMaxPos := by simpa using h.rMaxPos
  busyPending := by
    rw [writeStatus_busy, pendingCommand_congr s _ (writeStatus_pend s v) (writeStatus_rMax s v)]
    exact h.busyPending
  busyNotDone := by
    rw [writeStatus_busy, writeStatus_done, Bool.and_eq_true]
    exact fun ⟨hb, hd, _⟩ => h.busyNotDone ⟨hb, hd⟩
  errCode := by
    rw [writeStatus_err, writeStatus_ecode, h.errCode]
    cases v.getLsbD 2 <;> simp

theorem Inv.storeWord {s : State} (h : Inv s) (a : Nat) (v : Word)
    (hs : ∀ k, a ≤ k → k < a + 4 → storageOffset s.rMax k = true) : Inv (storeWord s a v) :=
  have hm := h.storageOk.storeBytes a (le32 v) hs
  { h with memWf := hm.1, memStorage := hm.2 }

/-- An accepted legal word stands in PEND as the command it decodes to (20_memory.md R59). -/
theorem pendingCommand_accept_of_decode (s : State) (v : Word) (i : Instr) (h : decode s.rMax v = .ok i) :
    pendingCommand (accept s (opField v) (argField v)) = some i := by
  unfold decode at h
  split at h
  · cases h
  · simp only [pendingCommand, accept_pend, accept_rMax, h]

theorem Inv.accept {s : State} (h : Inv s) (v : Word) (i : Instr) (hi : decode s.rMax v = .ok i) :
    Inv (accept s (opField v) (argField v)) where
  memWf := h.memWf
  memStorage := h.memStorage
  rMaxPos := h.rMaxPos
  busyPending _ := by rw [pendingCommand_accept_of_decode s v i hi]; rfl
  busyNotDone := by simp
  errCode := h.errCode

theorem Inv.presentCommand {s : State} (h : Inv s) (v : Word) : Inv (presentCommand s v) := by
  rcases presentCommand_cases s v with ⟨c, -, hc⟩ | ⟨i, hi, hc⟩ <;> rw [hc]
  · exact h.raiseError c
  · exact h.accept v i hi

/-- A write from the port: only MSG, X and BM are stored to, and only a legal command is accepted. -/
theorem Inv.busWrite {s : State} (h : Inv s) (off : Offset) (v : Word) : Inv (busWrite s off v) := by
  rcases busWrite_cases s off v with ⟨-, -, hw⟩ | ⟨-, hw⟩ <;> rw [hw]
  · exact h.raiseError _
  cases ht : targetAt s.rMax off.toNat with
  | status => exact h.writeStatus v
  | irqEn => exact h.writeIrqEn v
  | cmd => exact h.presentCommand v
  | msg k =>
    have := (targetAt_msg _ _ _ ht).2
    exact h.storeWord _ v fun a hlo hhi => storageOffset_msg _ a (by omega) (by omega)
  | x k =>
    have := (targetAt_x _ _ _ ht).2
    exact h.storeWord _ v fun a hlo hhi => storageOffset_x _ a (by omega) (by omega)
  | bm k =>
    have := (targetAt_bm _ _ _ ht).2
    exact h.storeWord _ v fun a hlo hhi => storageOffset_bm _ a (by omega) (by omega)
  | _ => exact h

/-- A completion leaves the block idle, so nothing is asked of PEND. -/
theorem Inv.complete_dataEffect {s : State} (h : Inv s) (i : Instr) (hw : i.wellFormed s.rMax = true) :
    Inv (complete (dataEffect i s)) := by
  have hc := dataEffect_control i s
  have hm := h.storageOk.dataEffect i hw
  constructor
  case memWf => exact hm.1
  case memStorage => rw [complete_rMax, hc.rMax]; exact hm.2
  case rMaxPos => rw [complete_rMax, hc.rMax]; exact h.rMaxPos
  case busyPending => simp
  case busyNotDone => simp
  case errCode => rw [complete_err, complete_ecode, hc.err, hc.ecode]; exact h.errCode

theorem inv_resetBlock (s : State) (hr : s.rMax ≠ 0) : Inv (resetBlock s) where
  memWf := (storageOk_nil s.rMax).1
  memStorage := (storageOk_nil s.rMax).2
  rMaxPos := hr
  busyPending := by simp
  busyNotDone := by simp
  errCode := rfl

/-! ### What every step keeps -/

/-- Settles O46, by cases on what the step can do: each operation keeps the invariant. -/
theorem stepKeepsTheInvariant : Obligations.StepKeepsTheInvariant := by
  intro s t h hst
  obtain ⟨es, ⟨v, n, rfl⟩ | ⟨off, v, rfl⟩ | rfl | ⟨i, hw, rfl⟩ | rfl⟩ := step_next s t hst
  · exact h.congr rfl rfl rfl rfl rfl rfl rfl
  · exact (h.withEvents es).busWrite off v
  · exact h.withEvents es
  · exact (h.withEvents es).complete_dataEffect i hw
  · exact inv_resetBlock _ h.rMaxPos

/-- Settles O45: the reset state is what the reset event leaves of it. -/
theorem resetMeetsTheInvariant : Obligations.ResetMeetsTheInvariant :=
  inv_resetBlock State.reset (by decide)

/-- Settles O48: every operation a step can perform keeps the parameter. -/
theorem parameterNeverChanges : Obligations.ParameterNeverChanges := by
  intro s t hst
  obtain ⟨es, ⟨v, n, rfl⟩ | ⟨off, v, rfl⟩ | rfl | ⟨i, -, rfl⟩ | rfl⟩ := step_next s t hst
  · rfl
  · obtain ⟨-, -, -, hr, -⟩ := busWrite_frame (withEvents s es) off v
    exact hr
  · rfl
  · exact (dataEffect_control i (withEvents s es)).rMax
  · rfl

/-- Settles O40: a read changes at most the model's own fields, and no target of a write is H, LEN or K0. -/
theorem hostCannotWriteHashOrKey : Obligations.HostCannotWriteHashOrKey := by
  intro s t e rest he ht hst
  rcases step_transaction s t e rest he ht hst with ⟨v, n, rfl⟩ | ⟨off, v, rfl⟩
  · exact ⟨rfl, rfl, rfl⟩
  · obtain ⟨hh, hl, hk, -⟩ := busWrite_frame (withEvents s rest) off v
    exact ⟨hh, hl, hk⟩

end Sys2Proof.Machine

end

section
/-! PROOFS of 10_state.md: the hidden key has no read path (O49). -/

namespace Sys2Proof.Machine

/-! ### The block with another hidden key -/

/-- The same block with another hidden key block. -/
def withK0 (s : State) (k : Vector Byte 64) : State := { s with k0 := k }

theorem agreeExceptK0_iff (s t : State) : agreeExceptK0 s t ↔ t = withK0 s t.k0 := eq_comm

theorem agreeExceptK0_withK0 (s : State) (k : Vector Byte 64) : agreeExceptK0 s (withK0 s k) := rfl

theorem complete_withK0 (s : State) (k : Vector Byte 64) : complete (withK0 s k) = withK0 (complete s) k := rfl

theorem raiseError_withK0 (s : State) (k : Vector Byte 64) (c : ErrorCode) :
    raiseError (withK0 s k) c = withK0 (raiseError s c) k := by
  cases h : s.err <;> simp [raiseError, withK0, h]

theorem writeStatus_withK0 (s : State) (k : Vector Byte 64) (v : Word) :
    writeStatus (withK0 s k) v = withK0 (writeStatus s v) k := by
  unfold writeStatus
  cases v.getLsbD 1 <;> cases v.getLsbD 2 <;> rfl

theorem presentCommand_withK0 (s : State) (k : Vector Byte 64) (v : Word) :
    presentCommand (withK0 s k) v = withK0 (presentCommand s v) k := by
  have hr : (withK0 s k).rMax = s.rMax := rfl
  unfold presentCommand
  rw [hr]
  cases decode s.rMax v with
  | error c => exact raiseError_withK0 s k c
  | ok i => rfl

theorem writeTarget_withK0 (s : State) (k : Vector Byte 64) (v : Word) (t : Target) :
    writeTarget (withK0 s k) v t = withK0 (writeTarget s v t) k := by
  cases t with
  | status => exact writeStatus_withK0 s k v
  | cmd => exact presentCommand_withK0 s k v
  | _ => rfl

/-- A write does not look at the key. -/
theorem busWrite_withK0 (s : State) (k : Vector Byte 64) (off : Offset) (v : Word) :
    busWrite (withK0 s k) off v = withK0 (busWrite s off v) k := by
  have hr : (withK0 s k).rMax = s.rMax := rfl
  have hb : (withK0 s k).busy = s.busy := rfl
  simp only [busWrite, hr, hb, writeTarget_withK0, raiseError_withK0]
  split <;> rfl

/-- No target of the address map shows the key (10_state.md R24). -/
theorem targetWord_withK0 (s : State) (k : Vector Byte 64) (t : Target) :
    targetWord (withK0 s k) t = targetWord s t := by
  cases t <;> rfl

/-- A read returns the same word whatever the key is. -/
theorem busRead_withK0 (s : State) (k : Vector Byte 64) (off : Offset) :
    busRead (withK0 s k) off = ((busRead s off).1, withK0 (busRead s off).2 k) := by
  have hr : (withK0 s k).rMax = s.rMax := rfl
  have hb : (withK0 s k).busy = s.busy := rfl
  simp only [busRead, hr, hb, targetWord_withK0]
  split <;> rfl

/-- HMAC_INIT and HMAC_FINAL, the commands whose meaning reads K0 (41_hmac.md R137, R139). -/
def readsK0 : Instr → Bool
  | .hmacInit => true
  | .hmacFinal _ => true
  | _ => false

/-- Any other command keeps the key, or replaces it whatever it was. -/
theorem dataEffect_withK0 (i : Instr) (s : State) (k : Vector Byte 64) (hi : readsK0 i = false) :
    ∃ k', dataEffect i (withK0 s k) = withK0 (dataEffect i s) k' := by
  cases i with
  | hmacKey n => exact ⟨(dataEffect (.hmacKey n) s).k0, rfl⟩
  | hmacKeyd => exact ⟨(dataEffect .hmacKeyd s).k0, rfl⟩
  | zeroize => exact ⟨(dataEffect .zeroize s).k0, rfl⟩
  | hmacInit => cases hi
  | hmacFinal n => cases hi
  | _ => exact ⟨k, rfl⟩

/-- The engine's turn on a block with another key, unless it runs a command that reads the key. -/
theorem engineTurn_withK0 (s t : State) (k : Vector Byte 64)
    (hi : s.busy = true → ∀ i, pendingCommand s = some i → readsK0 i = false) (h : engineTurn s = .next t) :
    ∃ k', engineTurn (withK0 s k) = .next (withK0 t k') := by
  rcases engineTurn_next s t h with ⟨hb, rfl⟩ | ⟨hb, i, hp, -, rfl⟩
  · refine ⟨k, ?_⟩
    have hb' : (withK0 t k).busy = false := hb
    simp [engineTurn, hb']
  · obtain ⟨k', hk⟩ := dataEffect_withK0 i s k (hi hb i hp)
    exact ⟨k', by rw [engineTurn_busy (withK0 s k) i hb hp, hk, complete_withK0]⟩

/-- One event on a block with another key, unless it completes a command that reads the key. -/
theorem takeEvent_withK0 (s t : State) (k : Vector Byte 64) (e : Event)
    (hi : e = .completion → s.busy = true → ∀ i, pendingCommand s = some i → readsK0 i = false)
    (h : takeEvent s e = .next t) : ∃ k', takeEvent (withK0 s k) e = .next (withK0 t k') := by
  cases e with
  | read off =>
    simp only [takeEvent, hostRead] at h ⊢
    split at h
    · next ha =>
      cases h
      exact ⟨k, by rw [if_pos ha, busRead_withK0]; rfl⟩
    · cases h
  | write off v =>
    obtain ⟨ha, rfl⟩ := hostWrite_next s t off v h
    exact ⟨k, by simp only [takeEvent, hostWrite, ha, if_true, busWrite_withK0]⟩
  | completion => exact engineTurn_withK0 s t k (hi rfl) h
  | reset => cases h; exact ⟨(resetBlock s).k0, rfl⟩

/-- Settles O49: one event, or the engine's turn when none is listed, on the block with another key. The hypothesis
on reads of a busy block is not needed, since the model's draws do not depend on the key (log 6). -/
theorem hiddenKeyHasNoReadPath : Obligations.HiddenKeyHasNoReadPath := by
  intro s t s' hst _ hcmd hstep
  have hi (he : s.events.head? = none ∨ s.events.head? = some .completion) (hb : s.busy = true) (i : Instr)
      (hp : pendingCommand s = some i) : readsK0 i = false := by
    obtain ⟨hinit, hfinal⟩ := hcmd he hb
    cases i with
    | hmacInit => exact absurd hp hinit
    | hmacFinal n => exact absurd hp (hfinal n)
    | _ => rfl
  suffices h : ∃ k', step (withK0 s t.k0) = .next (withK0 s' k') by
    obtain ⟨k', h⟩ := h
    rw [← (agreeExceptK0_iff s t).1 hst] at h
    exact ⟨withK0 s' k', h, agreeExceptK0_withK0 s' k', rfl⟩
  cases he : s.events with
  | nil =>
    have hnil (u : State) (hu : u.events = []) : step u = engineTurn u := by simp only [step, hu]
    rw [hnil s he] at hstep
    rw [hnil (withK0 s t.k0) he]
    exact engineTurn_withK0 s s' t.k0 (hi (.inl (by rw [he]; rfl))) hstep
  | cons e rest =>
    rw [step_event s e rest he] at hstep
    rw [step_event (withK0 s t.k0) e rest he]
    exact takeEvent_withK0 { s with events := rest } s' t.k0 e
      (fun hc => hi (.inr (by rw [he, hc]; rfl))) hstep

end Sys2Proof.Machine

end

section
/-! PROOFS of 10_state.md: what the commands leave alone (O18 to O22). -/

namespace Sys2Proof.Machine

/-! ### The columns of 10_state.md R37 -/

/-- The commands that write H and LEN (R37). -/
def writesHash : Instr → Bool
  | .shaInit => true
  | .shaUpdate => true
  | .shaFinal _ => true
  | .hmacInit => true
  | .hmacFinal _ => true
  | .zeroize => true
  | _ => false

/-- The commands that write K0 (R37). -/
def writesK0 : Instr → Bool
  | .hmacKey _ => true
  | .hmacKeyd => true
  | .zeroize => true
  | _ => false

/-- The commands that write the byte storage (R37). -/
def writesMem : Instr → Bool
  | .salsa => true
  | .blockmix _ => true
  | .zeroize => true
  | _ => false

theorem dataEffect_sameHash (i : Instr) (s : State) (h : writesHash i = false) : sameHash s (dataEffect i s) := by
  cases i with
  | nop | hmacKey | hmacKeyd | salsa | blockmix => simp [sameHash, dataEffect]
  | _ => cases h

theorem dataEffect_k0 (i : Instr) (s : State) (h : writesK0 i = false) : (dataEffect i s).k0 = s.k0 := by
  cases i with
  | hmacKey | hmacKeyd | zeroize => cases h
  | _ => simp [dataEffect]

theorem dataEffect_mem_of_not_writesMem (i : Instr) (s : State) (h : writesMem i = false) :
    (dataEffect i s).mem = s.mem := by
  rw [dataEffect_mem]
  cases i with
  | salsa | blockmix | zeroize => cases h
  | _ => rfl

/-! ### What `exec` leaves alone -/

theorem exec_wellFormed_next (i : Instr) (s t : State) (hw : i.wellFormed s.rMax = true) (h : exec i s = .next t) :
    t = complete (dataEffect i s) := by
  rw [exec_of_wellFormed i s hw, Host.Outcome.next.injEq] at h
  exact h.symm

theorem exec_illFormed_next (i : Instr) (s t : State) (hw : i.wellFormed s.rMax = false) (h : exec i s = .next t) :
    t = raiseError s .illArg := by
  rw [exec_of_not_wellFormed i s hw, Host.Outcome.next.injEq] at h
  exact h.symm

theorem complete_sameControl (s u : State) (h : SameControl s u) : SameControl s (complete u) :=
  ⟨h.err, h.ecode, h.ieDone, h.ieErr, h.pend, h.rMax, h.events, h.reads, h.draws⟩

theorem exec_sameControl (i : Instr) (s t : State) (hw : i.wellFormed s.rMax = true) (h : exec i s = .next t) :
    SameControl s t := by
  rw [exec_wellFormed_next i s t hw h]
  exact complete_sameControl _ _ (dataEffect_control i s)

/-- What no term of `Instr` writes, in range or not: an argument out of range writes ERR and ECODE only. -/
theorem exec_control_frame (i : Instr) (s t : State) (h : exec i s = .next t) :
    t.pend = s.pend ∧ t.ieDone = s.ieDone ∧ t.ieErr = s.ieErr ∧ t.rMax = s.rMax ∧ t.events = s.events ∧
    t.reads = s.reads ∧ t.draws = s.draws ∧ (i.wellFormed s.rMax = true → t.err = s.err ∧ t.ecode = s.ecode) := by
  cases hw : i.wellFormed s.rMax with
  | true =>
    have hc := exec_sameControl i s t hw h
    exact ⟨hc.pend, hc.ieDone, hc.ieErr, hc.rMax, hc.events, hc.reads, hc.draws, fun _ => ⟨hc.err, hc.ecode⟩⟩
  | false =>
    rw [exec_illFormed_next i s t hw h]
    simp

/-- A term with its argument out of range leaves the data state, BUSY and DONE (log 10). -/
theorem exec_illFormed_frame (i : Instr) (s t : State) (hw : i.wellFormed s.rMax = false) (h : exec i s = .next t) :
    sameHash s t ∧ t.k0 = s.k0 ∧ t.mem = s.mem ∧ t.busy = s.busy ∧ t.done = s.done := by
  rw [exec_illFormed_next i s t hw h]
  simp [sameHash]

theorem exec_sameHash (i : Instr) (s t : State) (hi : writesHash i = false) (h : exec i s = .next t) :
    sameHash s t := by
  rcases exec_next i s t h with ⟨-, rfl⟩ | ⟨hw, -⟩
  · exact dataEffect_sameHash i s hi
  · exact (exec_illFormed_frame i s t hw h).1

theorem exec_k0 (i : Instr) (s t : State) (hi : writesK0 i = false) (h : exec i s = .next t) : t.k0 = s.k0 := by
  rcases exec_next i s t h with ⟨-, rfl⟩ | ⟨-, rfl⟩
  · exact dataEffect_k0 i s hi
  · exact raiseError_k0 s .illArg

theorem exec_sameMemory (i : Instr) (s t : State) (hi : writesMem i = false) (h : exec i s = .next t) :
    sameMemory s t := by
  have hm : t.mem = s.mem := by
    rcases exec_next i s t h with ⟨-, rfl⟩ | ⟨-, rfl⟩
    · exact dataEffect_mem_of_not_writesMem i s hi
    · exact raiseError_mem s .illArg
  exact fun a => by rw [hm]

/-- SALSA leaves every byte outside X (42_salsa20_8.md R156). -/
theorem exec_salsa_read (s t : State) (h : exec .salsa s = .next t) (a : Nat) (ha : a < xBase ∨ xBase + 64 ≤ a) :
    t.mem.read a = s.mem.read a := by
  rw [exec_wellFormed_next .salsa s t rfl h, complete_mem, read_dataEffect_salsa s a ha]

/-- BLOCKMIX r leaves every byte outside X and the 128r bytes of BM (43_blockmix.md R168). -/
theorem exec_blockmix_read (r : Byte) (s t : State) (h : exec (.blockmix r) s = .next t) (a : Nat)
    (hx : a < xBase ∨ xBase + 64 ≤ a) (hb : a < bmBase ∨ bmBase + 128 * r.toNat ≤ a) :
    t.mem.read a = s.mem.read a := by
  rcases exec_next _ s t h with ⟨hw, rfl⟩ | ⟨-, rfl⟩
  · have hr := ((wellFormed_blockmix_iff _ r).1 hw).1
    rw [complete_mem, read_dataEffect_blockmix s r a hr hx hb]
  · rw [raiseError_mem]

/-- Only ZEROIZE writes MSG (R37). -/
theorem exec_read_msg (i : Instr) (s t : State) (hi : i ≠ .zeroize) (h : exec i s = .next t) (a : Nat)
    (hlo : 0x0040 ≤ a) (hhi : a < 0x0080) : t.mem.read a = s.mem.read a := by
  have hx : a < xBase := by unfold xBase; omega
  have hb : a < bmBase := by unfold bmBase; omega
  cases i with
  | salsa => exact exec_salsa_read s t h a (.inl hx)
  | blockmix r => exact exec_blockmix_read r s t h a (.inl hx) (.inl hb)
  | zeroize => exact absurd rfl hi
  | _ => exact exec_sameMemory _ s t rfl h a

/-- Settles O18, column by column of R37. -/
theorem commandsWriteOnlyTheirRow : Obligations.CommandsWriteOnlyTheirRow := by
  intro i s t hw h
  have ht := exec_wellFormed_next i s t hw h
  refine ⟨by rw [ht, complete_busy], by rw [ht, complete_done], exec_sameControl i s t hw h, fun hi => ?_,
    fun hkeyd hkey hz => ?_, fun hz a => exec_read_msg i s t hz h a, fun hs hb hz => ?_, ?_, ?_⟩
  · have hnot : writesHash i = false := by
      rcases hi with hi | ⟨n, rfl⟩ | ⟨r, rfl⟩
      · fin_cases hi <;> rfl
      · rfl
      · rfl
    exact exec_sameHash i s t hnot h
  · have hnot : writesK0 i = false := by
      cases i with
      | hmacKey n => exact absurd rfl (hkey n)
      | hmacKeyd => exact absurd rfl hkeyd
      | zeroize => exact absurd rfl hz
      | _ => rfl
    exact exec_k0 i s t hnot h
  · have hnot : writesMem i = false := by
      cases i with
      | salsa => exact absurd rfl hs
      | blockmix r => exact absurd rfl (hb r)
      | zeroize => exact absurd rfl hz
      | _ => rfl
    exact exec_sameMemory i s t hnot h
  · rintro r rfl a ha
    exact exec_blockmix_read r s t h a (.inr (by unfold xBase; omega)) (.inr ha)
  · rintro rfl a ha
    exact exec_salsa_read s t h a (.inr (by unfold xBase; omega))

/-- Settles O19: none of the five commands has K0 or the storage in its row of R37. -/
theorem hashCommandsFrame : Obligations.HashCommandsFrame := by
  intro n i s t hi h
  have hnot : writesMem i = false ∧ writesK0 i = false := by fin_cases hi <;> exact ⟨rfl, rfl⟩
  obtain ⟨hmem, hk0⟩ := hnot
  obtain ⟨hpend, hieDone, hieErr, hrMax, hevents, hreads, hdraws, herr⟩ := exec_control_frame i s t h
  refine ⟨exec_sameMemory i s t hmem h, exec_k0 i s t hk0 h, hpend, hieDone, hieErr, hrMax, hevents, hreads, hdraws,
    herr, fun hw => ?_⟩
  obtain ⟨hhash, -, -, hbusy, hdone⟩ := exec_illFormed_frame i s t hw h
  exact ⟨hhash, hbusy, hdone⟩

/-- Settles O20: neither command has H, LEN or the storage in its row of R37. -/
theorem keyCommandsFrame : Obligations.KeyCommandsFrame := by
  intro n i s t hi h
  have hnot : writesMem i = false ∧ writesHash i = false := by fin_cases hi <;> exact ⟨rfl, rfl⟩
  obtain ⟨hmem, hhash⟩ := hnot
  obtain ⟨hpend, hieDone, hieErr, hrMax, hevents, hreads, hdraws, herr⟩ := exec_control_frame i s t h
  refine ⟨exec_sameMemory i s t hmem h, exec_sameHash i s t hhash h, hpend, hieDone, hieErr, hrMax, hevents, hreads,
    hdraws, herr, fun hw => ?_⟩
  obtain ⟨-, hk0, -, hbusy, hdone⟩ := exec_illFormed_frame i s t hw h
  exact ⟨hk0, hbusy, hdone⟩

/-- Settles O21: the stored strings are 64 bytes at X and 128r bytes at BM. -/
theorem mixCommandsFrame : Obligations.MixCommandsFrame := by
  refine ⟨fun s t h => ?_, fun r s t h => ?_⟩
  · exact ⟨exec_salsa_read s t h, exec_sameHash .salsa s t rfl h, exec_k0 .salsa s t rfl h,
      exec_sameControl .salsa s t rfl h⟩
  · refine ⟨exec_blockmix_read r s t h, exec_sameHash _ s t rfl h, exec_k0 _ s t rfl h,
      fun hw => exec_sameControl _ s t hw h, fun hw => ?_⟩
    obtain ⟨-, -, hmem, hbusy, hdone⟩ := exec_illFormed_frame _ s t hw h
    exact ⟨fun a => by rw [hmem], hbusy, hdone⟩

/-! ### A byte count bounds what a command reads of MSG -/

/-- The operand `MSG[0..n-1]` of two states that agree on these bytes. -/
theorem msgOperand_congr (s u : State) (n : Byte)
    (h : ∀ k < n.toNat, u.mem.read (0x0040 + k) = s.mem.read (0x0040 + k)) : msgOperand u n = msgOperand s n := by
  simp only [msgOperand, State.msg, Memory.loadBytes, ← List.map_take, List.take_range]
  refine List.map_congr_left fun k hk => h k ?_
  have := List.mem_range.1 hk
  omega

/-- Settles O22: of MSG each of the three commands reads `msgOperand` alone. -/
theorem staleMessageBytesAreIgnored : Obligations.StaleMessageBytesAreIgnored := by
  intro n i s s' t t' hi hw hr ⟨hh, hl⟩ hk hmsg h h'
  rw [exec_wellFormed_next i s t hw h, exec_wellFormed_next i s' t' (by rwa [hr]) h']
  have hop := msgOperand_congr s s' n hmsg
  simp only [List.mem_cons, List.not_mem_nil, or_false] at hi
  rcases hi with rfl | rfl | rfl <;>
    simp [sameHash, dataEffect, hop, hh, hl, hk]

end Sys2Proof.Machine

end

section
/-! PROOFS of 10_state.md: the registers STATUS, IRQ_EN, ID and PARAM, and the reset values (O28, O29, O30, O43). -/

namespace Sys2Proof.Machine

/-! ### STATUS (10_state.md R27) -/

/-- A flag moved to bit `k` of a word. -/
theorem getLsbD_bit_shiftLeft (b : Bool) (k i : Nat) (hi : i < 32) :
    (bit b <<< k).getLsbD i = (decide (i = k) && b) := by
  by_cases hk : i < k
  · simp [hk, hi, show i ≠ k by omega]
  · have hzero : i - k = 0 ↔ i = k := by omega
    cases b <;> simp [bit, hk, hi, hzero]

/-- STATUS bit by bit: BUSY, DONE, ERR, then the code from bit 4 on. -/
theorem getLsbD_statusWord (s : State) (i : Nat) (hi : i < 32) :
    (statusWord s).getLsbD i = (decide (i = 0) && s.busy || decide (i = 1) && s.done || decide (i = 2) && s.err ||
      decide (4 ≤ i) && (ecodeBits s.ecode).getLsbD (i - 4)) := by
  have hbusy := getLsbD_bit_shiftLeft s.busy 0 i hi
  rw [BitVec.shiftLeft_zero] at hbusy
  have hcode : (((ecodeBits s.ecode).setWidth 32) <<< 4).getLsbD i =
      (decide (4 ≤ i) && (ecodeBits s.ecode).getLsbD (i - 4)) := by
    by_cases h4 : 4 ≤ i
    · simp [hi, h4, show ¬ i < 4 by omega]
    · simp [h4, show i < 4 by omega]
  rw [statusWord, BitVec.getLsbD_or, BitVec.getLsbD_or, BitVec.getLsbD_or, hbusy,
    getLsbD_bit_shiftLeft s.done 1 i hi, getLsbD_bit_shiftLeft s.err 2 i hi, hcode]

theorem statusWord_busy (s : State) : (statusWord s).getLsbD 0 = s.busy := by
  rw [getLsbD_statusWord s 0 (by decide)]
  simp

theorem statusWord_done (s : State) : (statusWord s).getLsbD 1 = s.done := by
  rw [getLsbD_statusWord s 1 (by decide)]
  simp

theorem statusWord_bit3 (s : State) : (statusWord s).getLsbD 3 = false := by
  rw [getLsbD_statusWord s 3 (by decide)]
  simp

theorem statusWord_ecode (s : State) : (statusWord s).extractLsb' 4 4 = ecodeBits s.ecode := by
  apply BitVec.eq_of_getLsbD_eq
  intro i hi
  rw [BitVec.getLsbD_extractLsb', getLsbD_statusWord s (4 + i) (by omega)]
  simp [hi, show 4 + i ≠ 1 by omega, show 4 + i ≠ 2 by omega]

theorem statusWord_upper (s : State) : (statusWord s).extractLsb' 8 24 = 0 := by
  apply BitVec.eq_of_getLsbD_eq
  intro i hi
  rw [BitVec.getLsbD_extractLsb', getLsbD_statusWord s (8 + i) (by omega),
    BitVec.getLsbD_of_ge (ecodeBits s.ecode) (8 + i - 4) (by omega)]
  simp [show 8 + i ≠ 1 by omega, show 8 + i ≠ 2 by omega]

/-- The largest code is BUSY_WR (60_exceptions.md R216). -/
theorem ecodeBits_le (c : Option ErrorCode) : (ecodeBits c).toNat ≤ 4 := by
  cases c with
  | none => decide
  | some c => cases c <;> decide

/-- Settles O28, field by field of the STATUS word and of `writeStatus`. -/
theorem statusReadsItsFieldsAndClearsByOnes : Obligations.StatusReadsItsFieldsAndClearsByOnes := by
  intro s v
  have hread : busRead s 0x0008 = (statusWord s, s) := busRead_status s
  have hwrite : busWrite s 0x0008 v = writeStatus s v := busWrite_status s v
  rw [hread, hwrite, writeStatus_done, writeStatus_err, writeStatus_ecode, writeStatus_busy]
  exact ⟨⟨statusWord_busy s, statusWord_done s, statusWord_err s, statusWord_bit3 s, statusWord_ecode s,
    statusWord_upper s, rfl⟩, ecodeBits_le s.ecode, rfl, rfl, fun hv => by rw [hv]; rfl,
    fun hv => by rw [hv]; rfl, rfl⟩

/-! ### IRQ_EN, ID and PARAM (10_state.md R28, R30, R31) -/

/-- A read of an offset that is none of the data offsets, BUSY or not. -/
theorem busRead_of_not_isData (s : State) (off : Offset) (t : Target) (ht : targetAt s.rMax off.toNat = t)
    (h : t.isData = false) : busRead s off = (targetWord s t, s) := by
  simp [busRead, ht, h]

/-- A write to an offset that is none of the guarded ones, BUSY or not. -/
theorem busWrite_of_not_isGuarded (s : State) (off : Offset) (v : Word) (t : Target)
    (ht : targetAt s.rMax off.toNat = t) (h : t.isGuarded = false) : busWrite s off v = writeTarget s v t := by
  simp [busWrite, ht, h]

/-- IE_DONE and IE_ERR read back at the bits they were written from. -/
theorem irqEnWord_writeIrqEn (s : State) (v : Word) : irqEnWord (writeIrqEn s v) = v &&& 0x00000006 := by
  have hmask : ∀ i < 32, (0x00000006 : Word).getLsbD i = (decide (i = 1) || decide (i = 2)) := by decide
  apply BitVec.eq_of_getLsbD_eq
  intro i hi
  rw [irqEnWord, BitVec.getLsbD_or, getLsbD_bit_shiftLeft _ _ _ hi, getLsbD_bit_shiftLeft _ _ _ hi,
    writeIrqEn_ieDone, writeIrqEn_ieErr, BitVec.getLsbD_and, hmask i hi]
  by_cases h1 : i = 1
  · subst h1; simp
  · by_cases h2 : i = 2
    · subst h2; simp
    · simp [h1, h2]

/-- Settles O29: IRQ_EN is neither a data offset nor a guarded one. -/
theorem irqEnStoresItsTwoBits : Obligations.IrqEnStoresItsTwoBits := by
  intro s v
  have hwrite : busWrite s 0x000C v = writeIrqEn s v := busWrite_of_not_isGuarded s _ v .irqEn rfl rfl
  refine ⟨hwrite, ?_⟩
  rw [hwrite, busRead_of_not_isData _ 0x000C .irqEn rfl rfl]
  exact irqEnWord_writeIrqEn s v

theorem paramWord_value (s : State) : (targetWord s .param).extractLsb' 0 8 = s.rMax := by
  apply BitVec.eq_of_getLsbD_eq
  intro i hi
  simp [targetWord, hi, show i < 32 by omega]

theorem paramWord_upper (s : State) : (targetWord s .param).extractLsb' 8 24 = 0 := by
  apply BitVec.eq_of_getLsbD_eq
  intro i hi
  simp [targetWord]

/-- Settles O30: neither offset is a data offset or a guarded one. -/
theorem idAndParamAreConstants : Obligations.IdAndParamAreConstants := by
  intro s v
  rw [busRead_of_not_isData s 0x0000 .id rfl rfl, busRead_of_not_isData s 0x0004 .param rfl rfl,
    busWrite_of_not_isGuarded s 0x0000 v .id rfl rfl, busWrite_of_not_isGuarded s 0x0004 v .param rfl rfl]
  refine ⟨rfl, paramWord_value s, paramWord_upper s, rfl, rfl⟩

/-! ### What a cleared block shows (10_state.md R36) -/

/-- An aligned data offset stands for a data target. -/
theorem isData_targetAt (rMax : Byte) (off : Nat) (h : dataOffset rMax off) (ha : off % 4 = 0) :
    (targetAt rMax off).isData = true := by
  rcases h with rfl | rfl | ⟨hlo, hhi⟩ | hbuf
  · rfl
  · rfl
  · obtain ⟨k, rfl⟩ := Nat.exists_eq_add_of_le hlo
    rw [targetAt_of_digest rMax k (by omega)]
    rfl
  · rcases targetAt_buffer rMax off ha hbuf with ⟨k, ht, -⟩ | ⟨k, ht, -⟩ | ⟨k, ht, -⟩ <;> rw [ht] <;> rfl

theorem fromLe32At_rep_zero (n k : Nat) : fromLe32At (rep 0 n) k = 0 := by
  have hbyte (j : Nat) : byteAt (rep 0 n) j = 0 := by simp [byteAt, rep, List.getD]
  simp only [fromLe32At, hbyte]
  rfl

theorem loadBytes_nil (a n : Nat) : Memory.loadBytes [] a n = rep 0 n := by
  simp [Memory.loadBytes, rep]

/-- With H, LEN and the storage zero, every data target holds 0. -/
theorem targetWord_of_clear (s : State) (t : Target) (hh : s.h = HashState.zero) (hl : s.len = 0) (hm : s.mem = [])
    (ht : t.isData = true) : targetWord s t = 0 := by
  have hdigest : digest HashState.zero = rep 0 32 := rfl
  cases t with
  | lenLo | lenHi =>
    rw [targetWord, hl]
    rfl
  | digest k => rw [targetWord, hh, hdigest, fromLe32At_rep_zero]
  | msg k | x k | bm k => rw [targetWord, hm, loadBytes_nil, fromLe32At_rep_zero]
  | _ => cases ht

/-- Settles O43: the stored values, then what the port shows of them. -/
theorem resetValues : Obligations.ResetValues := by
  refine ⟨rfl, rfl, fun i => ?_, Memory.read_nil, rfl, rfl, rfl, rfl, rfl, rfl, rfl, rfl, rfl, rfl, rfl,
    fun off hoff ha => ?_⟩
  · exact Vector.getElem_replicate i.isLt
  · exact targetWord_of_clear State.reset _ rfl rfl rfl (isData_targetAt _ _ hoff ha)

end Sys2Proof.Machine

end

section
/-! PROOFS of 20_memory.md: what BusRead and BusWrite do at every kind of offset (O24 to O27). -/

namespace Sys2Proof.Machine

/-! ### The kinds of offsets in the address map (20_memory.md R52) -/

theorem targetAt_of_reserved (rMax : Byte) (off : Nat) (ha : off % 4 = 0) (h : reservedOffset rMax off) :
    targetAt rMax off = .reserved := by
  by_cases hgap : off = 0x001C
  · subst hgap
    rfl
  · unfold reservedOffset at h
    rw [targetAt_of_ge rMax off (by omega), bufferAt, if_neg (by omega), if_neg (by omega), if_neg (by omega),
      if_neg (by unfold bmSize; omega)]

theorem isGuarded_targetAt_of_buffer (rMax : Byte) (off : Nat) (ha : off % 4 = 0) (h : bufferOffset rMax off) :
    (targetAt rMax off).isGuarded = true := by
  rcases targetAt_buffer rMax off ha h with ⟨k, ht, -⟩ | ⟨k, ht, -⟩ | ⟨k, ht, -⟩ <;> rw [ht] <;> rfl

/-- The targets at which a write does nothing, BUSY or not: the read-only and the reserved ones (R62). -/
def Target.ignoresWrites : Target → Bool
  | .id | .param | .lenLo | .lenHi | .digest _ | .reserved => true
  | .status | .irqEn | .cmd | .msg _ | .x _ | .bm _ => false

/-- Only STATUS, IRQ_EN, CMD and the buffers take a write. -/
theorem ignoresWrites_targetAt (rMax : Byte) (off : Nat) (hstatus : off ≠ 0x0008) (hirq : off ≠ 0x000C)
    (hcmd : off ≠ 0x0010) (hbuf : ¬ bufferOffset rMax off) : (targetAt rMax off).ignoresWrites = true := by
  unfold bufferOffset at hbuf
  cases ht : targetAt rMax off with
  | status => exact absurd (targetAt_status _ _ ht) hstatus
  | irqEn => exact absurd (targetAt_irqEn _ _ ht) hirq
  | cmd => exact absurd (targetAt_cmd _ _ ht) hcmd
  | msg k =>
    obtain ⟨hoff, hk⟩ := targetAt_msg _ _ _ ht
    unfold msgBase at hoff
    omega
  | x k =>
    obtain ⟨hoff, hk⟩ := targetAt_x _ _ _ ht
    unfold xBase at hoff
    omega
  | bm k =>
    obtain ⟨hoff, hk⟩ := targetAt_bm _ _ _ ht
    unfold bmBase at hoff
    unfold bmSize at hk
    omega
  | _ => rfl

/-! ### BusRead (20_memory.md R57) -/

theorem busRead_of_idle (s : State) (off : Offset) (t : Target) (hb : s.busy = false)
    (ht : targetAt s.rMax off.toNat = t) : busRead s off = (targetWord s t, s) := by
  simp [busRead, hb, ht]

theorem busRead_data_busy (s : State) (off : Offset) (hb : s.busy = true) (ha : off.toNat % 4 = 0)
    (h : dataOffset s.rMax off.toNat) : busRead s off = draw s := by
  simp [busRead, hb, isData_targetAt s.rMax off.toNat h ha]

theorem busRead_digest_idle (s : State) (off : Offset) (hb : s.busy = false) (hlo : 0x0020 ≤ off.toNat)
    (hhi : off.toNat ≤ 0x003C) : busRead s off = (fromLe32At (digest s.h) (off.toNat - 0x0020), s) := by
  have ht := targetAt_of_digest s.rMax (off.toNat - 0x0020) (by omega)
  rw [Nat.add_sub_cancel' hlo] at ht
  exact busRead_of_idle s off _ hb ht

theorem busRead_reserved (s : State) (off : Offset) (ha : off.toNat % 4 = 0)
    (h : reservedOffset s.rMax off.toNat) : busRead s off = (0, s) :=
  busRead_of_not_isData s off .reserved (targetAt_of_reserved _ _ ha h) rfl

/-- Settles O24, one clause per row of the address map. -/
theorem readReturnsTheMappedWord : Obligations.ReadReturnsTheMappedWord := by
  intro s off ha
  refine ⟨?id, ?param, ?status, ?irqEn, ?cmd, ?busyData, ?lenLo, ?lenHi, ?digest, ?buffer, ?reserved⟩
  case id => rintro rfl; exact busRead_of_not_isData s 0x0000 .id rfl rfl
  case param => rintro rfl; exact busRead_of_not_isData s 0x0004 .param rfl rfl
  case status => rintro rfl; exact busRead_of_not_isData s 0x0008 .status rfl rfl
  case irqEn => rintro rfl; exact busRead_of_not_isData s 0x000C .irqEn rfl rfl
  case cmd => rintro rfl; exact busRead_of_not_isData s 0x0010 .cmd rfl rfl
  case busyData => exact fun hb h => busRead_data_busy s off hb ha h
  case lenLo => rintro hb rfl; exact busRead_of_idle s 0x0014 .lenLo hb rfl
  case lenHi => rintro hb rfl; exact busRead_of_idle s 0x0018 .lenHi hb rfl
  case digest => exact busRead_digest_idle s off
  case buffer =>
    intro hb h
    rw [busRead_buffer s off hb ha h, word_loadBytes, joinBytes]
  case reserved => exact busRead_reserved s off ha

/-! ### BusWrite (20_memory.md R61) -/

theorem busWrite_of_idle (s : State) (off : Offset) (v : Word) (t : Target) (hb : s.busy = false)
    (ht : targetAt s.rMax off.toNat = t) : busWrite s off v = writeTarget s v t := by
  simp [busWrite, hb, ht]

theorem busWrite_guarded_busy (s : State) (off : Offset) (v : Word) (hb : s.busy = true)
    (hg : (targetAt s.rMax off.toNat).isGuarded = true) : busWrite s off v = raiseError s .busyWr := by
  simp [busWrite, hb, hg]

theorem Target.isGuarded_of_ignoresWrites (t : Target) (h : t.ignoresWrites = true) : t.isGuarded = false := by
  cases t with
  | cmd | msg k | x k | bm k => cases h
  | _ => rfl

theorem writeTarget_of_ignoresWrites (s : State) (v : Word) (t : Target) (h : t.ignoresWrites = true) :
    writeTarget s v t = s := by
  cases t with
  | status | irqEn | cmd | msg k | x k | bm k => cases h
  | _ => rfl

theorem busWrite_of_ignoresWrites (s : State) (off : Offset) (v : Word)
    (h : (targetAt s.rMax off.toNat).ignoresWrites = true) : busWrite s off v = s := by
  rw [busWrite_of_not_isGuarded s off v _ rfl (Target.isGuarded_of_ignoresWrites _ h)]
  exact writeTarget_of_ignoresWrites s v _ h

/-- A write to STATUS as one record update (10_state.md R27). -/
theorem writeStatus_eq (s : State) (v : Word) :
    writeStatus s v = { s with
      done := s.done && !v.getLsbD 1, err := s.err && !v.getLsbD 2
      ecode := if v.getLsbD 2 then none else s.ecode } := by
  unfold writeStatus
  cases v.getLsbD 1 <;> cases v.getLsbD 2 <;> simp

/-- Settles O25: the three registers that take a write, then the buffers, then everything else. -/
theorem writeDoesWhatTheMapSays : Obligations.WriteDoesWhatTheMapSays := by
  intro s off v ha bytes
  refine ⟨?status, ?irqEn, ?busyGuarded, ?cmd, ?buffer, ?other⟩
  case status =>
    rintro rfl
    rw [busWrite_of_not_isGuarded s 0x0008 v .status rfl rfl]
    exact writeStatus_eq s v
  case irqEn => rintro rfl; exact busWrite_of_not_isGuarded s 0x000C v .irqEn rfl rfl
  case busyGuarded =>
    rintro hb (rfl | hbuf)
    · exact busWrite_guarded_busy s 0x0010 v hb rfl
    · exact busWrite_guarded_busy s off v hb (isGuarded_targetAt_of_buffer _ _ ha hbuf)
  case cmd => rintro hb rfl; exact busWrite_of_idle s 0x0010 v .cmd hb rfl
  case buffer => exact fun hb hbuf => busWrite_buffer s off v hb ha hbuf
  case other =>
    intro hstatus hirq hcmd hbuf
    exact busWrite_of_ignoresWrites s off v (ignoresWrites_targetAt _ _
      (BitVec.toNat_ne_iff_ne.2 hstatus) (BitVec.toNat_ne_iff_ne.2 hirq) (BitVec.toNat_ne_iff_ne.2 hcmd) hbuf)

/-- Settles O26: no such offset is STATUS, IRQ_EN, CMD or in a buffer. -/
theorem reservedAndReadOnlyOffsetsIgnoreWrites : Obligations.ReservedAndReadOnlyOffsetsIgnoreWrites := by
  constructor
  · intro s off v ha h
    refine ⟨busRead_reserved s off ha h, busWrite_of_ignoresWrites s off v ?_⟩
    rw [targetAt_of_reserved _ _ ha h]
    rfl
  · intro s off v _ h
    have hn : off.toNat = 0x0000 ∨ off.toNat = 0x0004 ∨ off.toNat = 0x0014 ∨ off.toNat = 0x0018 ∨
        (0x0020 ≤ off.toNat ∧ off.toNat ≤ 0x003C) := by bv_omega
    exact busWrite_of_ignoresWrites s off v (ignoresWrites_targetAt _ _ (by omega) (by omega) (by omega)
      (by unfold bufferOffset; omega))

/-! ### A word in a buffer (20_memory.md R53, R64) -/

theorem getD_le32 (v : Word) (k : Nat) (hk : k < 4) : (le32 v).getD k 0 = v.extractLsb' (8 * k) 8 := by
  match k, hk with
  | 0, _ => rfl
  | 1, _ => rfl
  | 2, _ => rfl
  | 3, _ => rfl

theorem read_storeBytes_le32 (m : Memory) (a k : Nat) (v : Word) (hm : m.wf = true) (hk : k < 4) :
    (m.storeBytes a (le32 v)).read (a + k) = v.extractLsb' (8 * k) 8 := by
  rw [Memory.read_storeBytes m a (a + k) _ hm, if_pos (by simp [hk]), Nat.add_sub_cancel_left, getD_le32 v k hk]

/-- The little-endian word at the offset of a stored word. -/
theorem fromLe32At_loadBytes_storeBytes (m : Memory) (a : Nat) (v : Word) (hm : m.wf = true) :
    fromLe32At ((m.storeBytes a (le32 v)).loadBytes a 4) 0 = v := by
  have hload := Memory.loadBytes_storeBytes m a (le32 v) hm
  rw [length_le32] at hload
  rw [hload, fromLe32At_le32]

/-- Settles O27: the write is `storeBytes` of the word's four bytes, the read `loadBytes` of them. -/
theorem bufferWordsReadBackLittleEndian : Obligations.BufferWordsReadBackLittleEndian := by
  intro s off v ha hb hm hbuf
  rw [busWrite_buffer s off v hb ha hbuf, storeWord_mem]
  refine ⟨?_, fun k hk => read_storeBytes_le32 _ _ k v hm hk,
    fun a h => Memory.read_storeBytes_outside _ _ a (le32 v) h⟩
  rw [busRead_buffer (storeWord s off.toNat v) off hb ha hbuf, storeWord_mem]
  exact fromLe32At_loadBytes_storeBytes _ _ v hm

end Sys2Proof.Machine

end

section
/-! PROOFS of 20_memory.md: transactions and completions as steps (O31, O32, O36, O38, O39, O41). -/

namespace Sys2Proof.Machine

/-! ### Transactions as steps (20_memory.md R55, R57, R61, R63) -/

theorem aligned_iff (off : Offset) : aligned off = true ↔ off.toNat % 4 = 0 := by
  simp [aligned]

theorem hostRead_of_aligned (s : State) (off : Offset) (h : aligned off = true) :
    hostRead s off = .next { (busRead s off).2 with reads := (busRead s off).1 :: s.reads } := by
  rw [hostRead, if_pos h]

theorem hostWrite_of_aligned (s : State) (off : Offset) (v : Word) (h : aligned off = true) :
    hostWrite s off v = .next (busWrite s off v) := by
  rw [hostWrite, if_pos h]

/-- Settles O31: both port functions ask for the alignment first. -/
theorem misalignedTransactionsAreRefused : Obligations.MisalignedTransactionsAreRefused := by
  intro s off v rest h
  have ha : ¬ aligned off = true := by rwa [aligned_iff]
  constructor
  · rw [step_event _ (.read off) rest rfl, takeEvent, hostRead, if_neg ha]
  · rw [step_event _ (.write off v) rest rfl, takeEvent, hostWrite, if_neg ha]

/-- Settles O32: the step takes the event off the list and hands it to the port. -/
theorem transactionsAreSteps : Obligations.TransactionsAreSteps := by
  intro s off v rest h
  have ha := (aligned_iff off).2 h
  constructor
  · rw [step_event _ (.write off v) rest rfl, takeEvent, hostWrite_of_aligned _ _ _ ha]
  · rw [step_event _ (.read off) rest rfl, takeEvent, hostRead_of_aligned _ _ ha]

/-- A listed transaction always goes on. -/
theorem step_transaction_next (s : State) (e : Event) (rest : List Event) (he : s.events = e :: rest)
    (ht : e.isTransaction = true) : ∃ t, step s = .next t := by
  rw [step_event s e rest he]
  cases e with
  | read off => exact ⟨_, hostRead_of_aligned _ off ht⟩
  | write off v => exact ⟨_, hostWrite_of_aligned _ off v ht⟩
  | completion => cases ht
  | reset => cases ht

/-! ### The pending command as a step (20_memory.md R58, R59) -/

/-- PEND holding the two fields of a legal word names the command the word decodes to. -/
theorem pendingCommand_of_decode (s : State) (v : Word) (i : Instr) (h : decode s.rMax v = .ok i)
    (hp : s.pend = some ⟨opField v, argField v⟩) : pendingCommand s = some i := by
  rw [pendingCommand_congr (accept s (opField v) (argField v)) s hp rfl]
  exact pendingCommand_accept_of_decode s v i h

theorem engineTurn_of_pending (s : State) (i : Instr) (hb : s.busy = true) (hi : pendingCommand s = some i) :
    engineTurn s = exec i s := by
  simp [engineTurn, hb, hi]

theorem step_no_events (s : State) (h : s.events = []) : step s = engineTurn s := by
  simp [step, h]

/-- Settles O36: with no event, or a completion, the step is the engine's turn, and PEND names the command. -/
theorem stepRunsThePendingCommand : Obligations.StepRunsThePendingCommand := by
  intro s v i hd hb hp
  have hi := pendingCommand_of_decode s v i hd hp
  constructor
  · intro he
    rw [step_no_events s he]
    exact engineTurn_of_pending s i hb hi
  · intro rest he
    rw [step_event s .completion rest he]
    exact engineTurn_of_pending (withEvents s rest) i hb hi

/-- A legal word decodes to a well-formed command with the fields of the word (30_encoding.md R85). -/
theorem decode_ok_fields (rMax : Byte) (v : Word) (i : Instr) (h : decode rMax v = .ok i) :
    i.wellFormed rMax = true ∧ opcodeOf i = opField v ∧ argOf i = argField v := by
  unfold decode at h
  split at h
  · cases h
  · exact decodeFields_ok _ _ _ _ h

/-- A placed legal word: its command accepted, and the completion listed next (log 14). -/
theorem withFetchWord_of_decode (s : State) (nbits w : Nat) (i : Instr)
    (h : decode s.rMax (tableWord nbits w) = .ok i) :
    s.withFetchWord nbits w = withEvents (accept s (opcodeOf i) (argOf i)) (.completion :: s.events) := by
  obtain ⟨-, hop, harg⟩ := decode_ok_fields _ _ i h
  simp only [State.withFetchWord, placeCommand, h, hop, harg, withEvents]

/-- Settles O38: the completion listed next finds the placed command in PEND of a busy block. -/
theorem fetchWordRunsNext : Obligations.FetchWordRunsNext := by
  intro s nbits w i hd
  obtain ⟨hw, -, -⟩ := decode_ok_fields _ _ i hd
  have hi : pendingCommand (withEvents (accept s (opcodeOf i) (argOf i)) s.events) = some i :=
    pendingCommand_accept s i hw
  refine ⟨_, ?_, exec_eq i _⟩
  rw [withFetchWord_of_decode s nbits w i hd, step_event _ .completion s.events rfl, ← exec_eq]
  exact engineTurn_of_pending _ i rfl hi

/-! ### A busy block under the host's transactions (20_memory.md R58, R61) -/

/-- What a completion reads and writes, BUSY apart: the data state, PEND and the parameter. -/
structure SameCommandState (s t : State) : Prop where
  h : t.h = s.h
  len : t.len = s.len
  k0 : t.k0 = s.k0
  mem : t.mem = s.mem
  pend : t.pend = s.pend
  rMax : t.rMax = s.rMax

theorem SameCommandState.refl (s : State) : SameCommandState s s := ⟨rfl, rfl, rfl, rfl, rfl, rfl⟩

theorem SameCommandState.trans {s t u : State} (hst : SameCommandState s t) (htu : SameCommandState t u) :
    SameCommandState s u :=
  ⟨htu.h.trans hst.h, htu.len.trans hst.len, htu.k0.trans hst.k0, htu.mem.trans hst.mem, htu.pend.trans hst.pend,
    htu.rMax.trans hst.rMax⟩

theorem SameCommandState.pendingCommand_eq {s t : State} (h : SameCommandState s t) :
    pendingCommand t = pendingCommand s :=
  pendingCommand_congr s t h.pend h.rMax

/-- A transaction on a busy block is taken off the list and leaves the command as it was accepted. -/
theorem step_transaction_busy (s t : State) (e : Event) (rest : List Event) (hb : s.busy = true)
    (he : s.events = e :: rest) (ht : e.isTransaction = true) (hst : step s = .next t) :
    SameCommandState s t ∧ t.busy = true ∧ t.events = rest := by
  rcases step_transaction s t e rest he ht hst with ⟨v, n, rfl⟩ | ⟨off, v, rfl⟩
  · exact ⟨⟨rfl, rfl, rfl, rfl, rfl, rfl⟩, hb, rfl⟩
  · obtain ⟨hh, hl, hk, hr, hev, -⟩ := busWrite_frame (withEvents s rest) off v
    obtain ⟨hm, hbusy, hp⟩ := busWrite_busy (withEvents s rest) off v hb
    exact ⟨⟨hh, hl, hk, hm, hp, hr⟩, hbusy, hev⟩

/-- Settles O39: a read changes only the model's own fields, a write at most DONE, ERR, ECODE and IRQ_EN. -/
theorem busyTransactionsKeepTheData : Obligations.BusyTransactionsKeepTheData := by
  intro s t e rest hb he ht hst
  obtain ⟨hkept, hbusy, hev⟩ := step_transaction_busy s t e rest hb he ht hst
  exact ⟨hkept.h, hkept.len, hkept.k0, hkept.mem, hkept.pend, hbusy, hev⟩

theorem run_succ_of_step (s t : State) (k : Nat) (h : step s = .next t) :
    Sys2Proof.core.run (k + 1) s = Sys2Proof.core.run k t := by
  have hcore : Sys2Proof.core.step s = .next t := h
  simp only [Host.Core.run, hcore]

/-- A run through listed transactions on a busy block: it stays busy with the same command, whatever follows. -/
theorem run_transactions_busy (es : List Event) (s : State) (he : s.events = es) (hb : s.busy = true)
    (ht : ∀ e ∈ es, e.isTransaction = true) :
    ∃ u, (∀ k, Sys2Proof.core.run (es.length + k) s = Sys2Proof.core.run k u) ∧ SameCommandState s u ∧
      u.busy = true ∧ u.events = [] := by
  induction es generalizing s with
  | nil => exact ⟨s, fun k => by rw [List.length_nil, Nat.zero_add], .refl s, hb, he⟩
  | cons e es ih =>
    have hte := ht e List.mem_cons_self
    obtain ⟨t, hst⟩ := step_transaction_next s e es he hte
    obtain ⟨hkept, hbt, hevt⟩ := step_transaction_busy s t e es hb he hte hst
    obtain ⟨u, hrun, hkept', hbu, hevu⟩ := ih t hevt hbt fun e' he' => ht e' (List.mem_cons_of_mem e he')
    refine ⟨u, fun k => ?_, hkept.trans hkept', hbu, hevu⟩
    rw [List.length_cons, Nat.add_right_comm, run_succ_of_step s t _ hst, hrun k]

/-- Settles O41: the transactions keep the command and its operands, and the step after them completes it. -/
theorem pendingCommandCompletes : Obligations.PendingCommandCompletes := by
  intro s i hb hi ht
  obtain ⟨u, hrun, hkept, hbu, hevu⟩ := run_transactions_busy s.events s rfl hb ht
  have hiu : pendingCommand u = some i := hkept.pendingCommand_eq.trans hi
  have hstep : step u = .next (complete (dataEffect i u)) :=
    (step_no_events u hevu).trans (engineTurn_busy u i hbu hiu)
  have hexec := exec_of_wellFormed i s (pendingCommand_wellFormed s i hi).1
  obtain ⟨hh, hl, hk, hm⟩ := dataEffect_congr i s u hkept.h hkept.len hkept.k0 hkept.mem
  exact ⟨u, _, _, hrun 0, hbu, (hrun 1).trans (run_succ_of_step u _ 0 hstep), rfl, rfl, hexec, hh, hl, hk, hm⟩

end Sys2Proof.Machine

end

section
/-! PROOFS of 30_encoding.md: decoder and encoder are inverse to each other, and the words the decoder accepts are
the legal ones of R83 (O1 to O4). -/

namespace Sys2Proof.Machine

/-! ### What the decoder accepts -/

/-- A word is accepted when its reserved field is zero and its two byte fields are (R83). -/
theorem decode_eq_ok_iff (rMax : Byte) (v : Word) (i : Instr) :
    decode rMax v = .ok i ↔ rsvdField v = 0 ∧ decodeFields rMax (opField v) (argField v) = .ok i := by
  unfold decode
  split
  · next h => simp only [h, reduceCtorEq, false_and]
  · next h => simp only [Decidable.not_not.1 h, true_and]

/-- Decoding an encoded command leaves the check of its argument's range. -/
theorem decode_encode (rMax : Byte) (i : Instr) : decode rMax (encode i) = withArg (i.wellFormed rMax) i := by
  rw [encode, decode_commandWord, decodeFields_opcodeOf]

/-- Settles O1: an encoded command decodes by the check of its argument, which a well-formed one passes. -/
theorem decodeOfEncodeIsIdentity : Obligations.DecodeOfEncodeIsIdentity := by
  intro rMax i hw
  rw [decode_encode, withArg_eq_ok]
  exact ⟨hw, rfl⟩

/-- Settles O2: the command has the word's opcode and argument, and the reserved field is zero. -/
theorem encodeOfDecodeIsIdentity : Obligations.EncodeOfDecodeIsIdentity := by
  intro rMax v i hd
  obtain ⟨hrsvd, -⟩ := (decode_eq_ok_iff rMax v i).1 hd
  obtain ⟨hw, hop, harg⟩ := decode_ok_fields rMax v i hd
  refine ⟨hw, ?_⟩
  calc encode i = commandWord (opField v) (argField v) := by rw [encode, hop, harg]
    _ = v := commandWord_fields v hrsvd

/-! ### Legal words (30_encoding.md R83) -/

/-- For each of the eleven opcodes only the check of R84's argument range is left. -/
theorem decodeFields_of_mem (rMax op arg : Byte) (h : op ∈ opcodeList) :
    ∃ i, decodeFields rMax op arg = withArg (argumentInRange rMax op arg) i := by
  simp only [opcodeList, List.mem_cons, List.not_mem_nil, or_false] at h
  rcases h with rfl | rfl | rfl | rfl | rfl | rfl | rfl | rfl | rfl | rfl | rfl <;> exact ⟨_, rfl⟩

theorem decodeFields_of_not_mem (rMax op arg : Byte) (h : op ∉ opcodeList) :
    decodeFields rMax op arg = .error .illOp := by
  unfold decodeFields
  split
  case h_12 => rfl
  all_goals exact absurd (by decide) h

theorem exists_decodeFields_eq_ok_iff (rMax op arg : Byte) :
    (∃ i, decodeFields rMax op arg = .ok i) ↔ op ∈ opcodeList ∧ argumentInRange rMax op arg = true := by
  by_cases h : op ∈ opcodeList
  · obtain ⟨i, hi⟩ := decodeFields_of_mem rMax op arg h
    simp [hi, withArg_eq_ok, h]
  · simp [decodeFields_of_not_mem rMax op arg h, h]

theorem exists_decode_eq_ok_iff (rMax : Byte) (v : Word) : (∃ i, decode rMax v = .ok i) ↔ legalWord rMax v := by
  simp only [decode_eq_ok_iff, exists_and_left, exists_decodeFields_eq_ok_iff]
  rfl

/-- A word written to CMD of an idle block is presented (20_memory.md R59). -/
theorem busWrite_cmd_idle (s : State) (v : Word) (hb : s.busy = false) :
    busWrite s 0x0010 v = presentCommand s v :=
  busWrite_of_idle s 0x0010 v .cmd hb rfl

/-- Settles O3: the legal words are those that decode, and a presented word is accepted or raises its error. -/
theorem legalWordsAreAcceptedOthersOnlyRaise : Obligations.LegalWordsAreAcceptedOthersOnlyRaise := by
  refine ⟨exists_decode_eq_ok_iff, fun s v hb hlegal => ?_, fun s v hb hillegal => ?_⟩
  · rw [busWrite_cmd_idle s v hb]
    obtain ⟨i, hi⟩ := (exists_decode_eq_ok_iff s.rMax v).2 hlegal
    rcases presentCommand_cases s v with ⟨c, hc, -⟩ | ⟨-, -, haccept⟩
    · cases hi.symm.trans hc
    · exact haccept
  · rw [busWrite_cmd_idle s v hb]
    rcases presentCommand_cases s v with ⟨c, -, hraise⟩ | ⟨i, hi, -⟩
    · exact ⟨c, hraise⟩
    · exact absurd ((exists_decode_eq_ok_iff s.rMax v).1 ⟨i, hi⟩) hillegal

/-- Settles O4: the thirteen words are closed, and the decoder runs on them. -/
theorem specCommandWordsDecode : Obligations.SpecCommandWordsDecode := by
  unfold Obligations.SpecCommandWordsDecode
  decide

end Sys2Proof.Machine

end

section
/-! PROOFS of 40_sha256.md: the three hash commands, the padding, and the host sequence (O7 to O9, O50, O54). -/

namespace Sys2Proof.Machine

/-! ### Decoding a command by its argument (30_encoding.md R84, R86) -/

theorem decode_encode_of_wellFormed (rMax : Byte) (i : Instr) (hw : i.wellFormed rMax = true) :
    decode rMax (encode i) = .ok i := by
  rw [decode_encode, hw, withArg, if_pos rfl]

theorem decode_encode_of_illFormed (rMax : Byte) (i : Instr) (hw : i.wellFormed rMax = false) :
    decode rMax (encode i) = .error .illArg := by
  rw [decode_encode, hw, withArg, if_neg Bool.false_ne_true]

/-- A format Z opcode, which is one whose field decoder asks for a zero argument, refuses every other argument. -/
theorem decode_formatZ_of_ne_zero (rMax op arg : Byte) (i : Instr)
    (hz : decodeFields rMax op arg = withArg (decide (arg = 0)) i) (ha : arg ≠ 0) :
    decode rMax (commandWord op arg) = .error .illArg := by
  rw [decode_commandWord, hz, withArg_eq_error]
  exact ⟨decide_eq_false ha, rfl⟩

/-! ### The commands (40_sha256.md R110, R112, R114) -/

/-- The block after SHA_INIT: the initial value, the length 0, and a completion. -/
theorem exec_shaInit (s : State) :
    exec .shaInit s = .next { s with h := iv, len := 0, busy := false, done := true } := by
  rw [exec_of_wellFormed .shaInit s rfl, dataEffect, complete_setHash]

/-- The block after SHA_UPDATE: MSG compressed onto whatever H holds. -/
theorem exec_shaUpdate (s : State) :
    exec .shaUpdate s =
      .next { s with h := compress s.h s.msg, len := s.len + 512, busy := false, done := true } := by
  rw [exec_of_wellFormed .shaUpdate s rfl, dataEffect, complete_setHash]

theorem wellFormed_shaFinal (rMax n : Byte) (hn : n.toNat ≤ 63) : (Instr.shaFinal n).wellFormed rMax = true :=
  decide_eq_true hn

/-- The block after SHA_FINAL n: the hash finished on the first `n` bytes of MSG, which are all `finalize` reads. -/
theorem exec_shaFinal (s : State) (n : Byte) (hn : n.toNat ≤ 63) :
    exec (.shaFinal n) s = .next { s with
      h := (finalize s.h s.len s.msg n.toNat).1, len := s.len + BitVec.ofNat 64 (8 * n.toNat)
      busy := false, done := true } := by
  rw [exec_of_wellFormed _ s (wellFormed_shaFinal s.rMax n hn), dataEffect, complete_setHash, msgOperand,
    finalize_take, finalize_snd]

/-- Settles O7: the completion is `exec_shaInit`, and the two reads are those of an idle block. -/
theorem shaInitLoadsTheInitialValue : Obligations.ShaInitLoadsTheInitialValue := by
  refine ⟨?word, ?argument, exec_shaInit, ?reads⟩
  case word => exact fun rMax => decode_encode_of_wellFormed rMax .shaInit rfl
  case argument => exact fun rMax arg => decode_formatZ_of_ne_zero rMax 0x01 arg .shaInit rfl
  case reads =>
    intro s t ht
    rw [exec_shaInit, Host.Outcome.next.injEq] at ht
    subst ht
    constructor
    · rw [busRead_digest_idle _ 0x0020 rfl (by decide) (by decide)]
      show fromLe32At (digest iv) 0 = _
      decide
    · rw [busRead_of_idle _ 0x0014 .lenLo rfl rfl]
      show (0 : Word64).extractLsb' 0 32 = 0
      decide

/-- Settles O8: the completion is `exec_shaUpdate`; the two values are computed. -/
theorem shaUpdateAbsorbsTheMessageBlock : Obligations.ShaUpdateAbsorbsTheMessageBlock := by
  refine ⟨?word, ?argument, exec_shaUpdate, ?fromZero, ?fromIv, ?wrap⟩
  case word => exact fun rMax => decode_encode_of_wellFormed rMax .shaUpdate rfl
  case argument => exact fun rMax arg => decode_formatZ_of_ne_zero rMax 0x02 arg .shaUpdate rfl
  case fromZero => decide +kernel
  case fromIv => decide +kernel
  case wrap =>
    intro s t hlen ht
    rw [exec_shaUpdate, Host.Outcome.next.injEq] at ht
    subst ht
    show s.len + 512 = 0
    rw [hlen]
    decide

/-- Settles O9: the completion is `exec_shaFinal`; the worked values are computed. -/
theorem shaFinalFinishesTheHash : Obligations.ShaFinalFinishesTheHash := by
  refine ⟨?inRange, ?outOfRange, exec_shaFinal, ?abc, ?emptyTail, ?again⟩
  case inRange =>
    intro rMax n hn
    exact decode_encode_of_wellFormed rMax (.shaFinal n) (wellFormed_shaFinal rMax n hn)
  case outOfRange =>
    intro rMax n hn
    exact decode_encode_of_illFormed rMax (.shaFinal n) (decide_eq_false (by omega))
  case abc => decide +kernel
  case emptyTail => decide +kernel
  case again => decide +kernel

/-! ### The padding (40_sha256.md R106) -/

/-- Absorbing a block written out in front of the rest. -/
theorem absorb_append (q : Nat) (h : HashState) (b m : List Byte) (hb : b.length = 64) :
    absorb (q + 1) h (b ++ m) = absorb q (compress h b) m := by
  rw [absorb, List.take_left' hb, List.drop_left' hb]

/-- Where the tail, the byte 0x80 and the length fit one block. -/
theorem finalize_of_le (h : HashState) (len : Word64) (s : List Byte) (n : Nat) (hn : n ≤ 55) :
    finalize h len s n =
      (compress h (s.take n ++ [0x80] ++ rep 0 (55 - n) ++ be64 (len + BitVec.ofNat 64 (8 * n))),
        len + BitVec.ofNat 64 (8 * n)) := by
  rw [finalize]
  exact if_pos hn

/-- Where the length needs a second block. -/
theorem finalize_of_gt (h : HashState) (len : Word64) (s : List Byte) (n : Nat) (hn : 55 < n) :
    finalize h len s n =
      (compress (compress h (s.take n ++ [0x80] ++ rep 0 (63 - n)))
          (rep 0 56 ++ be64 (len + BitVec.ofNat 64 (8 * n))),
        len + BitVec.ofNat 64 (8 * n)) := by
  rw [finalize]
  exact if_neg (by omega)

theorem rep_add (c : Byte) (j k : Nat) : rep c (j + k) = rep c j ++ rep c k :=
  List.replicate_add ..

/-- A tail of `n` bytes, the byte 0x80, `z` zeros and the bit length. -/
theorem length_padded (s : List Byte) (n z : Nat) (l : Word64) (hs : n ≤ s.length) :
    (s.take n ++ [0x80] ++ rep 0 z ++ be64 l).length = n + 1 + z + 8 := by
  simp only [List.length_append, List.length_take, List.length_singleton, length_rep, length_be64]
  omega

/-- Settles O50: 55 - n zeros reach the length 56 in one block, or 119 - n zeros the length 120 in two, and then the
zeros after the first block's end belong to the second block. -/
theorem finalizeCompressesThePaddedTail : Obligations.FinalizeCompressesThePaddedTail := by
  intro h len s n hn hs l
  by_cases hone : n ≤ 55
  · have hlen := (length_padded s n (55 - n) l hs).trans (show n + 1 + (55 - n) + 8 = 64 by omega)
    refine ⟨55 - n, by omega, fun y hy => by omega, by rw [hlen, if_pos hone], ?_⟩
    rw [hlen, absorb_one h _ hlen, finalize_of_le h len s n hone]
  · have hlen := (length_padded s n (119 - n) l hs).trans (show n + 1 + (119 - n) + 8 = 128 by omega)
    have hz : 119 - n = (63 - n) + 56 := by omega
    have hfirst : (s.take n ++ [0x80] ++ rep 0 (63 - n)).length = 64 := by
      simp only [List.length_append, List.length_take, List.length_singleton, length_rep]
      omega
    refine ⟨119 - n, by omega, fun y hy => by omega, by rw [hlen, if_neg hone], ?_⟩
    rw [hlen, hz, rep_add, ← List.append_assoc, List.append_assoc _ (rep 0 56),
      absorb_append 1 h _ _ hfirst, absorb_one _ _ (by simp), finalize_of_gt h len s n (by omega)]

/-! ### The host sequence (40_sha256.md R116) -/

/-- The bits of the full blocks and of the rest. -/
theorem ofNat_blockBits_add_restBits (k : Nat) :
    BitVec.ofNat 64 (512 * (k / 64)) + BitVec.ofNat 64 (8 * (k % 64)) = BitVec.ofNat 64 (8 * k) := by
  rw [← BitVec.ofNat_add]
  congr 1
  omega

/-- SHA_FINAL on a block that has absorbed the full blocks of `m` from the initial value, and holds the rest of `m` in
MSG, leaves `sha256 m` in DIGEST and the bit length of `m` in LEN (R107). -/
theorem dataEffect_shaFinal_absorbed (m : List Byte) (u : State) (n : Byte) (hh : u.h = absorb (m.length / 64) iv m)
    (hl : u.len = BitVec.ofNat 64 (512 * (m.length / 64))) (hm : msgOperand u n = m.drop (64 * (m.length / 64)))
    (hn : n.toNat = m.length % 64) :
    digest (dataEffect (.shaFinal n) u).h = sha256 m ∧
      (dataEffect (.shaFinal n) u).len = BitVec.ofNat 64 (8 * m.length) := by
  rw [dataEffect, setHash_h, setHash_len, hh, hl, hm, hn, finalize_snd, ofNat_blockBits_add_restBits, sha256]
  exact ⟨rfl, rfl⟩

/-- Settles O54: SHA_INIT makes the start value of `sha256`, and the message part of the script absorbs `m` from it. -/
theorem shaSequenceReturnsSha256 : Obligations.ShaSequenceReturnsSha256 := by
  intro s m polls hinv hb _
  obtain ⟨a, hplay, ha⟩ := play_run s .shaInit (polls 0) hb rfl
  have hwf : a.mem.wf = true := by
    rw [ha.mem]
    exact dataEffect_wf .shaInit s hinv.memWf
  obtain ⟨u, t, hdump, hidle, hth, htl, -, huh, hul, -, hmsg, hn⟩ :=
    playDump_absorbScript .shaFinal m (fun i => polls (i + 1)) a ha.busy hwf ha.events
      (wellFormed_shaFinal a.rMax) _ rfl _ rfl
  rw [ha.h, dataEffect, setHash_h] at huh
  rw [ha.len, dataEffect, setHash_len, zero_add] at hul
  obtain ⟨hdigest, hlen⟩ := dataEffect_shaFinal_absorbed m u _ huh hul hmsg hn
  refine ⟨t, ?_, htl.trans hlen, hidle.events, hidle.busy⟩
  rw [shaScript, playDump_append s a _ _ 32 hplay, hdump, hth, hdigest]

end Sys2Proof.Machine

end

section
/-! PROOFS of 41_hmac.md: the key block, the four HMAC commands, and the host sequence (O10 to O13, O51, O55). -/

namespace Sys2Proof.Machine

/-! ### The key block (41_hmac.md R130) -/

theorem keyBlock_of_le (k : List Byte) (h : k.length ≤ 64) : keyBlock k = padKey k := if_pos h

theorem keyBlock_of_gt (k : List Byte) (h : 64 < k.length) : keyBlock k = sha256 k ++ rep 0 32 :=
  if_neg (by omega)

theorem length_keyBlock (k : List Byte) : (keyBlock k).length = 64 := by
  by_cases h : k.length ≤ 64
  · rw [keyBlock_of_le k h, length_padKey k h]
  · rw [keyBlock_of_gt k (by omega), List.length_append, length_sha256, length_rep]

/-- The zeros appended by hand are the first of the zeros the padding appends. -/
theorem padKey_append_zeros (k : List Byte) (z : Nat) (h : k.length + z ≤ 64) : padKey (k ++ rep 0 z) = padKey k := by
  have hsum : 64 - k.length = z + (64 - (k.length + z)) := by omega
  rw [padKey, padKey, List.append_assoc, List.length_append, length_rep, ← rep_add, ← hsum]

/-- A digest has 32 bytes, so the padding completes it with the 32 zeros that a longer key's digest gets. -/
theorem keyBlock_sha256 (k : List Byte) (h : 64 < k.length) : keyBlock (sha256 k) = keyBlock k := by
  rw [keyBlock_of_gt k h, keyBlock_of_le _ (by rw [length_sha256]; omega), padKey, length_sha256]

/-- The key enters `hmac` through its key block only (R132). -/
theorem hmac_of_keyBlock_eq (k k' m : List Byte) (h : keyBlock k = keyBlock k') : hmac k m = hmac k' m := by
  rw [hmac, hmac, h]

/-- Settles O51: in each case the two keys have the same key block. -/
theorem keyBlocksAreNotInjective : Obligations.KeyBlocksAreNotInjective := by
  refine ⟨length_keyBlock, ?zeros, ?digest⟩
  case zeros =>
    intro k m z h
    have hlen : (k ++ rep 0 z).length ≤ 64 := by rwa [List.length_append, length_rep]
    apply hmac_of_keyBlock_eq
    rw [keyBlock_of_le _ hlen, keyBlock_of_le k (by omega), padKey_append_zeros k z h]
  case digest => exact fun k m h => hmac_of_keyBlock_eq _ k m (keyBlock_sha256 k h)

/-! ### Loading a key (41_hmac.md R133, R135) -/

/-- Zeros appended to a string are the bytes that read as 0 without them (log 22). -/
theorem getD_append_zeros (v : List Byte) (z i : Nat) : (v ++ rep 0 z).getD i 0 = v.getD i 0 := by
  by_cases h : i < v.length
  · rw [List.getD_append _ _ _ _ h]
  · rw [List.getD_append_right _ _ _ _ (by omega), List.getD_eq_default v _ (by omega), rep,
      List.getD_eq_getElem?_getD, List.getElem?_getD_replicate_default_eq]

/-- K0 holds the string it was given, and zeros past its end. -/
theorem getElem_toK0 (v : List Byte) (i : Fin 64) : (toK0 v)[i] = v.getD i 0 := by
  have hi : i.val < (v ++ rep 0 64).length := by rw [List.length_append, length_rep]; omega
  calc (toK0 v)[i] = (v ++ rep 0 64)[i.val] := List.getElem_take
    _ = (v ++ rep 0 64).getD i 0 := (List.getD_eq_getElem _ 0 hi).symm
    _ = v.getD i 0 := getD_append_zeros v 64 i

/-- The bytes of the operand of a byte-count command. -/
theorem getD_msgOperand (s : State) (n : Byte) (i : Nat) (hi : i < 64) :
    (msgOperand s n).getD i 0 = if i < n.toNat then s.mem.read (msgBase + i) else 0 := by
  rw [msgOperand, State.msg]
  split
  · next h =>
    rw [List.getD_eq_getElem?_getD, List.getElem?_take_of_lt h, ← List.getD_eq_getElem?_getD,
      Memory.getD_loadBytes _ _ _ _ hi]
  · next h => rw [List.getD_eq_default _ _ (by rw [List.length_take]; omega)]

theorem wellFormed_hmacKey (rMax n : Byte) (hn : n.toNat ≤ 64) : (Instr.hmacKey n).wellFormed rMax = true :=
  decide_eq_true hn

/-- The block after HMAC_KEY n: the first `n` bytes of MSG, padded, in K0. -/
theorem exec_hmacKey (s : State) (n : Byte) (hn : n.toNat ≤ 64) :
    exec (.hmacKey n) s =
      .next { s with k0 := toK0 (padKey (msgOperand s n)), busy := false, done := true } := by
  rw [exec_of_wellFormed _ s (wellFormed_hmacKey s.rMax n hn), dataEffect, complete_setK0]

/-- The block after HMAC_KEYD: the digest and 32 zeros in K0. -/
theorem exec_hmacKeyd (s : State) :
    exec .hmacKeyd s = .next { s with k0 := toK0 (digest s.h ++ rep 0 32), busy := false, done := true } := by
  rw [exec_of_wellFormed .hmacKeyd s rfl, dataEffect, complete_setK0]

theorem toList_toK0_digest (h : HashState) : (toK0 (digest h ++ rep 0 32)).toList = digest h ++ rep 0 32 :=
  toList_toK0 _ (by rw [List.length_append, length_digest, length_rep])

/-- Settles O10: the key is the one of `exec_hmacKey`, read byte by byte. -/
theorem hmacKeyLoadsThePaddedKey : Obligations.HmacKeyLoadsThePaddedKey := by
  refine ⟨?inRange, ?outOfRange, ?completion⟩
  case inRange =>
    intro rMax n hn
    exact decode_encode_of_wellFormed rMax (.hmacKey n) (wellFormed_hmacKey rMax n hn)
  case outOfRange =>
    intro rMax n hn
    exact decode_encode_of_illFormed rMax (.hmacKey n) (decide_eq_false (by omega))
  case completion =>
    intro s n hn
    refine ⟨_, exec_hmacKey s n hn, fun i => ?_⟩
    rw [getElem_toK0, padKey, getD_append_zeros, getD_msgOperand s n i i.isLt, msgBase]

/-- Settles O11: the key is the one of `exec_hmacKeyd`, whose 64 bytes K0 takes as they are. -/
theorem hmacKeydLoadsTheDigestAsKey : Obligations.HmacKeydLoadsTheDigestAsKey := by
  refine ⟨?word, ?argument, ?completion⟩
  case word => exact fun rMax => decode_encode_of_wellFormed rMax .hmacKeyd rfl
  case argument => exact fun rMax arg => decode_formatZ_of_ne_zero rMax 0x09 arg .hmacKeyd rfl
  case completion => exact fun s => ⟨_, exec_hmacKeyd s, toList_toK0_digest s.h⟩

/-! ### The inner and the outer hash (41_hmac.md R137, R139) -/

theorem padState_ipad (k0 : Vector Byte 64) : padState k0 ipad = compress iv (k0.toList.map fun b => b ^^^ 0x36) := by
  rw [padState, ipad, xorBytes_rep _ _ Vector.length_toList]

theorem padState_opad (k0 : Vector Byte 64) : padState k0 opad = compress iv (k0.toList.map fun b => b ^^^ 0x5c) := by
  rw [padState, opad, xorBytes_rep _ _ Vector.length_toList]

/-- The last block of an HMAC, written out: a digest of 32 bytes after one pad block, padded to 768 bits. -/
theorem finalize_digest (h inner : HashState) :
    finalize h 512 (digest inner) 32 =
      (compress h (digest inner ++ [0x80] ++ rep 0 23 ++ [0, 0, 0, 0, 0, 0, 0x03, 0x00]), 768) := by
  have hlen : (512 : Word64) + BitVec.ofNat 64 (8 * 32) = 768 := by decide
  have hbe : be64 768 = [0, 0, 0, 0, 0, 0, 0x03, 0x00] := by decide
  rw [finalize_of_le h 512 _ 32 (by omega), List.take_of_length_le (length_digest inner).le, hlen, hbe]

/-- The data part of HMAC_FINAL with both pads and the last block written out. -/
theorem hmacFinalize_eq (h : HashState) (len : Word64) (k0 : Vector Byte 64) (m : List Byte) (n : Nat) :
    hmacFinalize h len k0 m n =
      (compress (compress iv (k0.toList.map fun b => b ^^^ 0x5c))
        (digest (finalize h len m n).1 ++ [0x80] ++ rep 0 23 ++ [0, 0, 0, 0, 0, 0, 0x03, 0x00]), 768) := by
  rw [hmacFinalize, finalize_digest, padState_opad]

/-- HMAC_FINAL reads the first `n` bytes of MSG only. -/
theorem hmacFinalize_take (h : HashState) (len : Word64) (k0 : Vector Byte 64) (m : List Byte) (n : Nat) :
    hmacFinalize h len k0 (m.take n) n = hmacFinalize h len k0 m n := by
  rw [hmacFinalize, hmacFinalize, finalize_take]

/-- The block after HMAC_INIT: the inner pad block absorbed. -/
theorem exec_hmacInit (s : State) :
    exec .hmacInit s = .next { s with
      h := compress iv (s.k0.toList.map fun b => b ^^^ 0x36), len := 512, busy := false, done := true } := by
  rw [exec_of_wellFormed .hmacInit s rfl, dataEffect, complete_setHash, padState_ipad]

theorem wellFormed_hmacFinal (rMax n : Byte) (hn : n.toNat ≤ 63) : (Instr.hmacFinal n).wellFormed rMax = true :=
  decide_eq_true hn

/-- The block after HMAC_FINAL n: the outer hash over the digest of the inner one. -/
theorem exec_hmacFinal (s : State) (n : Byte) (hn : n.toNat ≤ 63) :
    exec (.hmacFinal n) s = .next { s with
      h := compress (compress iv (s.k0.toList.map fun b => b ^^^ 0x5c))
        (digest (finalize s.h s.len s.msg n.toNat).1 ++ [0x80] ++ rep 0 23 ++ [0, 0, 0, 0, 0, 0, 0x03, 0x00])
      len := 768, busy := false, done := true } := by
  rw [exec_of_wellFormed _ s (wellFormed_hmacFinal s.rMax n hn), dataEffect, complete_setHash, msgOperand,
    hmacFinalize_take, hmacFinalize_eq]

/-- Settles O12: the completion is `exec_hmacInit`; the value for the key Jefe is computed. -/
theorem hmacInitAbsorbsTheInnerPad : Obligations.HmacInitAbsorbsTheInnerPad := by
  refine ⟨?word, ?argument, exec_hmacInit, ?jefe⟩
  case word => exact fun rMax => decode_encode_of_wellFormed rMax .hmacInit rfl
  case argument => exact fun rMax arg => decode_formatZ_of_ne_zero rMax 0x0A arg .hmacInit rfl
  case jefe =>
    intro s t hk ht
    rw [exec_hmacInit, hk, Host.Outcome.next.injEq] at ht
    subst ht
    show compress iv _ = _
    decide +kernel

/-- The bytes of MSG that HMAC_FINAL n reads, from the storage. -/
theorem take_msg (s : State) (n : Nat) (hn : n ≤ 64) : s.msg.take n = s.mem.loadBytes msgBase n := by
  simp only [State.msg, Memory.loadBytes, ← List.map_take, List.take_range, Nat.min_eq_left hn]

/-- Settles O13: the completion is `exec_hmacFinal`; the value for the key Jefe and its message is computed. -/
theorem hmacFinalRunsTheOuterHash : Obligations.HmacFinalRunsTheOuterHash := by
  refine ⟨?inRange, ?outOfRange, exec_hmacFinal, ?jefe⟩
  case inRange =>
    intro rMax n hn
    exact decode_encode_of_wellFormed rMax (.hmacFinal n) (wellFormed_hmacFinal rMax n hn)
  case outOfRange =>
    intro rMax n hn
    exact decode_encode_of_illFormed rMax (.hmacFinal n) (decide_eq_false (by omega))
  case jefe =>
    intro s t hh hl hk hm ht
    have hmsg : s.msg.take (28 : Byte).toNat = _ := (take_msg s 28 (by omega)).trans hm
    rw [exec_hmacFinal s 28 (by decide), ← finalize_take, hmsg, hh, hl, hk, Host.Outcome.next.injEq] at ht
    subst ht
    show compress _ _ = _
    decide +kernel

/-! ### The host sequence (41_hmac.md R141) -/

theorem Idle.trans {s t u : State} (hst : Idle s t) (htu : Idle t u) : Idle s u :=
  ⟨htu.busy, htu.wf, htu.rMax.trans hst.rMax, htu.events, htu.err.trans hst.err⟩

theorem Ran.idle {i : Instr} {s t : State} (h : Ran i s t) (hm : s.mem.wf = true) : Idle s t :=
  ⟨h.busy, h.mem ▸ dataEffect_wf i s hm, h.rMax, h.events, h.err⟩

theorem play_of_playDump (s t : State) (es : List Event) (n : Nat) (bs : List Byte)
    (h : playDump s es n = some (bs, t)) : play s es = some t := by
  cases hp : play s es with
  | none => simp [playDump, hp] at h
  | some u =>
    rw [playDump_eq s u es n hp, Option.some.injEq, Prod.mk.injEq] at h
    rw [h.2]

/-- After the sequence of 40_sha256.md R116 the block is idle and its H holds the digest of the message, for an
HMAC_KEYD to take. -/
theorem play_shaScript (s : State) (m : List Byte) (polls : Nat → Nat) (hb : s.busy = false)
    (hm : s.mem.wf = true) : ∃ t, play s (shaScript polls m) = some t ∧ Idle s t ∧ digest t.h = sha256 m := by
  obtain ⟨a, hplay, ha⟩ := play_run s .shaInit (polls 0) hb rfl
  have hsa := ha.idle hm
  obtain ⟨u, t, hdump, hat, hth, -, -, huh, hul, -, hmsg, hn⟩ :=
    playDump_absorbScript .shaFinal m (fun i => polls (i + 1)) a hsa.busy hsa.wf hsa.events
      (wellFormed_shaFinal a.rMax) _ rfl _ rfl
  rw [ha.h, dataEffect, setHash_h] at huh
  rw [ha.len, dataEffect, setHash_len, zero_add] at hul
  refine ⟨t, ?_, hsa.trans hat, ?_⟩
  · rw [shaScript, play_append, hplay]
    exact play_of_playDump a t _ 32 _ hdump
  · rw [hth]
    exact (dataEffect_shaFinal_absorbed m u _ huh hul hmsg hn).1

/-- The key part, for a key that MSG can hold. -/
theorem play_hmacKeyScript_of_le (s : State) (k : List Byte) (polls : Nat → Nat) (hb : s.busy = false)
    (hm : s.mem.wf = true) (hk : k.length ≤ 64) :
    ∃ t, play s (hmacKeyScript polls k) = some t ∧ Idle s t ∧ t.k0.toList = keyBlock k := by
  have hn : (BitVec.ofNat 8 k.length).toNat = k.length := by rw [BitVec.toNat_ofNat]; omega
  obtain ⟨u, t, hplay, hran, hidle, -, -, -, hmsg⟩ :=
    play_loadRun s k (.hmacKey (BitVec.ofNat 8 k.length)) (polls 0) hb hm hk
      (wellFormed_hmacKey s.rMax _ (hn.le.trans hk))
  refine ⟨t, ?_, hidle, ?_⟩
  · rwa [hmacKeyScript, if_pos hk]
  · rw [hran.k0, dataEffect, setK0_k0, msgOperand, hn, hmsg, toList_toK0 _ (length_padKey k hk), keyBlock_of_le k hk]

/-- The key part, for a key that has to be hashed first. -/
theorem play_hmacKeyScript_of_gt (s : State) (k : List Byte) (polls : Nat → Nat) (hb : s.busy = false)
    (hm : s.mem.wf = true) (hk : 64 < k.length) :
    ∃ t, play s (hmacKeyScript polls k) = some t ∧ Idle s t ∧ t.k0.toList = keyBlock k := by
  obtain ⟨a, hhash, ha, hdigest⟩ := play_shaScript s k polls hb hm
  obtain ⟨t, hplay, hran⟩ := play_run a .hmacKeyd (polls (k.length / 64 + 2)) ha.busy rfl
  refine ⟨t, ?_, ha.trans (hran.idle ha.wf), ?_⟩
  · rw [hmacKeyScript, if_neg (by omega), play_append, hhash]
    exact hplay
  · rw [hran.k0, dataEffect, setK0_k0, toList_toK0_digest, hdigest, keyBlock_of_gt k hk]

/-- The key part, from any idle block, leaves the key block of `k` in K0. -/
theorem play_hmacKeyScript (s : State) (k : List Byte) (polls : Nat → Nat) (hb : s.busy = false)
    (hm : s.mem.wf = true) :
    ∃ t, play s (hmacKeyScript polls k) = some t ∧ Idle s t ∧ t.k0.toList = keyBlock k := by
  by_cases hk : k.length ≤ 64
  · exact play_hmacKeyScript_of_le s k polls hb hm hk
  · exact play_hmacKeyScript_of_gt s k polls hb hm (by omega)

/-- `sha256` of one block and a digest, which is the outer hash of R132. -/
theorem sha256_block_digest (p : List Byte) (inner : HashState) (hp : p.length = 64) :
    sha256 (p ++ digest inner) = digest (finalize (compress iv p) 512 (digest inner) 32).1 := by
  rw [sha256_cons p _ hp, length_digest, show 32 / 64 = 0 from rfl, Nat.mul_zero, absorb, List.drop_zero,
    BitVec.add_zero]

/-- HMAC_FINAL on a block that has absorbed the inner pad and the full blocks of `m`, and holds the rest of `m` in MSG,
leaves `hmac k m` in DIGEST and the bits of the outer hash's two pieces in LEN (R132). -/
theorem dataEffect_hmacFinal_absorbed (k m : List Byte) (u : State) (n : Byte) (hk : u.k0.toList = keyBlock k)
    (hh : u.h = absorb (m.length / 64) (padState u.k0 ipad) m)
    (hl : u.len = 512 + BitVec.ofNat 64 (512 * (m.length / 64))) (hm : msgOperand u n = m.drop (64 * (m.length / 64)))
    (hn : n.toNat = m.length % 64) :
    digest (dataEffect (.hmacFinal n) u).h = hmac k m ∧ (dataEffect (.hmacFinal n) u).len = 768 := by
  have hpad (pad : List Byte) (hp : pad.length = 64) : (xorBytes (keyBlock k) pad).length = 64 := by
    rw [length_xorBytes, length_keyBlock, hp, Nat.min_self]
  rw [dataEffect, setHash_h, setHash_len]
  constructor
  · rw [hmacFinalize, hh, hl, hm, hn, padState, padState, hk, hmac, sha256_cons _ m (hpad ipad length_ipad),
      sha256_block_digest _ _ (hpad opad length_opad)]
  · rw [hmacFinalize_eq]

/-- The message part under a loaded key, from any idle block. -/
theorem playDump_hmacScript (s : State) (k m : List Byte) (polls : Nat → Nat) (hb : s.busy = false)
    (hm : s.mem.wf = true) (hk : s.k0.toList = keyBlock k) :
    ∃ t, playDump s (hmacScript polls m) 32 = some (hmac k m, t) ∧ Idle s t ∧ t.len = 768 ∧ t.k0 = s.k0 := by
  obtain ⟨a, hplay, ha⟩ := play_run s .hmacInit (polls 0) hb rfl
  have hsa := ha.idle hm
  obtain ⟨u, t, hdump, hat, hth, htl, htk, huh, hul, huk, hmsg, hn⟩ :=
    playDump_absorbScript .hmacFinal m (fun i => polls (i + 1)) a hsa.busy hsa.wf hsa.events
      (wellFormed_hmacFinal a.rMax) _ rfl _ rfl
  have hkey : u.k0 = s.k0 := by rw [huk, ha.k0, dataEffect, setHash_k0]
  rw [ha.h, dataEffect, setHash_h, ← hkey] at huh
  rw [ha.len, dataEffect, setHash_len] at hul
  obtain ⟨hdigest, hlen⟩ := dataEffect_hmacFinal_absorbed k m u _ (hkey ▸ hk) huh hul hmsg hn
  refine ⟨t, ?_, hsa.trans hat, htl.trans hlen, ?_⟩
  · rw [hmacScript, playDump_append s a _ _ 32 hplay, hdump, hth, hdigest]
  · rw [htk, dataEffect, setHash_k0, hkey]

/-- Settles O55: the key part leaves the key block, under which the message part computes `hmac`. -/
theorem hmacSequenceReturnsHmac : Obligations.HmacSequenceReturnsHmac := by
  intro s k m polls polls' hinv hb _ _
  obtain ⟨t, hplay, hst, hk⟩ := play_hmacKeyScript s k polls hb hinv.memWf
  obtain ⟨u, hdump, htu, hlen, hkept⟩ := playDump_hmacScript t k m polls' hst.busy hst.wf hk
  exact ⟨t, u, hplay, hk, hdump, hlen, hkept, htu.events, htu.busy⟩

end Sys2Proof.Machine

end

section
/-! PROOFS of 42_salsa20_8.md: the SALSA command and the properties of the function (O14, O52). -/

namespace Sys2Proof.Machine

/-! ### The command (42_salsa20_8.md R156) -/

/-- Zero goes to zero (R155 a). -/
theorem salsa208_zero : salsa208 (rep 0 64) = rep 0 64 := by decide +kernel

/-- The block after SALSA: X mixed in place. -/
theorem exec_salsa (s : State) :
    exec .salsa s =
      .next { s with mem := s.mem.storeBytes xBase (salsa208 s.x), busy := false, done := true } := by
  rw [exec_of_wellFormed .salsa s rfl, dataEffect, complete_setX]

/-- What the host finds in X after SALSA. -/
theorem exec_salsa_x (s t : State) (hm : s.mem.wf = true) (h : exec .salsa s = .next t) : t.x = salsa208 s.x := by
  rw [exec_wellFormed_next .salsa s t rfl h, State.x, complete_mem, load_dataEffect_salsa s hm]

/-- Settles O14: the completion is `exec_salsa`, whose store is read back in X and leaves the rest; the worked values
are computed. -/
theorem salsaReplacesX : Obligations.SalsaReplacesX := by
  refine ⟨?word, ?argument, ?completion, salsa208_zero, ?counting, ?ones, ?example64⟩
  case word => exact fun rMax => decode_encode_of_wellFormed rMax .salsa rfl
  case argument => exact fun rMax arg => decode_formatZ_of_ne_zero rMax 0x10 arg .salsa rfl
  case completion =>
    intro s
    refine ⟨_, exec_salsa s, fun a ha => ?_, fun hm => exec_salsa_x s _ hm (exec_salsa s)⟩
    exact exec_salsa_read s _ (exec_salsa s) a (by rw [xBase]; omega)
  case counting => decide +kernel
  case ones => decide +kernel
  case example64 => decide +kernel

/-! ### The eight rounds are invertible (42_salsa20_8.md R152 to R155) -/

/-- A line that writes a word it does not read undoes itself: the second time it XORs the same value again. -/
theorem qrLine_involutive (t p q : Fin 16) (n : Nat) (hp : p ≠ t) (hq : q ≠ t) :
    Function.Involutive fun x => qrLine x t p q n := by
  intro x
  have hpv : t.val ≠ p.val := fun h => hp (Fin.ext h.symm)
  have hqv : t.val ≠ q.val := fun h => hq (Fin.ext h.symm)
  simp only [qrLine, Fin.getElem_fin, Vector.getElem_set_self, Vector.getElem_set_ne _ _ hpv,
    Vector.getElem_set_ne _ _ hqv, BitVec.xor_assoc, BitVec.xor_self, BitVec.xor_zero, Vector.set_set,
    Vector.set_getElem_self]

/-- A quarter-round is four lines one after the other. -/
theorem quarterRound_bijective (a b c d : Fin 16) (h : [a, b, c, d].Nodup) :
    Function.Bijective fun x => quarterRound x a b c d := by
  obtain ⟨⟨hab, hac, had⟩, ⟨hbc, hbd⟩, hcd⟩ : (a ≠ b ∧ a ≠ c ∧ a ≠ d) ∧ (b ≠ c ∧ b ≠ d) ∧ c ≠ d := by
    simpa using h
  have line1 := (qrLine_involutive b a d 7 hab hbd.symm).bijective
  have line2 := (qrLine_involutive c b a 9 hbc hac).bijective
  have line3 := (qrLine_involutive d c b 13 hcd hbd).bijective
  have line4 := (qrLine_involutive a d c 18 had.symm hac.symm).bijective
  exact line4.comp (line3.comp (line2.comp line1))

theorem columnRound_bijective : Function.Bijective columnRound :=
  (quarterRound_bijective 15 3 7 11 (by decide)).comp <|
    (quarterRound_bijective 10 14 2 6 (by decide)).comp <|
      (quarterRound_bijective 5 9 13 1 (by decide)).comp (quarterRound_bijective 0 4 8 12 (by decide))

theorem rowRound_bijective : Function.Bijective rowRound :=
  (quarterRound_bijective 15 12 13 14 (by decide)).comp <|
    (quarterRound_bijective 10 11 8 9 (by decide)).comp <|
      (quarterRound_bijective 5 6 7 4 (by decide)).comp (quarterRound_bijective 0 1 2 3 (by decide))

theorem doubleRound_bijective : Function.Bijective doubleRound := rowRound_bijective.comp columnRound_bijective

theorem eightRounds_bijective : Function.Bijective eightRounds :=
  doubleRound_bijective.comp <| doubleRound_bijective.comp <| doubleRound_bijective.comp doubleRound_bijective

/-! ### The final addition is not (42_salsa20_8.md R155) -/

/-- The block whose sixteen words are `0x80000000`. -/
def topBitBlock : List Byte := (List.replicate 16 [0x00, 0x00, 0x00, 0x80]).flatten

/-- Two words with the top bit set add up as without it, so every line of every round keeps the sixteen top bits, and
the final addition cancels each of them: the image is that of the zero block. -/
theorem salsa208_topBitBlock : salsa208 topBitBlock = rep 0 64 := by decide +kernel

/-- Settles O52: the two blocks are zero and `topBitBlock`, the rounds are compositions of involutions, and the new X
is a function of the old one. -/
theorem salsaPropertiesHold : Obligations.SalsaPropertiesHold := by
  refine ⟨salsa208_zero, ?collision, eightRounds_bijective, ?stateless⟩
  case collision =>
    exact ⟨rep 0 64, topBitBlock, length_rep 0 64, by decide, by decide,
      salsa208_zero.trans salsa208_topBitBlock.symm⟩
  case stateless =>
    intro s s' t t' hm hm' hx ht ht'
    rw [exec_salsa_x s t hm ht, exec_salsa_x s' t' hm' ht', hx]

end Sys2Proof.Machine

end

section
/-! PROOFS of 43_blockmix.md: where BlockMix puts its outputs, the BLOCKMIX command, and BlockMix over the block
(O53, O15, O56). -/

namespace Sys2Proof.Machine

/-! ### Sub-blocks of a string (43_blockmix.md R165) -/

theorem length_subBlock (b : List Byte) (i : Nat) (h : 64 * (i + 1) ≤ b.length) : (subBlock b i).length = 64 := by
  rw [subBlock, List.length_take, List.length_drop]
  omega

theorem subBlock_zero (b : List Byte) (h : b.length = 64) : subBlock b 0 = b := by
  rw [subBlock, Nat.mul_zero, List.drop_zero, List.take_of_length_le h.le]

theorem subBlock_append_left (a b : List Byte) (i : Nat) (h : 64 * (i + 1) ≤ a.length) :
    subBlock (a ++ b) i = subBlock a i := by
  rw [subBlock, subBlock, List.drop_append_of_le_length (by omega),
    List.take_append_of_le_length (by rw [List.length_drop]; omega)]

theorem subBlock_append_right (a b : List Byte) (r i : Nat) (h : a.length = 64 * r) :
    subBlock (a ++ b) (r + i) = subBlock b i := by
  rw [subBlock, subBlock, Nat.mul_add, ← h, List.drop_length_add_append]

/-- The sub-blocks of a string put together from blocks are those blocks. -/
theorem subBlock_flatMap_range (r i : Nat) (f : Nat → List Byte) (hf : ∀ j < r, (f j).length = 64) (hi : i < r) :
    subBlock ((List.range r).flatMap f) i = f i := by
  induction r with
  | zero => omega
  | succ r ih =>
    have hlen := length_flatMap_const r 64 f fun j hj => hf j (by omega)
    rw [List.range_succ, List.flatMap_append, List.flatMap_singleton]
    rcases Nat.lt_succ_iff_lt_or_eq.1 hi with hlt | rfl
    · rw [subBlock_append_left _ _ _ (by omega), ih (fun j hj => hf j (by omega)) hlt]
    · have hlast := subBlock_append_right ((List.range i).flatMap f) (f i) i 0 (by omega)
      rwa [subBlock_zero _ (hf i hi)] at hlast

/-! ### The outputs Y_i and their places (43_blockmix.md R167) -/

theorem outputAt_mixOutputs_zero (acc b : List Byte) (bs : List (List Byte)) :
    outputAt (mixOutputs acc (b :: bs)) 0 = salsa208 (xorBytes acc b) := by
  rw [mixOutputs, outputAt, List.getD_cons_zero]

/-- Each output is the accumulator of the next one. -/
theorem outputAt_mixOutputs_succ (acc : List Byte) (bs : List (List Byte)) (i : Nat) (h : i + 1 < bs.length) :
    outputAt (mixOutputs acc bs) (i + 1) =
      salsa208 (xorBytes (outputAt (mixOutputs acc bs) i) (bs.getD (i + 1) [])) := by
  induction bs generalizing acc i with
  | nil => simp at h
  | cons b bs ih =>
    have hshift (j : Nat) : outputAt (mixOutputs acc (b :: bs)) (j + 1) =
        outputAt (mixOutputs (salsa208 (xorBytes acc b)) bs) j := by
      rw [mixOutputs, outputAt, List.getD_cons_succ, outputAt]
    rw [List.length_cons] at h
    rw [hshift, List.getD_cons_succ]
    cases i with
    | zero =>
      obtain ⟨c, cs, rfl⟩ := List.exists_cons_of_length_pos (show 0 < bs.length by omega)
      rw [outputAt_mixOutputs_zero, outputAt_mixOutputs_zero, List.getD_cons_zero]
    | succ i => rw [hshift, ih _ i (by omega)]

theorem getD_map_subBlock (b : List Byte) (n i : Nat) (h : i < n) :
    ((List.range n).map (subBlock b)).getD i [] = subBlock b i := by
  simp [List.getD, h]

theorem outputAt_blockmixOutputs_zero (b : List Byte) (r : Nat) (hr : 1 ≤ r) :
    outputAt (blockmixOutputs b r) 0 = salsa208 (xorBytes (subBlock b (2 * r - 1)) (subBlock b 0)) := by
  obtain ⟨n, hn⟩ : ∃ n, 2 * r = n + 1 := ⟨2 * r - 1, by omega⟩
  rw [blockmixOutputs, hn, List.range_succ_eq_map, List.map_cons, outputAt_mixOutputs_zero]

theorem outputAt_blockmixOutputs_succ (b : List Byte) (r i : Nat) (h : i + 1 < 2 * r) :
    outputAt (blockmixOutputs b r) (i + 1) =
      salsa208 (xorBytes (outputAt (blockmixOutputs b r) i) (subBlock b (i + 1))) := by
  rw [blockmixOutputs, outputAt_mixOutputs_succ _ _ _ (by simpa using h), getD_map_subBlock b _ _ h]

/-- The even outputs stand first. -/
theorem subBlock_blockmix_even (b : List Byte) (r i : Nat) (hi : i < r) :
    subBlock (blockmix b r).1 i = outputAt (blockmixOutputs b r) (2 * i) := by
  have heven (j : Nat) (hj : j < r) := length_outputAt b r (2 * j) (by omega)
  rw [blockmix, deinterleave, subBlock_append_left _ _ _ (by rw [length_flatMap_const r 64 _ heven]; omega),
    subBlock_flatMap_range r i _ heven hi]

/-- The odd outputs stand after the even ones. -/
theorem subBlock_blockmix_odd (b : List Byte) (r i : Nat) (hi : i < r) :
    subBlock (blockmix b r).1 (r + i) = outputAt (blockmixOutputs b r) (2 * i + 1) := by
  have heven (j : Nat) (hj : j < r) := length_outputAt b r (2 * j) (by omega)
  have hodd (j : Nat) (hj : j < r) := length_outputAt b r (2 * j + 1) (by omega)
  rw [blockmix, deinterleave, subBlock_append_right _ _ _ _ (by rw [length_flatMap_const r 64 _ heven, Nat.mul_comm]),
    subBlock_flatMap_range r i _ hodd hi]

/-- The last sub-block of the output is the last odd output, which is the accumulator. -/
theorem subBlock_blockmix_last (b : List Byte) (r : Nat) (hr : 1 ≤ r) :
    subBlock (blockmix b r).1 (2 * r - 1) = (blockmix b r).2 := by
  have hodd := subBlock_blockmix_odd b r (r - 1) (by omega)
  rwa [show r + (r - 1) = 2 * r - 1 by omega, show 2 * (r - 1) + 1 = 2 * r - 1 by omega] at hodd

/-- Settles O53: the recurrence is that of `mixOutputs`, the places are those of `deinterleave`. -/
theorem blockmixPlacesItsOutputs : Obligations.BlockmixPlacesItsOutputs := by
  intro b r hr _
  exact ⟨outputAt_blockmixOutputs_zero b r hr, outputAt_blockmixOutputs_succ b r, length_blockmix_fst b r,
    fun i hi => ⟨subBlock_blockmix_even b r i hi, subBlock_blockmix_odd b r i hi⟩, rfl,
    subBlock_blockmix_last b r hr⟩

/-! ### The command (43_blockmix.md R168) -/

theorem wellFormed_blockmix (rMax r : Byte) (hr : 1 ≤ r.toNat) (hmax : r.toNat ≤ rMax.toNat) :
    (Instr.blockmix r).wellFormed rMax = true :=
  (wellFormed_blockmix_iff rMax r).2 ⟨hr, hmax⟩

/-- The block after BLOCKMIX r: the output stored at BM, the accumulator at X. -/
theorem exec_blockmix (s : State) (r : Byte) (hr : 1 ≤ r.toNat) (hmax : r.toNat ≤ s.rMax.toNat) :
    exec (.blockmix r) s = .next { s with
      mem := (s.mem.storeBytes bmBase (blockmix (bmOperand s r) r.toNat).1).storeBytes xBase
        (blockmix (bmOperand s r) r.toNat).2
      busy := false, done := true } := by
  rw [exec_of_wellFormed _ s (wellFormed_blockmix s.rMax r hr hmax), dataEffect, complete_setX_setBm]

/-- What the host finds in BM and in X after BLOCKMIX r. -/
theorem exec_blockmix_bm_x (s t : State) (r : Byte) (hr : 1 ≤ r.toNat) (hmax : r.toNat ≤ s.rMax.toNat)
    (hm : s.mem.wf = true) (h : exec (.blockmix r) s = .next t) :
    bmOperand t r = (blockmix (bmOperand s r) r.toNat).1 ∧ t.x = (blockmix (bmOperand s r) r.toNat).2 := by
  rw [exec_wellFormed_next _ s t (wellFormed_blockmix s.rMax r hr hmax) h, bmOperand, State.x, complete_mem]
  exact load_dataEffect_blockmix s r hr hm

/-- Settles O15: the completion is `exec_blockmix`, whose two stores are read back and leave the rest; the worked
values are computed. -/
theorem blockmixMixesTheBuffer : Obligations.BlockmixMixesTheBuffer := by
  refine ⟨?inRange, ?outOfRange, ?completion, ?example128, ?zeros⟩
  case inRange =>
    intro rMax r hr hmax
    exact decode_encode_of_wellFormed rMax (.blockmix r) (wellFormed_blockmix rMax r hr hmax)
  case outOfRange =>
    intro rMax r hr
    exact decode_encode_of_illFormed rMax (.blockmix r) (decide_eq_false (by omega))
  case completion =>
    intro s r hr hmax
    have hexec := exec_blockmix s r hr hmax
    refine ⟨_, hexec, fun a hx hb => ?_, fun hm => exec_blockmix_bm_x s _ r hr hmax hm hexec⟩
    exact exec_blockmix_read r s _ hexec a (by rw [xBase]; omega) (by rw [bmBase]; omega)
  case example128 => decide +kernel
  case zeros => decide +kernel

/-! ### LOAD, RUN and DUMP of one buffer -/

/-- The block after `LOAD buf, bytes` (30_encoding.md R89). -/
def loaded (s : State) (base : Nat) (bs : List Byte) : State :=
  { s with mem := s.mem.storeBytes base (padToWord bs), events := [] }

theorem play_load_eq_loaded (s : State) (base : Nat) (bs : List Byte) (hb : s.busy = false)
    (h : bufferRoom s.rMax base bs.length) : play s (load base bs) = some (loaded s base bs) :=
  play_load s base bs hb h

theorem loaded_wf (s : State) (base : Nat) (bs : List Byte) (hm : s.mem.wf = true) :
    (loaded s base bs).mem.wf = true :=
  Memory.storeBytes_wf s.mem base (padToWord bs) hm

theorem loadBytes_loaded (s : State) (base : Nat) (bs : List Byte) (hm : s.mem.wf = true) :
    (loaded s base bs).mem.loadBytes base bs.length = bs :=
  loadBytes_padToWord s.mem base bs hm

/-- `LOAD buf, bytes; RUN i; DUMP buf` from an idle block: the host reads what the command leaves in the buffer. -/
theorem playDump_loadRunDump (s : State) (base : Nat) (bs : List Byte) (i : Instr) (polls : Nat)
    (hb : s.busy = false) (hm : s.mem.wf = true) (hroom : bufferRoom s.rMax base bs.length)
    (hw : i.wellFormed s.rMax = true) :
    ∃ t, playDump s (load base bs ++ run i polls ++ dump base bs.length) bs.length =
      some ((dataEffect i (loaded s base bs)).mem.loadBytes base bs.length, t) ∧ Idle s t := by
  obtain ⟨v, hrun, hran⟩ := play_run (loaded s base bs) i polls hb hw
  have hv := hran.idle (loaded_wf s base bs hm)
  obtain ⟨rs, hdump⟩ := playDump_buffer v base bs.length hv.busy (by rwa [hran.rMax])
  have hplay : play s (load base bs ++ run i polls) = some v := by
    rw [play_append, play_load_eq_loaded s base bs hb hroom]
    exact hrun
  refine ⟨{ v with reads := rs, events := [] }, ?_, hv.busy, hv.wf, hv.rMax, rfl, hv.err⟩
  rw [playDump_append s v _ _ _ hplay, hdump, hran.mem]

/-- `LOAD X; RUN SALSA; DUMP X`. -/
theorem playDump_salsa (s : State) (b : List Byte) (polls : Nat) (hb : s.busy = false) (hm : s.mem.wf = true)
    (hlen : b.length = 64) :
    ∃ t, playDump s (load xBase b ++ run .salsa polls ++ dump xBase 64) 64 = some (salsa208 b, t) ∧ Idle s t := by
  obtain ⟨t, hplay, hidle⟩ := playDump_loadRunDump s xBase b .salsa polls hb hm (.inr (.inl ⟨rfl, hlen.le⟩)) rfl
  have hx := loadBytes_loaded s xBase b hm
  rw [hlen] at hplay hx
  refine ⟨t, ?_, hidle⟩
  rw [hplay, load_dataEffect_salsa _ (loaded_wf s xBase b hm), State.x, hx]

/-- `LOAD BM; RUN BLOCKMIX r; DUMP BM`. -/
theorem playDump_blockmix (s : State) (b : List Byte) (r : Byte) (polls : Nat) (hb : s.busy = false)
    (hm : s.mem.wf = true) (hr : 1 ≤ r.toNat) (hmax : r.toNat ≤ s.rMax.toNat) (hlen : b.length = 128 * r.toNat) :
    ∃ t, playDump s (load bmBase b ++ run (.blockmix r) polls ++ dump bmBase (128 * r.toNat)) (128 * r.toNat) =
      some ((blockmix b r.toNat).1, t) ∧ Idle s t := by
  obtain ⟨t, hplay, hidle⟩ :=
    playDump_loadRunDump s bmBase b (.blockmix r) polls hb hm (.inr (.inr ⟨rfl, by omega⟩))
      (wellFormed_blockmix s.rMax r hr hmax)
  have hbm := loadBytes_loaded s bmBase b hm
  rw [hlen] at hplay hbm
  refine ⟨t, ?_, hidle⟩
  rw [hplay, (load_dataEffect_blockmix _ r hr (loaded_wf s bmBase b hm)).1, bmOperand, hbm]

/-! ### The host procedure of SALSA commands (43_blockmix.md R170) -/

/-- What a host procedure asks of a block, and leaves when it reports no error: idle, in canonical form, ERR = 0, and
R_MAX as it was. -/
structure Ready (rMax : Byte) (s : State) : Prop where
  busy : s.busy = false
  wf : s.mem.wf = true
  err : s.err = false
  rMax : s.rMax = rMax

/-- After a script and the look at STATUS behind it. -/
theorem Ready.looked {rMax : Byte} {s t : State} (h : Ready rMax s) (ht : Idle s t) : Ready rMax (looked t) :=
  ⟨ht.busy, ht.wf, ht.err.trans h.err, ht.rMax.trans h.rMax⟩

theorem hostSalsa_ok (polls : Nat → Nat) (b : List Byte) (rMax : Byte) (s : State) (h : Ready rMax s)
    (hlen : b.length = 64) : ∃ t, hostSalsa polls b s = some (.ok (salsa208 b), t) ∧ Ready rMax t := by
  obtain ⟨t, hplay, hidle⟩ := playDump_salsa s b (pollsFrom polls s 0) h.busy h.wf hlen
  have ht := h.looked hidle
  exact ⟨_, ask_ok polls (fun w => load xBase b ++ run .salsa (w 0) ++ dump xBase 64) 64 s t _ hplay ht.err, ht⟩

theorem hostSalsa_error (polls : Nat → Nat) (b : List Byte) (s : State) (hb : s.busy = false) (hm : s.mem.wf = true)
    (he : s.err = true) (hlen : b.length = 64) :
    ∃ t, hostSalsa polls b s = some (.error .internalError, t) ∧ t.err = false ∧ t.ecode = none := by
  obtain ⟨t, hplay, hidle⟩ := playDump_salsa s b (pollsFrom polls s 0) hb hm hlen
  exact ask_error polls (fun w => load xBase b ++ run .salsa (w 0) ++ dump xBase 64) 64 s t _ hplay (hidle.err.trans he)

theorem length_xorBytes_of_eq (a b : List Byte) (n : Nat) (ha : a.length = n) (hb : b.length = n) :
    (xorBytes a b).length = n := by
  rw [length_xorBytes, ha, hb, Nat.min_self]

/-- The outputs one after the other, each handed on to the next. -/
theorem hostMixOutputs_ok (polls : Nat → Nat) (acc : List Byte) (bs : List (List Byte)) (rMax : Byte) (s : State)
    (h : Ready rMax s) (hacc : acc.length = 64) (hbs : ∀ b ∈ bs, b.length = 64) :
    ∃ t, hostMixOutputs polls acc bs s = some (.ok (mixOutputs acc bs), t) ∧ Ready rMax t := by
  induction bs generalizing acc s with
  | nil => exact ⟨s, rfl, h⟩
  | cons b bs ih =>
    have hb : (xorBytes acc b).length = 64 := length_xorBytes_of_eq acc b 64 hacc (hbs b List.mem_cons_self)
    obtain ⟨t, hsalsa, ht⟩ := hostSalsa_ok polls (xorBytes acc b) rMax s h hb
    obtain ⟨u, hrest, hu⟩ :=
      ih (salsa208 (xorBytes acc b)) t ht (length_salsa208 _) fun c hc => hbs c (List.mem_cons_of_mem b hc)
    refine ⟨u, ?_, hu⟩
    rw [hostMixOutputs, HostRun.andThen_ok _ _ s t _ hsalsa, HostRun.andThen_ok _ _ t u _ hrest, succeed, mixOutputs]

theorem length_mem_subBlocks (b : List Byte) (r : Nat) (hb : b.length = 128 * r) :
    ∀ c ∈ (List.range (2 * r)).map (subBlock b), c.length = 64 := by
  intro c hc
  obtain ⟨i, hi, rfl⟩ := List.mem_map.1 hc
  have := List.mem_range.1 hi
  exact length_subBlock b i (by omega)

/-- BlockMix from SALSA commands, for any `r`. -/
theorem hostBlockmix_ok (polls : Nat → Nat) (b : List Byte) (r : Nat) (rMax : Byte) (s : State) (h : Ready rMax s)
    (hr : 1 ≤ r) (hb : b.length = 128 * r) :
    ∃ t, hostBlockmix polls b r s = some (.ok (blockmix b r).1, t) ∧ Ready rMax t := by
  obtain ⟨t, hmix, ht⟩ :=
    hostMixOutputs_ok polls (subBlock b (2 * r - 1)) ((List.range (2 * r)).map (subBlock b)) rMax s h
      (length_subBlock b _ (by omega)) (length_mem_subBlocks b r hb)
  refine ⟨t, ?_, ht⟩
  rw [hostBlockmix, HostRun.andThen_ok _ _ s t _ hmix, succeed, blockmix, blockmixOutputs]

/-- With ERR = 1 the host stops after its first SALSA. -/
theorem hostBlockmix_error (polls : Nat → Nat) (b : List Byte) (r : Nat) (s : State) (hbusy : s.busy = false)
    (hm : s.mem.wf = true) (he : s.err = true) (hr : 1 ≤ r) (hb : b.length = 128 * r) :
    ∃ t, hostBlockmix polls b r s = some (.error .internalError, t) ∧ t.err = false ∧ t.ecode = none := by
  obtain ⟨n, hn⟩ : ∃ n, 2 * r = n + 1 := ⟨2 * r - 1, by omega⟩
  have hlen : (xorBytes (subBlock b (2 * r - 1)) (subBlock b 0)).length = 64 :=
    length_xorBytes_of_eq _ _ 64 (length_subBlock b _ (by omega)) (length_subBlock b 0 (by omega))
  obtain ⟨t, hsalsa, ht⟩ := hostSalsa_error polls _ s hbusy hm he hlen
  refine ⟨t, ?_, ht⟩
  rw [hostBlockmix, hn, List.range_succ_eq_map, List.map_cons, hostMixOutputs]
  exact HostRun.andThen_error _ _ s t _ (HostRun.andThen_error _ _ s t _ (hn ▸ hsalsa))

/-- Settles O56: the host's outputs are those of `blockmixOutputs`, one SALSA each, and BLOCKMIX r finds the loaded
string in BM. -/
theorem blockmixFromSalsaCommands : Obligations.BlockmixFromSalsaCommands := by
  intro s b r hinv hbusy hr hb
  refine ⟨fun polls he => ?_, fun polls he => ?_, fun polls hmax => ?_⟩
  · obtain ⟨t, hrun, -⟩ := hostBlockmix_ok polls b r s.rMax s ⟨hbusy, hinv.memWf, he, rfl⟩ hr hb
    exact ⟨t, hrun⟩
  · exact hostBlockmix_error polls b r s hbusy hinv.memWf he hr hb
  · have hn : (BitVec.ofNat 8 r).toNat = r := by
      have := s.rMax.isLt
      rw [BitVec.toNat_ofNat]
      omega
    obtain ⟨t, hplay, -⟩ := playDump_blockmix s b (BitVec.ofNat 8 r) polls hbusy hinv.memWf (by omega) (by omega)
      (by omega)
    rw [hn] at hplay
    exact ⟨t, hplay⟩

end Sys2Proof.Machine

end


section
/-! PROOFS of 44_system.md: the commands NOP and ZEROIZE (O6, O16). -/

namespace Sys2Proof.Machine

/-! ### NOP (44_system.md R181) -/

/-- The check of the reserved field comes first (60_exceptions.md R219). -/
theorem decode_of_rsvdField_ne_zero (rMax : Byte) (v : Word) (h : rsvdField v ≠ 0) :
    decode rMax v = .error .illRsvd := by
  rw [decode, if_pos h]

/-- The block after NOP: a completion, and nothing else. -/
theorem exec_nop (s : State) : exec .nop s = .next { s with busy := false, done := true } := by
  rw [exec_of_wellFormed .nop s rfl, dataEffect, complete]

/-- STATUS of an idle block that has completed a command and raised no error shows DONE alone (10_state.md R27). -/
theorem statusWord_of_completed (s : State) (hb : s.busy = false) (hd : s.done = true) (he : s.err = false)
    (hc : s.ecode = none) : statusWord s = 0x00000002 := by
  rw [statusWord, hb, hd, he, hc]
  decide

/-- `RUN i; RD STATUS` on an idle block: the last word the host has read is STATUS as the command left it. -/
theorem play_run_rd_status (s : State) (i : Instr) (polls : Nat) (hb : s.busy = false)
    (hw : i.wellFormed s.rMax = true) :
    ∃ u t, play s (run i polls ++ rd statusOffset) = some t ∧ Ran i s u ∧ t.reads.head? = some (statusWord u) := by
  obtain ⟨u, hplay, hran⟩ := play_run s i polls hb hw
  refine ⟨u, withEvents (handOut u (statusWord u)) [], ?_, hran, rfl⟩
  rw [play_append, hplay, Option.bind_some, rd, play_read _ _ _ rfl, busRead_status, play_nil]

/-- Settles O6: word 0 is the encoding of NOP, its acceptance is that of every command, its completion is `exec_nop`,
and from reset no error stands in STATUS. -/
theorem nopCompletesWithoutEffect : Obligations.NopCompletesWithoutEffect := by
  refine ⟨?word, ?argument, ?reserved, ?acceptance, exec_nop, ?status⟩
  case word => exact decode_encode_of_wellFormed 8 .nop rfl
  case argument => exact fun rMax arg => decode_formatZ_of_ne_zero rMax 0x00 arg .nop rfl
  case reserved => exact fun rMax => decode_of_rsvdField_ne_zero rMax 0x00010000 (by decide)
  case acceptance => exact fun s hb => busWrite_encode s .nop hb rfl
  case status =>
    intro polls
    obtain ⟨u, t, hplay, hran, hread⟩ := play_run_rd_status State.reset .nop polls rfl rfl
    rw [statusWord_of_completed u hran.busy hran.done hran.err hran.ecode] at hread
    exact ⟨t, hplay, hread⟩

/-! ### ZEROIZE (44_system.md R183) -/

/-- The block after ZEROIZE: the data state of reset, and a completion. -/
theorem exec_zeroize (s : State) : exec .zeroize s = .next (complete (clearData s)) := by
  rw [exec_of_wellFormed .zeroize s rfl, dataEffect]

/-- Settles O16: the completion is `exec_zeroize`, which clears every data field; the control state is kept as by every
command. -/
theorem zeroizeClearsAllData : Obligations.ZeroizeClearsAllData := by
  refine ⟨?word, ?argument, ?completion⟩
  case word => exact fun rMax => decode_encode_of_wellFormed rMax .zeroize rfl
  case argument => exact fun rMax arg => decode_formatZ_of_ne_zero rMax 0x7F arg .zeroize rfl
  case completion =>
    intro s
    refine ⟨_, exec_zeroize s, clearData_h s, clearData_len s, fun i => ?k0, Memory.read_nil, complete_busy _,
      complete_done _, exec_sameControl .zeroize s _ rfl (exec_zeroize s)⟩
    case k0 => exact Vector.getElem_replicate i.isLt

end Sys2Proof.Machine

end

section
/-! PROOFS of 45_host_procedures.md: PBKDF2, ROMix and scrypt over the block (O57, O58, O59). -/

namespace Sys2Proof.Machine

/-! ### Procedures that hand on a result -/

/-- Started on a block of which `P` holds, `m` hands on `a` and leaves a block of which `Q` holds. -/
def HostRun.Yields {α : Type} (P : State → Prop) (m : HostRun α) (a : α) (Q : State → Prop) : Prop :=
  ∀ s, P s → ∃ t, m s = some (.ok a, t) ∧ Q t

theorem yields_succeed {α : Type} (P : State → Prop) (a : α) : HostRun.Yields P (succeed a) a P :=
  fun s hs => ⟨s, rfl, hs⟩

theorem HostRun.Yields.andThen {α β : Type} {P Q R : State → Prop} {m : HostRun α} {f : α → HostRun β} {a : α}
    {b : β} (hm : HostRun.Yields P m a Q) (hf : HostRun.Yields Q (f a) b R) : HostRun.Yields P (m.andThen f) b R := by
  intro s hs
  obtain ⟨t, hfirst, ht⟩ := hm s hs
  obtain ⟨u, hrest, hu⟩ := hf t ht
  exact ⟨u, (HostRun.andThen_ok m f s t a hfirst).trans hrest, hu⟩

theorem HostRun.Yields.weaken {α : Type} {P P' Q Q' : State → Prop} {m : HostRun α} {a : α}
    (h : HostRun.Yields P m a Q) (hpre : ∀ s, P' s → P s) (hpost : ∀ s, Q s → Q' s) :
    HostRun.Yields P' m a Q' := by
  intro s hs
  obtain ⟨t, hrun, ht⟩ := h s (hpre s hs)
  exact ⟨t, hrun, hpost t ht⟩

/-- A script that leaves ERR = 0, whatever its WAITs count. -/
theorem yields_issue {P Q : State → Prop} (polls : Nat → Nat) (es : (Nat → Nat) → List Event)
    (h : ∀ s, P s → ∀ w, ∃ t, play s (es w) = some t ∧ t.err = false ∧ Q (looked t)) :
    HostRun.Yields P (issue polls es) () Q := by
  intro s hs
  obtain ⟨t, hplay, herr, ht⟩ := h s hs (pollsFrom polls s)
  exact ⟨looked t, issue_ok polls es s t hplay herr, ht⟩

/-- A script that ends with a DUMP and leaves ERR = 0, whatever its WAITs count. -/
theorem yields_ask {P Q : State → Prop} (polls : Nat → Nat) (es : (Nat → Nat) → List Event) (n : Nat)
    (bs : List Byte)
    (h : ∀ s, P s → ∀ w, ∃ t, playDump s (es w) n = some (bs, t) ∧ t.err = false ∧ Q (looked t)) :
    HostRun.Yields P (ask polls es n) bs Q := by
  intro s hs
  obtain ⟨t, hplay, herr, ht⟩ := h s hs (pollsFrom polls s)
  exact ⟨looked t, ask_ok polls es n s t bs hplay herr, ht⟩

/-! ### PBKDF2 as a function (45_host_procedures.md R195, R196) -/

theorem validateDkLen_of_invalid (dkLen : Int) (h : dkLen ≤ 0 ∨ (2 ^ 32 - 1) * 32 < dkLen) :
    validateDkLen dkLen = .error .invalidParameter := if_pos h

theorem length_hmac (k m : List Byte) : (hmac k m).length = 32 := length_sha256 _

theorem length_pbkdf2Iterate (p : List Byte) (n : Nat) (u t : List Byte) (ht : t.length = 32) :
    (pbkdf2Iterate p n u t).length = 32 := by
  induction n generalizing u t with
  | zero => exact ht
  | succ n ih => exact ih _ _ (length_xorBytes_of_eq _ _ 32 ht (length_hmac p u))

theorem length_pbkdf2Block (p salt : List Byte) (c i : Nat) : (pbkdf2Block p salt c i).length = 32 :=
  length_pbkdf2Iterate p (c - 1) _ _ (length_hmac p _)

theorem length_pbkdf2 (p salt : List Byte) (c dkLen : Nat) : (pbkdf2 p salt c dkLen).length = dkLen := by
  rw [pbkdf2, List.length_take, length_flatMap_const _ 32 _ fun i _ => length_pbkdf2Block p salt c (i + 1)]
  omega

/-- The blocks `T_1, T_2, ...` by their own numbers. -/
theorem pbkdf2_eq (p salt : List Byte) (c dkLen : Nat) :
    pbkdf2 p salt c dkLen = ((List.range' 1 ((dkLen + 31) / 32)).flatMap (pbkdf2Block p salt c)).take dkLen := by
  simp only [pbkdf2, List.range'_eq_map_range, List.flatMap_map, Nat.add_comm 1]

/-! ### PBKDF2 over the block (45_host_procedures.md R197) -/

/-- A block ready for commands, with the key block of `p` in K0. -/
structure Keyed (rMax : Byte) (p : List Byte) (s : State) : Prop extends Ready rMax s where
  key : s.k0.toList = keyBlock p

theorem yields_hmacKey (polls : Nat → Nat) (rMax : Byte) (p : List Byte) :
    HostRun.Yields (Ready rMax) (issue polls fun w => hmacKeyScript w p) () (Keyed rMax p) := by
  refine yields_issue polls (fun w => hmacKeyScript w p) fun s hs w => ?_
  obtain ⟨t, hplay, hidle, hkey⟩ := play_hmacKeyScript s p w hs.busy hs.wf
  exact ⟨t, hplay, hidle.err.trans hs.err, hs.looked hidle, hkey⟩

theorem yields_hostHmac (polls : Nat → Nat) (rMax : Byte) (p m : List Byte) :
    HostRun.Yields (Keyed rMax p) (hostHmac polls m) (hmac p m) (Keyed rMax p) := by
  refine yields_ask polls (fun w => hmacScript w m) 32 _ fun s hs w => ?_
  obtain ⟨t, hplay, hidle, -, hkept⟩ := playDump_hmacScript s p m w hs.busy hs.wf hs.key
  exact ⟨t, hplay, hidle.err.trans hs.err, hs.toReady.looked hidle, (congrArg Vector.toList hkept).trans hs.key⟩

theorem yields_hostPbkdf2Iterate (polls : Nat → Nat) (rMax : Byte) (p : List Byte) (n : Nat) (u t : List Byte) :
    HostRun.Yields (Keyed rMax p) (hostPbkdf2Iterate polls n u t) (pbkdf2Iterate p n u t) (Keyed rMax p) := by
  induction n generalizing u t with
  | zero => exact yields_succeed _ t
  | succ n ih => exact (yields_hostHmac polls rMax p u).andThen (ih (hmac p u) (xorBytes t (hmac p u)))

theorem yields_hostPbkdf2Blocks (polls : Nat → Nat) (rMax : Byte) (p salt : List Byte) (c k i : Nat) :
    HostRun.Yields (Keyed rMax p) (hostPbkdf2Blocks polls salt c k i)
      ((List.range' i k).flatMap (pbkdf2Block p salt c)) (Keyed rMax p) := by
  induction k generalizing i with
  | zero => exact yields_succeed _ []
  | succ k ih =>
    rw [List.range'_succ, List.flatMap_cons]
    exact (yields_hostHmac polls rMax p _).andThen <|
      (yields_hostPbkdf2Iterate polls rMax p (c - 1) _ _).andThen <| (ih (i + 1)).andThen (yields_succeed _ _)

theorem yields_hostPbkdf2 (polls : Nat → Nat) (rMax : Byte) (p salt : List Byte) (c : Nat) (dkLen : Int)
    (hpos : 0 < dkLen) (hle : dkLen ≤ (2 ^ 32 - 1) * 32) :
    HostRun.Yields (Ready rMax) (hostPbkdf2 polls p salt c dkLen) (pbkdf2 p salt c dkLen.toNat) (Keyed rMax p) := by
  rw [hostPbkdf2, (validateDkLen_ok_iff dkLen).2 ⟨hpos, hle⟩, pbkdf2_eq]
  exact (yields_hmacKey polls rMax p).andThen <|
    (yields_hostPbkdf2Blocks polls rMax p salt c _ 1).andThen (yields_succeed _ _)

/-- With ERR = 1 the host stops after it has loaded the key. -/
theorem hostPbkdf2_error (polls : Nat → Nat) (p salt : List Byte) (c : Nat) (dkLen : Int) (s : State)
    (hpos : 0 < dkLen) (hle : dkLen ≤ (2 ^ 32 - 1) * 32) (hb : s.busy = false) (hm : s.mem.wf = true)
    (he : s.err = true) :
    ∃ t, hostPbkdf2 polls p salt c dkLen s = some (.error .internalError, t) ∧ t.err = false ∧
      t.ecode = none := by
  obtain ⟨t, hplay, hidle, -⟩ := play_hmacKeyScript s p (pollsFrom polls s) hb hm
  obtain ⟨u, hissue, hu⟩ := issue_error polls (fun w => hmacKeyScript w p) s t hplay (hidle.err.trans he)
  refine ⟨u, ?_, hu⟩
  rw [hostPbkdf2, (validateDkLen_ok_iff dkLen).2 ⟨hpos, hle⟩]
  exact HostRun.andThen_error _ _ s u _ hissue

/-- Settles O57: an invalid dkLen is found before the key is loaded; a valid one runs R197, whose every `hmac` keeps
the key block; an ERR found at the start stops it at the key. -/
theorem pbkdfOverTheBlock : Obligations.PbkdfOverTheBlock := by
  intro s pw salt c dkLen polls hinv hb _ _
  refine ⟨fun hinvalid => ?invalid, fun hpos hle he => ?valid, fun hpos hle he => ?error⟩
  case invalid =>
    rw [pbkdf2Checked, hostPbkdf2, validateDkLen_of_invalid dkLen hinvalid]
    exact ⟨rfl, rfl⟩
  case valid =>
    obtain ⟨t, hrun, ht⟩ := yields_hostPbkdf2 polls s.rMax pw salt c dkLen hpos hle s ⟨hb, hinv.memWf, he, rfl⟩
    refine ⟨t, hrun, ?_, ht.key, ht.err⟩
    rw [pbkdf2Checked, (validateDkLen_ok_iff dkLen).2 ⟨hpos, hle⟩]
  case error => exact hostPbkdf2_error polls pw salt c dkLen s hpos hle hb hinv.memWf he

/-! ### Lengths and indices of ROMix (45_host_procedures.md R199, R200) -/

theorem length_romixFill_fst (r n : Nat) (xs : List Byte) : (romixFill r n xs).1.length = n := by
  induction n generalizing xs with
  | zero => rfl
  | succ n ih => rw [romixFill, List.length_cons, ih]

theorem length_mem_romixFill (r n : Nat) (xs : List Byte) (hxs : xs.length = 128 * r) :
    ∀ v ∈ (romixFill r n xs).1, v.length = 128 * r := by
  induction n generalizing xs with
  | zero => exact fun v hv => absurd hv List.not_mem_nil
  | succ n ih =>
    rw [romixFill]
    exact List.forall_mem_cons.2 ⟨hxs, ih _ (length_blockmix_fst xs r)⟩

theorem length_romixFill_snd (r n : Nat) (xs : List Byte) (hxs : xs.length = 128 * r) :
    (romixFill r n xs).2.length = 128 * r := by
  induction n generalizing xs with
  | zero => exact hxs
  | succ n ih => exact ih _ (length_blockmix_fst xs r)

/-- A table for ROMix: not empty, and of strings of 128r bytes. -/
structure RomixTable (r n : Nat) (v : List (List Byte)) : Prop where
  pos : 0 < n
  length : v.length = n
  entries : ∀ x ∈ v, x.length = 128 * r

theorem romixTable_romixFill (r n : Nat) (xs : List Byte) (hn : 0 < n) (hxs : xs.length = 128 * r) :
    RomixTable r n (romixFill r n xs).1 :=
  ⟨hn, length_romixFill_fst r n xs, length_mem_romixFill r n xs hxs⟩

/-- What the mix pass feeds BlockMix with has the length of the state. -/
theorem RomixTable.length_xorBytes_getD {r n : Nat} {v : List (List Byte)} (hv : RomixTable r n v) (xs : List Byte)
    (j : Nat) (hxs : xs.length = 128 * r) : (xorBytes xs (v.getD (j % n) [])).length = 128 * r := by
  have hj : j % n < v.length := (Nat.mod_lt j hv.pos).trans_eq hv.length.symm
  refine length_xorBytes_of_eq _ _ _ hxs ?_
  rw [List.getD_eq_getElem _ _ hj]
  exact hv.entries _ (List.getElem_mem hj)

/-- A little-endian integer modulo a power of two needs the bytes below that power only. -/
theorem fromLe_take_mod (l : List Byte) (m e : Nat) (hm : m ≤ l.length) (he : e ≤ 8 * m) :
    fromLe (l.take m) % 2 ^ e = fromLe l % 2 ^ e := by
  have hsplit := fromLe_append (l.take m) (l.drop m)
  rw [List.take_append_drop, List.length_take, Nat.min_eq_left hm] at hsplit
  have hdvd : 2 ^ e ∣ 256 ^ m * fromLe (l.drop m) :=
    Dvd.dvd.mul_right (by rw [show 256 = 2 ^ 8 from rfl, ← Nat.pow_mul]; exact Nat.pow_dvd_pow 2 he) _
  rw [hsplit, Nat.add_mod, Nat.mod_eq_zero_of_dvd hdvd, Nat.add_zero, Nat.mod_mod]

/-- The bytes of X the host reads give the index of R200. -/
theorem fromLe_take_indexBytes (x : List Byte) (k : Nat) (hx : x.length = 64) :
    fromLe (x.take (indexBytes (2 ^ k))) % 2 ^ k = fromLe x % 2 ^ k := by
  unfold indexBytes
  split
  · next hle => exact fromLe_take_mod x 4 k (by omega) ((Nat.pow_le_pow_iff_right (by decide)).1 hle)
  · rw [List.take_of_length_le hx.le]

/-! ### ROMix by BLOCKMIX commands (45_host_procedures.md R202) -/

/-- A block ready for commands, with the ROMix state `xs` in BM. -/
structure Holding (rMax : Byte) (r : Nat) (xs : List Byte) (s : State) : Prop extends Ready rMax s where
  bm : s.mem.loadBytes bmBase (128 * r) = xs

/-- And with the last sub-block of it in X, as BLOCKMIX leaves it. -/
structure Mixed (rMax : Byte) (r : Nat) (xs : List Byte) (s : State) : Prop extends Holding rMax r xs s where
  x : s.x = subBlock xs (2 * r - 1)

theorem Holding.reread {rMax : Byte} {r : Nat} {xs : List Byte} {s : State} (h : Holding rMax r xs s) (rs : List Word) :
    Holding rMax r xs (looked { s with reads := rs, events := [] }) :=
  ⟨⟨h.busy, h.wf, h.err, h.rMax⟩, h.bm⟩

theorem Mixed.reread {rMax : Byte} {r : Nat} {xs : List Byte} {s : State} (h : Mixed rMax r xs s) (rs : List Word) :
    Mixed rMax r xs (looked { s with reads := rs, events := [] }) :=
  ⟨h.toHolding.reread rs, h.x⟩

theorem holding_loaded {rMax : Byte} {r : Nat} {bs : List Byte} {s : State} (h : Ready rMax s)
    (hlen : bs.length = 128 * r) : Holding rMax r bs (loaded s bmBase bs) :=
  ⟨⟨h.busy, loaded_wf s bmBase bs h.wf, h.err, h.rMax⟩, hlen ▸ loadBytes_loaded s bmBase bs h.wf⟩

section
variable (polls : Nat → Nat) (rMax : Byte) (r : Nat) (hr : 1 ≤ r) (hmax : r ≤ rMax.toNat)

include hmax in
theorem toNat_ofNat_of_le_rMax : (BitVec.ofNat 8 r).toNat = r := by
  have := rMax.isLt
  rw [BitVec.toNat_ofNat]
  omega

include hr hmax in
/-- `RUN BLOCKMIX r` on the state in BM. -/
theorem play_blockmix (xs : List Byte) (s : State) (hs : Holding rMax r xs s) (w : Nat) :
    ∃ t, play s (run (.blockmix (BitVec.ofNat 8 r)) w) = some t ∧ t.err = false ∧
      Mixed rMax r (blockmix xs r).1 (looked t) := by
  have hn := toNat_ofNat_of_le_rMax rMax r hmax
  obtain ⟨t, hplay, hran⟩ := play_run s (.blockmix (BitVec.ofNat 8 r)) w hs.busy
    (wellFormed_blockmix s.rMax _ (hr.trans_eq hn.symm) (by rwa [hn, hs.rMax]))
  have hidle := hran.idle hs.wf
  obtain ⟨hbm, hx⟩ := load_dataEffect_blockmix s (BitVec.ofNat 8 r) (hr.trans_eq hn.symm) hs.wf
  rw [bmOperand, hn, hs.bm, ← hran.mem] at hbm hx
  exact ⟨t, hplay, hidle.err.trans hs.err, ⟨hs.toReady.looked hidle, hbm⟩,
    hx.trans (subBlock_blockmix_last xs r hr).symm⟩

include hr hmax in
theorem yields_run_blockmix (xs : List Byte) :
    HostRun.Yields (Holding rMax r xs) (issue polls fun w => run (.blockmix (BitVec.ofNat 8 r)) (w 0)) ()
      (Mixed rMax r (blockmix xs r).1) :=
  yields_issue polls (fun w => run (.blockmix (BitVec.ofNat 8 r)) (w 0)) fun s hs w =>
    play_blockmix rMax r hr hmax xs s hs (w 0)

include hmax in
theorem play_load_bm (bs : List Byte) (s : State) (hs : Ready rMax s) (hlen : bs.length = 128 * r) :
    play s (load bmBase bs) = some (loaded s bmBase bs) :=
  play_load_eq_loaded s bmBase bs hs.busy (.inr (.inr ⟨rfl, by rw [hlen, hs.rMax]; omega⟩))

include hmax in
theorem yields_load_bm (bs : List Byte) (hlen : bs.length = 128 * r) :
    HostRun.Yields (Ready rMax) (issue polls fun _ => load bmBase bs) () (Holding rMax r bs) :=
  yields_issue polls (fun _ => load bmBase bs) fun s hs _ =>
    ⟨_, play_load_bm rMax r hmax bs s hs hlen, hs.err, (holding_loaded hs hlen).reread _⟩

include hr hmax in
theorem yields_load_run_blockmix (bs : List Byte) (hlen : bs.length = 128 * r) :
    HostRun.Yields (Ready rMax)
      (issue polls fun w => load bmBase bs ++ run (.blockmix (BitVec.ofNat 8 r)) (w 0)) ()
      (Mixed rMax r (blockmix bs r).1) := by
  refine yields_issue polls (fun w => load bmBase bs ++ run (.blockmix (BitVec.ofNat 8 r)) (w 0)) fun s hs w => ?_
  rw [play_append, play_load_bm rMax r hmax bs s hs hlen]
  exact play_blockmix rMax r hr hmax bs _ (holding_loaded hs hlen) (w 0)

include hmax in
theorem yields_dump_bm (xs : List Byte) :
    HostRun.Yields (Holding rMax r xs) (ask polls (fun _ => dump bmBase (128 * r)) (128 * r)) xs
      (Holding rMax r xs) := by
  refine yields_ask polls (fun _ => dump bmBase (128 * r)) _ _ fun s hs _ => ?_
  obtain ⟨rs, hdump⟩ := playDump_buffer s bmBase (128 * r) hs.busy (.inr (.inr ⟨rfl, by rw [hs.rMax]; omega⟩))
  rw [hs.bm] at hdump
  exact ⟨_, hdump, hs.err, hs.reread rs⟩

theorem yields_dump_x (xs : List Byte) (n : Nat) (hn : n ≤ 64) :
    HostRun.Yields (Mixed rMax r xs) (ask polls (fun _ => dump xBase n) n)
      ((subBlock xs (2 * r - 1)).take n) (Mixed rMax r xs) := by
  refine yields_ask polls (fun _ => dump xBase n) n _ fun s hs _ => ?_
  obtain ⟨rs, hdump⟩ := playDump_buffer s xBase n hs.busy (.inr (.inl ⟨rfl, hn⟩))
  have hx : s.mem.loadBytes xBase n = s.x.take n := by
    rw [State.x, Memory.loadBytes, Memory.loadBytes, ← List.map_take, List.take_range, Nat.min_eq_left hn]
  rw [hx, hs.x] at hdump
  exact ⟨_, hdump, hs.err, hs.reread rs⟩

include hr hmax in
/-- One iteration of the fill pass, before the rest of it. -/
theorem yields_hostFill_cons {Q : State → Prop} {vs : List (List Byte)} (n : Nat) (xs : List Byte)
    (hrest : HostRun.Yields (Mixed rMax r (blockmix xs r).1) (hostFill polls r n) vs Q) :
    HostRun.Yields (Holding rMax r xs) (hostFill polls r (n + 1)) (xs :: vs) Q :=
  (yields_dump_bm polls rMax r hmax xs).andThen <|
    (yields_run_blockmix polls rMax r hr hmax xs).andThen <| hrest.andThen (yields_succeed Q _)

include hr hmax in
/-- The fill pass, which leaves X as its last BLOCKMIX does. -/
theorem yields_hostFill_succ (n : Nat) (xs : List Byte) :
    HostRun.Yields (Holding rMax r xs) (hostFill polls r (n + 1)) (romixFill r (n + 1) xs).1
      (Mixed rMax r (romixFill r (n + 1) xs).2) := by
  induction n generalizing xs with
  | zero => exact yields_hostFill_cons polls rMax r hr hmax 0 xs (yields_succeed _ [])
  | succ n ih =>
    exact yields_hostFill_cons polls rMax r hr hmax (n + 1) xs
      ((ih (blockmix xs r).1).weaken (fun _ h => h.toHolding) fun _ h => h)

include hr hmax in
/-- The mix pass, each index found in X. -/
theorem yields_hostMix (k : Nat) (v : List (List Byte)) (hv : RomixTable r (2 ^ k) v) (i : Nat) (xs : List Byte)
    (hxs : xs.length = 128 * r) :
    HostRun.Yields (Mixed rMax r xs) (hostMix polls r (2 ^ k) v i) () (Mixed rMax r (romixMix r (2 ^ k) v i xs)) := by
  induction i generalizing xs with
  | zero => exact yields_succeed _ ()
  | succ i ih =>
    have hindex : fromLe ((subBlock xs (2 * r - 1)).take (indexBytes (2 ^ k))) % 2 ^ k = integerify xs r % 2 ^ k :=
      fromLe_take_indexBytes _ k (length_subBlock xs _ (by omega))
    have hmixed := yields_load_run_blockmix polls rMax r hr hmax _ (hv.length_xorBytes_getD xs (integerify xs r) hxs)
    rw [← hindex] at hmixed
    refine (yields_dump_x polls rMax r xs _ (by unfold indexBytes; split <;> omega)).andThen <|
      ((yields_dump_bm polls rMax r hmax xs).weaken (fun _ h => h.toHolding) fun _ h => h.toReady).andThen <|
      hmixed.andThen ?_
    rw [romixMix, hindex]
    exact ih _ (length_blockmix_fst _ r)

include hr hmax in
theorem yields_hostRomixInBm (b : List Byte) (k : Nat) (hb : b.length = 128 * r) :
    HostRun.Yields (Ready rMax) (hostRomixInBm polls b (2 ^ k) r) (romix b (2 ^ k) r) (Ready rMax) := by
  obtain ⟨n, hn⟩ : ∃ n, 2 ^ k = n + 1 := Nat.exists_eq_succ_of_ne_zero (by positivity)
  have hfill := yields_hostFill_succ polls rMax r hr hmax n b
  have hv := romixTable_romixFill r (2 ^ k) b (by positivity) hb
  rw [← hn] at hfill
  exact (yields_load_bm polls rMax r hmax b hb).andThen <| hfill.andThen <|
    (yields_hostMix polls rMax r hr hmax k _ hv _ _ (length_romixFill_snd r _ b hb)).andThen <|
    (yields_dump_bm polls rMax r hmax _).weaken (fun _ h => h.toHolding) fun _ h => h.toReady

/-! ### ROMix by SALSA commands (43_blockmix.md R169, R170) -/

include hr in
theorem yields_hostBlockmix (b : List Byte) (hb : b.length = 128 * r) :
    HostRun.Yields (Ready rMax) (hostBlockmix polls b r) (blockmix b r).1 (Ready rMax) :=
  fun s hs => hostBlockmix_ok polls b r rMax s hs hr hb

include hr in
theorem yields_hostFillBySalsa (n : Nat) (xs : List Byte) (hxs : xs.length = 128 * r) :
    HostRun.Yields (Ready rMax) (hostFillBySalsa polls r n xs) (romixFill r n xs) (Ready rMax) := by
  induction n generalizing xs with
  | zero => exact yields_succeed _ ([], xs)
  | succ n ih =>
    exact (yields_hostBlockmix polls rMax r hr xs hxs).andThen <|
      (ih _ (length_blockmix_fst xs r)).andThen (yields_succeed _ _)

include hr in
theorem yields_hostMixBySalsa (n : Nat) (v : List (List Byte)) (hv : RomixTable r n v) (i : Nat) (xs : List Byte)
    (hxs : xs.length = 128 * r) :
    HostRun.Yields (Ready rMax) (hostMixBySalsa polls r n v i xs) (romixMix r n v i xs) (Ready rMax) := by
  induction i generalizing xs with
  | zero => exact yields_succeed _ xs
  | succ i ih =>
    exact (yields_hostBlockmix polls rMax r hr _ (hv.length_xorBytes_getD xs _ hxs)).andThen
      (ih _ (length_blockmix_fst _ r))

include hr in
theorem yields_hostRomixBySalsa (b : List Byte) (n : Nat) (hn : 0 < n) (hb : b.length = 128 * r) :
    HostRun.Yields (Ready rMax) (hostRomixBySalsa polls b n r) (romix b n r) (Ready rMax) :=
  (yields_hostFillBySalsa polls rMax r hr n b hb).andThen <|
    yields_hostMixBySalsa polls rMax r hr n _ (romixTable_romixFill r n b hn hb) n _ (length_romixFill_snd r n b hb)

/-! ### ROMix over the block -/

/-- `DUMP PARAM`: the host reads R_MAX in the first byte (10_state.md R31). -/
theorem playDump_param (s : State) :
    ∃ bs, playDump s (dump paramBase 4) 4 = some (bs, withEvents (handOut s (targetWord s .param)) []) ∧
      byteAt bs 0 = s.rMax := by
  have hplay : play s (dump paramBase 4) = some (withEvents (handOut s (targetWord s .param)) []) := by
    show play s [.read 0x0004] = _
    rw [play_read _ _ _ rfl, busRead_of_not_isData s 0x0004 .param rfl rfl, play_nil]
  exact ⟨_, playDump_eq s _ _ 4 hplay, paramWord_value s⟩

include hr in
theorem yields_hostRomix (b : List Byte) (k : Nat) (hb : b.length = 128 * r) :
    HostRun.Yields (Ready rMax) (hostRomix polls b (2 ^ k) r) (romix b (2 ^ k) r) (Ready rMax) := by
  intro s hs
  obtain ⟨bs, hdump, hparam⟩ := playDump_param s
  rw [hs.rMax] at hparam
  have hask := ask_ok polls (fun _ => dump paramBase 4) 4 s _ bs hdump hs.err
  have hready : Ready rMax (looked (withEvents (handOut s (targetWord s .param)) [])) :=
    ⟨hs.busy, hs.wf, hs.err, hs.rMax⟩
  rw [hostRomix, HostRun.andThen_ok _ _ s _ bs hask, hparam]
  split
  · next hmax => exact yields_hostRomixInBm polls rMax r hr hmax b k hb _ hready
  · exact yields_hostRomixBySalsa polls rMax r hr b _ (by positivity) hb _ hready

end

/-- With ERR = 1 the host stops after it has read PARAM. -/
theorem hostRomix_error (polls : Nat → Nat) (b : List Byte) (n r : Nat) (s : State) (he : s.err = true) :
    ∃ t, hostRomix polls b n r s = some (.error .internalError, t) ∧ t.err = false ∧ t.ecode = none := by
  obtain ⟨bs, hdump, -⟩ := playDump_param s
  obtain ⟨t, hask, ht⟩ := ask_error polls (fun _ => dump paramBase 4) 4 s _ bs hdump he
  exact ⟨t, HostRun.andThen_error _ _ s t _ hask, ht⟩

/-- Settles O58: by PARAM the host takes BLOCKMIX or SALSA commands, and both passes are those of R199 either way. -/
theorem romixOverTheBlock : Obligations.RomixOverTheBlock := by
  intro s b k r polls hinv hbusy hr hb
  refine ⟨fun he => ?_, hostRomix_error polls b (2 ^ k) r s⟩
  obtain ⟨t, hrun, ht⟩ := yields_hostRomix polls s.rMax r hr b k hb s ⟨hbusy, hinv.memWf, he, rfl⟩
  exact ⟨t, hrun, ht.err⟩

/-! ### scrypt over the block (45_host_procedures.md R203, R206, R207) -/

/-- `WAIT` on any block of the invariant: the command that was pending is completed. -/
theorem play_wait (s : State) (polls : Nat) (h : Inv s) :
    ∃ t, play s (wait polls) = some t ∧ t.busy = false ∧ t.mem.wf = true ∧ t.rMax = s.rMax := by
  cases hb : s.busy with
  | false =>
    obtain ⟨rs, hplay⟩ := play_wait_idle s polls hb
    exact ⟨_, hplay, hb, h.memWf, rfl⟩
  | true =>
    obtain ⟨i, hi⟩ := Option.isSome_iff_exists.1 (h.busyPending hb)
    obtain ⟨rs, hplay⟩ := play_wait_busy s i polls hb hi
    exact ⟨_, hplay, rfl, dataEffect_wf i s h.memWf, (dataEffect_control i s).rMax⟩

/-- `WAIT; CLRERR` makes a block of the invariant ready for commands. -/
theorem yields_wait_clrErr (polls : Nat → Nat) (rMax : Byte) :
    HostRun.Yields (fun s => Inv s ∧ s.rMax = rMax) (issue polls fun w => wait (w 0) ++ clrErr) () (Ready rMax) := by
  refine yields_issue polls (fun w => wait (w 0) ++ clrErr) fun s ⟨hinv, hr⟩ w => ?_
  obtain ⟨t, hwait, hbusy, hwf, hrMax⟩ := play_wait s (w 0) hinv
  refine ⟨withEvents (writeStatus t 4) [], ?_, rfl, hbusy, hwf, rfl, hrMax.trans hr⟩
  rw [play_append, hwait, Option.bind_some, clrErr, wr, play_write _ _ _ _ rfl, busWrite_status, play_nil]

/-- A block that holds no secret, idle and without an error. -/
structure Cleared (s : State) : Prop where
  busy : s.busy = false
  err : s.err = false
  h : s.h = HashState.zero
  len : s.len = 0
  k0 : s.k0 = Vector.replicate 64 0
  mem : s.mem = []

theorem yields_zeroize (polls : Nat → Nat) (rMax : Byte) :
    HostRun.Yields (Ready rMax) (issue polls fun w => run .zeroize (w 0)) () Cleared := by
  refine yields_issue polls (fun w => run .zeroize (w 0)) fun s hs w => ?_
  obtain ⟨t, hplay, hran⟩ := play_run s .zeroize (w 0) hs.busy rfl
  exact ⟨t, hplay, hran.err.trans hs.err, hran.busy, hran.err.trans hs.err, hran.h, hran.len, hran.k0, hran.mem⟩

/-- The ROMix computations of R206, from the `i`-th chunk on. -/
theorem yields_hostRomixAll (polls : Nat → Nat) (rMax : Byte) (b : List Byte) (k r p i : Nat) (hr : 1 ≤ r)
    (hb : (i + p) * (128 * r) ≤ b.length) :
    HostRun.Yields (Ready rMax) (hostRomixAll polls b (2 ^ k) r p i)
      ((List.range' i p).flatMap fun j => romix ((b.drop (j * 128 * r)).take (128 * r)) (2 ^ k) r) (Ready rMax) := by
  induction p generalizing i with
  | zero => exact yields_succeed _ []
  | succ p ih =>
    have hchunk : ((b.drop (i * 128 * r)).take (128 * r)).length = 128 * r := by
      have hfit : i * 128 * r + 128 * r ≤ b.length :=
        calc i * 128 * r + 128 * r = (i + 1) * (128 * r) := by ring
          _ ≤ (i + (p + 1)) * (128 * r) := Nat.mul_le_mul_right _ (by omega)
          _ ≤ b.length := hb
      rw [List.length_take, List.length_drop]
      omega
    rw [List.range'_succ, List.flatMap_cons]
    exact (yields_hostRomix polls rMax r hr _ k hchunk).andThen <|
      (ih (i + 1) (by rwa [Nat.add_right_comm, Nat.add_assoc])).andThen (yields_succeed _ _)

/-- The bytes PBKDF2 derives for the ROMix chunks are within the bound of R196. -/
theorem chunkBytes_valid (r p : Nat) (hr : 0 < r) (hp : 0 < p) (hrp : r * p < 2 ^ 30) :
    (0 : Int) < (p * 128 * r : Nat) ∧ ((p * 128 * r : Nat) : Int) ≤ (2 ^ 32 - 1) * 32 := by
  have hpos : 0 < r * p := Nat.mul_pos hr hp
  rw [show p * 128 * r = 128 * (r * p) by ring]
  omega

/-- The driver on valid parameters, from any block of the invariant. -/
theorem yields_hostScryptValid (polls : Nat → Nat) (rMax : Byte) (pass salt : List Byte) (k r p dkLen : Nat)
    (hr : 0 < r) (hp : 0 < p) (hrp : r * p < 2 ^ 30) (hpos : 0 < dkLen) (hle : dkLen ≤ (2 ^ 32 - 1) * 32) :
    HostRun.Yields (fun s => Inv s ∧ s.rMax = rMax) (hostScryptValid polls pass salt (2 ^ k) r p dkLen)
      (scrypt pass salt (2 ^ k) r p dkLen) Cleared := by
  obtain ⟨hchunks, hchunks'⟩ := chunkBytes_valid r p hr hp hrp
  have hderive := yields_hostPbkdf2 polls rMax pass salt 1 (p * 128 * r : Nat) hchunks hchunks'
  have hlen := length_pbkdf2 pass salt 1 (p * 128 * r)
  have hmix := yields_hostRomixAll polls rMax (pbkdf2 pass salt 1 (p * 128 * r)) k r p 0 hr
    (by rw [hlen, Nat.zero_add, Nat.mul_assoc])
  have hout (mixed : List Byte) := yields_hostPbkdf2 polls rMax pass mixed 1 dkLen (by omega) (by omega)
  simp only [Int.toNat_natCast] at hderive hout
  rw [scrypt, List.range_eq_range']
  exact (yields_wait_clrErr polls rMax).andThen <|
    (hderive.weaken (fun _ h => h) fun _ h => h.toReady).andThen <|
    hmix.andThen <| ((hout _).weaken (fun _ h => h) fun _ h => h.toReady).andThen <|
    (yields_zeroize polls rMax).andThen (yields_succeed _ _)

theorem hostScrypt_of_invalid (polls : Nat → Nat) (pass salt : List Byte) (n r p dkLen : Int) (available : Nat)
    (e : HostError) (h : validate n r p dkLen available = .error e) :
    hostScrypt polls pass salt n r p dkLen available = failWith e ∧
      scryptChecked pass salt n r p dkLen available = .error e := by
  rw [hostScrypt, scryptChecked, h]
  exact ⟨rfl, rfl⟩

theorem hostScrypt_of_valid (polls : Nat → Nat) (pass salt : List Byte) (n r p dkLen : Int) (available : Nat)
    (h : validate n r p dkLen available = .ok ()) :
    hostScrypt polls pass salt n r p dkLen available =
        hostScryptValid polls pass salt n.toNat r.toNat p.toNat dkLen.toNat ∧
      scryptChecked pass salt n r p dkLen available = .ok (scrypt pass salt n.toNat r.toNat p.toNat dkLen.toNat) := by
  rw [hostScrypt, scryptChecked, h]
  exact ⟨rfl, rfl⟩

/-- Settles O59: a failed validation ends the driver before its first event; after a passed one every procedure leaves
a block ready for the next, and the ZEROIZE at the end clears it. -/
theorem scryptOverTheBlock : Obligations.ScryptOverTheBlock := by
  intro s pw salt n r p dkLen available polls hinv _ _
  cases hvalid : validate n r p dkLen available with
  | error e =>
    obtain ⟨hhost, hchecked⟩ := hostScrypt_of_invalid polls pw salt n r p dkLen available e hvalid
    rw [hhost, hchecked]
    exact ⟨s, rfl, fun _ => rfl, fun h => nomatch h⟩
  | ok =>
    obtain ⟨hhost, hchecked⟩ := hostScrypt_of_valid polls pw salt n r p dkLen available hvalid
    obtain ⟨-, hr, hp, hrp, ⟨k, hk⟩, hpos, hle, -⟩ := validate_ok n r p dkLen available hvalid
    have hrp' : r.toNat * p.toNat < 2 ^ 30 := by
      rw [← Int.toNat_mul hr.le hp.le]
      omega
    obtain ⟨t, hrun, ht⟩ := yields_hostScryptValid polls s.rMax pw salt k r.toNat p.toNat dkLen.toNat (by omega)
      (by omega) hrp' (by omega) (by omega) s ⟨hinv, rfl⟩
    rw [← hk] at hrun
    rw [hhost, hchecked]
    refine ⟨t, hrun, fun h => absurd rfl h,
      fun _ => ⟨rfl, ht.busy, ht.err, ht.h, ht.len, fun i => ?_, fun a => ?_⟩⟩
    · rw [ht.k0]
      exact Vector.getElem_replicate i.isLt
    · rw [ht.mem, Memory.read_nil]

end Sys2Proof.Machine

end

section
/-! PROOFS of 60_exceptions.md: raising, keeping and clearing an error, the checks on a CMD write, the interrupt level,
the two orders of a write and a completion, and that every presentable event goes on (O5, O17, O33, O34, O35, O37, O42,
O47). -/

namespace Sys2Proof.Machine

/-! ### Raising an error (60_exceptions.md R218) -/

/-- Settles O33, by the two values of ERR. -/
theorem raisingAnErrorKeepsTheFirst : Obligations.RaisingAnErrorKeepsTheFirst :=
  fun s c => ⟨raiseError_of_no_err s c, raiseError_of_err s c⟩

/-- Settles O17: the range check of `exec` fails, and its other branch only raises (log 10). -/
theorem illFormedTermsOnlyRaise : Obligations.IllFormedTermsOnlyRaise :=
  exec_of_not_wellFormed

/-! ### The interrupt level (60_exceptions.md R224) -/

theorem irq_eq_true_iff (s : State) :
    s.irq = true ↔ (s.done = true ∧ s.ieDone = true) ∨ (s.err = true ∧ s.ieErr = true) := by
  simp [State.irq]

theorem irq_resetBlock (s : State) : (resetBlock s).irq = false := by
  simp [State.irq]

/-- Settles O35: the reset state is what the reset event leaves of it. -/
theorem irqIsTheLevelOfItsSources : Obligations.IrqIsTheLevelOfItsSources :=
  ⟨irq_eq_true_iff, irq_resetBlock State.reset, irq_resetBlock⟩

/-! ### The checks on a CMD write (60_exceptions.md R219) -/

/-- A word the decoder rejects, written to CMD of an idle block, raises the decoder's error. -/
theorem busWrite_cmd_of_error (s : State) (v : Word) (c : ErrorCode) (hb : s.busy = false)
    (h : decode s.rMax v = .error c) : busWrite s 0x0010 v = raiseError s c := by
  rw [busWrite_cmd_idle s v hb, presentCommand, h]

theorem decode_of_rsvdField_eq_zero (rMax : Byte) (v : Word) (h : rsvdField v = 0) :
    decode rMax v = decodeFields rMax (opField v) (argField v) := by
  rw [decode, if_neg (not_not_intro h)]

/-- The field decoder's answer to one of the eleven opcodes with an argument outside R84's range. -/
theorem decodeFields_of_argument_out_of_range (rMax op arg : Byte) (hop : op ∈ opcodeList)
    (harg : argumentInRange rMax op arg = false) : decodeFields rMax op arg = .error .illArg := by
  obtain ⟨i, hi⟩ := decodeFields_of_mem rMax op arg hop
  rw [hi, withArg_eq_error]
  exact ⟨harg, rfl⟩

/-- Settles O5, check by check: BUSY at the port, then the three checks of the decoder; a word that passes all of them
is legal. -/
theorem commandWriteChecksInOrder : Obligations.CommandWriteChecksInOrder := by
  intro s v op arg
  split_ifs with hbusy hrsvd hop harg
  · exact busWrite_guarded_busy s 0x0010 v hbusy rfl
  all_goals have hidle : s.busy = false := Bool.eq_false_iff.2 hbusy
  · exact busWrite_cmd_of_error s v _ hidle (decode_of_rsvdField_ne_zero _ v hrsvd)
  all_goals
    have hzero : rsvdField v = 0 := not_not.1 hrsvd
    have hdecode := decode_of_rsvdField_eq_zero s.rMax v hzero
  · exact busWrite_cmd_of_error s v _ hidle
      (hdecode.trans (decodeFields_of_argument_out_of_range _ _ _ hop harg))
  · obtain ⟨-, haccepted, -⟩ := legalWordsAreAcceptedOthersOnlyRaise
    exact haccepted s v hidle ⟨hzero, hop, Bool.eq_true_of_not_eq_false harg⟩
  · exact busWrite_cmd_of_error s v _ hidle (hdecode.trans (decodeFields_of_not_mem _ _ _ hop))

/-! ### A step as one event (20_memory.md R63, logs 4 and 5) -/

/-- Every step takes one event: the next one listed, or the completion when none is. -/
theorem step_eq_takeEvent (s : State) :
    step s = takeEvent (withEvents s s.events.tail) (s.events.head?.getD .completion) := by
  cases he : s.events with
  | nil =>
    have hs : withEvents s [] = s := by rw [← he, withEvents_self]
    rw [step_no_events s he, List.tail_nil, hs]
    rfl
  | cons e rest => exact step_event s e rest he

theorem step_events (s t : State) (h : step s = .next t) : t.events = s.events.tail := by
  rw [step_eq_takeEvent] at h
  exact takeEvent_events _ t _ h

theorem engineTurn_idle (s : State) (hb : s.busy = false) : engineTurn s = .next s := by
  simp [engineTurn, hb]

/-- Settles O37: both steps are the turn of an idle engine. -/
theorem idleBlockDoesNothing : Obligations.IdleBlockDoesNothing := by
  intro s rest hb
  constructor
  · rw [step_no_events _ rfl]
    exact engineTurn_idle (withEvents s []) hb
  · rw [step_event _ .completion rest rfl]
    exact engineTurn_idle (withEvents s rest) hb

/-! ### ERR stays until the host clears it (60_exceptions.md R217) -/

/-- With ERR = 1 only a STATUS write with bit 2 = 1 changes ERR or ECODE. -/
theorem busWrite_keeps_error (s : State) (off : Offset) (v : Word) (he : s.err = true)
    (hc : (Event.write off v).clearsError = false) :
    (busWrite s off v).err = true ∧ (busWrite s off v).ecode = s.ecode := by
  rcases busWrite_cases s off v with ⟨-, -, hw⟩ | ⟨-, hw⟩ <;> rw [hw]
  · rw [raiseError_of_err s _ he]
    exact ⟨he, rfl⟩
  cases ht : targetAt s.rMax off.toNat with
  | status =>
    have hoff : off = statusOffset := BitVec.eq_of_toNat_eq (targetAt_status _ _ ht)
    have hbit : v.getLsbD 2 = false := by simpa [Event.clearsError, hoff] using hc
    rw [writeTarget, writeStatus_err, writeStatus_ecode, he, hbit]
    exact ⟨rfl, rfl⟩
  | cmd =>
    rcases presentCommand_cases s v with ⟨c, -, hp⟩ | ⟨i, -, hp⟩ <;> rw [writeTarget, hp]
    · rw [raiseError_of_err s c he]
      exact ⟨he, rfl⟩
    · exact ⟨he, rfl⟩
  | _ => exact ⟨he, rfl⟩

theorem engineTurn_keeps_error (s t : State) (h : engineTurn s = .next t) : t.err = s.err ∧ t.ecode = s.ecode := by
  rcases engineTurn_next s t h with ⟨-, rfl⟩ | ⟨-, i, -, -, rfl⟩
  · exact ⟨rfl, rfl⟩
  · have hc := dataEffect_control i s
    exact ⟨hc.err, hc.ecode⟩

/-- With ERR = 1 an event that is neither of the two clearing ones keeps ERR and ECODE. -/
theorem takeEvent_keeps_error (s t : State) (e : Event) (he : s.err = true) (hc : e.clearsError = false)
    (h : takeEvent s e = .next t) : t.err = true ∧ t.ecode = s.ecode := by
  cases e with
  | read off =>
    obtain ⟨-, v, n, rfl⟩ := hostRead_next s t off h
    exact ⟨he, rfl⟩
  | write off v =>
    obtain ⟨-, rfl⟩ := hostWrite_next s t off v h
    exact busWrite_keeps_error s off v he hc
  | completion =>
    obtain ⟨herr, hcode⟩ := engineTurn_keeps_error s t h
    exact ⟨herr.trans he, hcode⟩
  | reset => cases hc

/-- A STATUS write with bit 2 = 1 and a reset clear ERR and ECODE together. -/
theorem takeEvent_clears_error (s t : State) (e : Event) (hc : e.clearsError = true) (h : takeEvent s e = .next t) :
    t.err = false ∧ t.ecode = none := by
  cases e with
  | read off => cases hc
  | write off v =>
    obtain ⟨-, rfl⟩ := hostWrite_next s t off v h
    obtain ⟨rfl, hbit⟩ : off = statusOffset ∧ v.getLsbD 2 = true := by simpa [Event.clearsError] using hc
    simp [busWrite_status, hbit]
  | completion => cases hc
  | reset =>
    cases h
    exact ⟨rfl, rfl⟩

/-- Settles O34: the first two clauses event by event, a step without a listed event being a completion; acceptance
does not look at ERR. -/
theorem errorStaysUntilTheHostClearsIt : Obligations.ErrorStaysUntilTheHostClearsIt := by
  refine ⟨?stays, ?cleared, ?accepted, raiseError_of_err⟩
  case stays =>
    intro s t hst he hnone
    rw [step_eq_takeEvent] at hst
    refine takeEvent_keeps_error (withEvents s s.events.tail) t _ he ?_ hst
    cases hhead : s.events.head? with
    | none => rfl
    | some e => exact hnone e hhead
  case cleared =>
    intro s t e hhead hc hst
    rw [step_eq_takeEvent, hhead] at hst
    exact takeEvent_clears_error _ t e hc hst
  case accepted =>
    intro s v hb he hlegal
    obtain ⟨-, haccepted, -⟩ := legalWordsAreAcceptedOthersOnlyRaise
    rw [haccepted s v hb hlegal]
    exact ⟨rfl, he, rfl⟩

/-! ### A buffer write and a completion (60_exceptions.md R220) -/

/-- The write first: it is dropped with BUSY_WR, and the command completes. -/
theorem play_write_completion (s : State) (i : Instr) (off : Offset) (v : Word) (hb : s.busy = true)
    (hi : pendingCommand s = some i) (ha : off.toNat % 4 = 0) (hbuf : bufferOffset s.rMax off.toNat) :
    play s [.write off v, .completion] =
      some (withEvents (complete (dataEffect i (raiseError s .busyWr))) []) := by
  have hpending : pendingCommand (raiseError s .busyWr) = some i := by
    rw [pendingCommand_congr s _ (raiseError_pend s _) (raiseError_rMax s _), hi]
  rw [play_write s off v _ ((aligned_iff off).2 ha),
    busWrite_guarded_busy s off v hb (isGuarded_targetAt_of_buffer _ _ ha hbuf),
    play_completion_busy _ i [] ((raiseError_busy s _).trans hb) hpending, play_nil]

/-- The completion first: the word is stored on top of the command's result. -/
theorem play_completion_write (s : State) (i : Instr) (off : Offset) (v : Word) (hb : s.busy = true)
    (hi : pendingCommand s = some i) (ha : off.toNat % 4 = 0) (hbuf : bufferOffset s.rMax off.toNat) :
    play s [.completion, .write off v] =
      some (withEvents (storeWord (complete (dataEffect i s)) off.toNat v) []) := by
  have hbuf' : bufferOffset (complete (dataEffect i s)).rMax off.toNat := by
    rwa [complete_rMax, (dataEffect_control i s).rMax]
  rw [play_completion_busy s i _ hb hi, play_write _ off v _ ((aligned_iff off).2 ha),
    busWrite_buffer _ off v (complete_busy _) ha hbuf', play_nil]

/-- Settles O42: the raised error is no operand of the command, and no command writes ERR or ECODE. -/
theorem writeAndCompletionInEitherOrder : Obligations.WriteAndCompletionInEitherOrder := by
  intro s r i off v hb hi hr ha hbuf
  obtain rfl := exec_wellFormed_next i s r (pendingCommand_wellFormed s i hi).1 hr
  obtain ⟨hh, -, -, hm⟩ := dataEffect_congr i s (raiseError s .busyWr) (raiseError_h s _) (raiseError_len s _)
    (raiseError_k0 s _) (raiseError_mem s _)
  have hraised := dataEffect_control i (raiseError s .busyWr)
  have hplain := dataEffect_control i s
  exact ⟨_, _, play_write_completion s i off v hb hi ha hbuf, play_completion_write s i off v hb hi ha hbuf,
    hm, hraised.err.trans (raiseError_err s _), fun he => hraised.ecode.trans (by simp [he]),
    rfl, hplain.err, hplain.ecode, rfl, rfl, rfl, rfl, hh, rfl⟩

/-! ### Every presentable event goes on (93_implementation_defined.md part 1) -/

/-- In a state of the invariant the engine finds a legal command whenever it is busy. -/
theorem Inv.engineTurn_goes_on {s : State} (h : Inv s) : ∃ t, engineTurn s = .next t := by
  cases hb : s.busy with
  | false => exact ⟨s, engineTurn_idle s hb⟩
  | true =>
    obtain ⟨i, hi⟩ := Option.isSome_iff_exists.1 (h.busyPending hb)
    exact ⟨_, engineTurn_busy s i hb hi⟩

theorem Inv.takeEvent_goes_on {s : State} (h : Inv s) (e : Event) (hp : e.presentable = true) :
    ∃ t, takeEvent s e = .next t := by
  cases e with
  | read off => exact ⟨_, hostRead_of_aligned s off hp⟩
  | write off v => exact ⟨_, hostWrite_of_aligned s off v hp⟩
  | completion => exact h.engineTurn_goes_on
  | reset => exact ⟨_, rfl⟩

theorem Inv.step_goes_on {s : State} (h : Inv s) (hp : ∀ e, s.events.head? = some e → e.presentable = true) :
    ∃ t, step s = .next t := by
  rw [step_eq_takeEvent]
  refine (h.withEvents _).takeEvent_goes_on _ ?_
  cases hhead : s.events.head? with
  | none => rfl
  | some e => exact hp e hhead

/-- By induction on the number of steps: a step keeps the invariant and only shortens the list of events. -/
theorem Inv.safeRun {s : State} (h : Inv s) (k : Nat) (hp : ∀ e ∈ s.events, e.presentable = true) : safeRun s k := by
  induction k generalizing s with
  | zero => exact ⟨s, rfl⟩
  | succ k ih =>
    obtain ⟨t, hst⟩ := h.step_goes_on fun e he => hp e (List.mem_of_mem_head? he)
    have hpt : ∀ e ∈ t.events, e.presentable = true := by
      rw [step_events s t hst]
      exact fun e he => hp e (List.mem_of_mem_tail he)
    obtain ⟨u, hrun⟩ := ih (stepKeepsTheInvariant s t h hst) hpt
    exact ⟨u, (run_succ_of_step s t k hst).trans hrun⟩

/-- Settles O47: one step, then a run of them. -/
theorem presentableEventsAlwaysGoOn : Obligations.PresentableEventsAlwaysGoOn :=
  ⟨fun _ h hp => h.step_goes_on hp, fun _ k h hp => h.safeRun k hp⟩

end Sys2Proof.Machine

end

section
/-! PROOFS of 70_reset_and_hazards.md: the reset event, the takeover of a block in an unknown state, and the X that
BLOCKMIX shares with SALSA (O44, O60, O23). -/

namespace Sys2Proof.Machine

/-! ### A block that holds no data -/

/-- What `Cleared` says of the data state, byte by byte (10_state.md R36). -/
theorem Cleared.data_zero {s : State} (h : Cleared s) :
    s.h = ⟨0, 0, 0, 0, 0, 0, 0, 0⟩ ∧ s.len = 0 ∧ (∀ i : Fin 64, s.k0[i] = 0) ∧ ∀ a, s.mem.read a = 0 := by
  refine ⟨h.h, h.len, fun i => ?_, fun a => ?_⟩
  · rw [h.k0]
    exact Vector.getElem_replicate i.isLt
  · rw [h.mem, Memory.read_nil]

theorem cleared_resetBlock (s : State) : Cleared (resetBlock s) := ⟨rfl, rfl, rfl, rfl, rfl, rfl⟩

/-- ZEROIZE run on an idle block without an error. -/
theorem Ran.cleared {s t : State} (h : Ran .zeroize s t) (he : s.err = false) : Cleared t :=
  ⟨h.busy, h.err.trans he, h.h, h.len, h.k0, h.mem⟩

/-! ### The reset event (70_reset_and_hazards.md R245) -/

theorem step_reset (s : State) (rest : List Event) :
    step { s with events := .reset :: rest } = .next (resetBlock (withEvents s rest)) :=
  step_event _ .reset rest rfl

/-- An engine's turn that ends BUSY completes the pending command. -/
theorem engineTurn_ends_busy (s t : State) (h : engineTurn s = .next t) (hb : s.busy = true) :
    t.done = true ∧ ∃ i, pendingCommand s = some i := by
  rcases engineTurn_next s t h with ⟨hidle, -⟩ | ⟨-, i, hi, -, rfl⟩
  · rw [hb] at hidle
    cases hidle
  · exact ⟨complete_done _, i, hi⟩

/-- No transaction ends BUSY; a reset and the completion do. -/
theorem takeEvent_ends_busy (s t : State) (e : Event) (h : takeEvent s e = .next t) (hb : s.busy = true)
    (hbt : t.busy = false) : e = .reset ∨ (t.done = true ∧ ∃ i, pendingCommand s = some i) := by
  cases e with
  | read off =>
    obtain ⟨-, v, n, rfl⟩ := hostRead_next s t off h
    exact absurd (hb.symm.trans hbt) (by decide)
  | write off v =>
    obtain ⟨-, rfl⟩ := hostWrite_next s t off v h
    obtain ⟨-, hbusy, -⟩ := busWrite_busy s off v hb
    exact absurd (hbusy.symm.trans hbt) (by decide)
  | completion => exact .inr (engineTurn_ends_busy s t h hb)
  | reset => exact .inl rfl

/-- Settles O44: the step of a reset is `resetBlock`, and of the events a step can take only a reset and the completion
end BUSY. -/
theorem resetEventClearsEverything : Obligations.ResetEventClearsEverything := by
  refine ⟨fun s rest => ?reset, fun s t hst hb hbt => ?ended⟩
  case reset =>
    obtain ⟨hh, hl, hk, hm⟩ := (cleared_resetBlock (withEvents s rest)).data_zero
    exact ⟨_, step_reset s rest, hh, hl, hk, hm, rfl, rfl, rfl, rfl, rfl, rfl, rfl, irq_resetBlock _, rfl, rfl⟩
  case ended =>
    rw [step_eq_takeEvent] at hst
    refine (takeEvent_ends_busy (withEvents s s.events.tail) t _ hst hb hbt).imp_left fun hreset => ?_
    cases hhead : s.events.head? with
    | none => simp [hhead] at hreset
    | some e =>
      rw [hhead, Option.getD_some] at hreset
      rw [hreset]

/-! ### The takeover (70_reset_and_hazards.md R248) -/

/-- `WAIT` on any block of the invariant is the engine's turn, but for the words read. -/
theorem play_wait_engineTurn (s : State) (polls : Nat) (h : Inv s) :
    ∃ u rs, engineTurn s = .next u ∧ u.busy = false ∧
      play s (wait polls) = some { u with reads := rs, events := [] } := by
  cases hb : s.busy with
  | false =>
    obtain ⟨rs, hplay⟩ := play_wait_idle s polls hb
    exact ⟨s, _, engineTurn_idle s hb, hb, hplay⟩
  | true =>
    obtain ⟨i, hi⟩ := Option.isSome_iff_exists.1 (h.busyPending hb)
    obtain ⟨rs, hplay⟩ := play_wait_busy s i polls hb hi
    exact ⟨_, _, engineTurn_busy s i hb hi, rfl, hplay⟩

/-- The block after `CLRERR; ACK; WR IRQ_EN` (30_encoding.md R89). -/
def controlTaken (s : State) (irqEn : Word) : State :=
  { s with
    done := false, err := false, ecode := none
    ieDone := irqEn.getLsbD 1, ieErr := irqEn.getLsbD 2, events := [] }

theorem play_control (s : State) (irqEn : Word) :
    play s (clrErr ++ ack ++ wr irqEnOffset irqEn) = some (controlTaken s irqEn) := by
  have hirq (t : State) : busWrite t irqEnOffset irqEn = writeIrqEn t irqEn :=
    busWrite_of_not_isGuarded t _ irqEn .irqEn rfl rfl
  rw [clrErr, ack, wr, wr, wr, List.singleton_append, List.cons_append, List.singleton_append,
    play_write _ _ _ _ rfl, busWrite_status, play_write _ _ _ _ rfl, busWrite_status, play_write _ _ _ _ rfl, hirq,
    play_nil]
  rfl

/-- The takeover up to the host's decision on ZEROIZE. -/
theorem play_takeoverScript (s : State) (polls : Nat → Nat) (irqEn : Word) (zeroize : Bool) (h : Inv s) :
    ∃ u rs, engineTurn s = .next u ∧ u.busy = false ∧
      play s (takeoverScript polls irqEn zeroize) =
        play (controlTaken { u with reads := rs } irqEn) (if zeroize then run .zeroize (polls 1) else []) := by
  obtain ⟨u, rs, hturn, hbusy, hwait⟩ := play_wait_engineTurn s (polls 0) h
  refine ⟨u, rs, hturn, hbusy, ?_⟩
  have hscript : takeoverScript polls irqEn zeroize = wait (polls 0) ++ ((clrErr ++ ack ++ wr irqEnOffset irqEn) ++
      (if zeroize then run .zeroize (polls 1) else [])) := by
    simp only [takeoverScript, List.append_assoc]
  rw [hscript, play_append, hwait, Option.bind_some, play_append, play_control]
  rfl

/-- Settles O60: WAIT is the engine's turn, the three writes touch no data, and ZEROIZE, if the host runs it, clears
the data. -/
theorem takeoverLeavesACleanBlock : Obligations.TakeoverLeavesACleanBlock := by
  intro s polls irqEn zeroize hinv
  obtain ⟨u, rs, hturn, hbusy, hplay⟩ := play_takeoverScript s polls irqEn zeroize hinv
  rw [hplay]
  cases zeroize with
  | true =>
    obtain ⟨t, hrun, hran⟩ := play_run (controlTaken { u with reads := rs } irqEn) .zeroize (polls 1) hbusy rfl
    exact ⟨t, hrun, hran.busy, hran.done, hran.err, hran.ecode, hran.ieDone, hran.ieErr,
      fun _ => (hran.cleared rfl).data_zero, nofun, nofun⟩
  | false =>
    refine ⟨_, play_nil _, hbusy, rfl, rfl, rfl, rfl, rfl, nofun, fun _ hidle => ?_, fun _ hpending => ?_⟩
    · rw [engineTurn_idle s hidle, Host.Outcome.next.injEq] at hturn
      subst hturn
      exact ⟨rfl, rfl, rfl, rfl⟩
    · obtain ⟨i, hi⟩ := Option.isSome_iff_exists.1 (hinv.busyPending hpending)
      exact ⟨i, u, hi, (engineTurn_of_pending s i hpending hi).symm.trans hturn, rfl, rfl, rfl, rfl⟩

/-! ### The shared X (70_reset_and_hazards.md R252) -/

/-- The operand of BLOCKMIX r is the first 128r bytes of BM. -/
theorem bmOperand_eq_iff (s t : State) (r : Byte) :
    bmOperand t r = bmOperand s r ↔ ∀ k < 128 * r.toNat, t.mem.read (0x8000 + k) = s.mem.read (0x8000 + k) := by
  simp [bmOperand, bmBase, Memory.loadBytes]

/-- Settles O23: BM and X after BLOCKMIX are functions of `bmOperand`. -/
theorem blockmixIgnoresTheOldX : Obligations.BlockmixIgnoresTheOldX := by
  intro r s s' t t' hm hm' hrMax hw hbm h h'
  obtain ⟨hr, hmax⟩ := (wellFormed_blockmix_iff s.rMax r).1 hw
  obtain ⟨hout, hx⟩ := exec_blockmix_bm_x s t r hr hmax hm h
  obtain ⟨hout', hx'⟩ := exec_blockmix_bm_x s' t' r hr (by rwa [hrMax]) hm' h'
  rw [(bmOperand_eq_iff s s' r).2 hbm] at hout' hx'
  exact ⟨(bmOperand_eq_iff t t' r).1 (hout'.trans hout.symm), hx'.trans hx.symm⟩

end Sys2Proof.Machine

end
